-- ==== Sys2Proof/Word.lean ====
section
/-! DEFINITION. The word types of the block: every register, field and port word is a bit vector of
the width the spec gives it (00_scope.md R8, R9, R10, R11). -/

namespace Sys2Proof

/-- A 32-bit register or operand: `POS`, `WAKE`, `IVL`, `interval`, `time`, `value` (R8, R9). -/
abbrev Word := BitVec 32

/-- A 16-bit register or operand: `DLT`, `CNT`, `delta`, `count` (R8, R9). -/
abbrev Half := BitVec 16

/-- A byte: the error code `ERR` (R35), and the unit of a transport (20_memory.md R46). -/
abbrev Byte := BitVec 8

/-- The 8-bit instance id of a command or a report (R9; 30_encoding.md R63). -/
abbrev Oid := BitVec 8

/-- A single bit: the direction latches and the direction operand (R8). -/
abbrev Bit := BitVec 1

/-- The 96-bit command word `W` (30_encoding.md R61). -/
abbrev CommandWord := BitVec 96

/-- The 64-bit report word `Rw` (30_encoding.md R76). -/
abbrev ReportWord := BitVec 64

/-- A node index, or `none` for NIL (20_memory.md R43; entry 10). -/
abbrev Link := Option Nat

end Sys2Proof
end

