-- ==== Sys2Proof/Config.lean ====
section
/-! DEFINITION. What an implementation fixes (00_scope.md R7) and the values the spec leaves open
(93_implementation_defined.md section 2). -/

namespace Sys2Proof

/-- The parameters of R7 that shape a block. `P0` is no field: it is a draw, `Config.configurePosition`. -/
structure Params where
  /-- `N_INST`, the number of instance slots, 1 to 256. -/
  nInst : Nat
  /-- `POOL_NODES`, the number of nodes of the shared pool, 1 or more. -/
  poolNodes : Nat
  /-- `FWD_BIT`, the direction-bit value that means forward. -/
  fwdBit : Bit
deriving DecidableEq, Repr

/-- The parameters `State.reset` uses. DESIGN CHOICE (entry 3): R7 leaves `N_INST` and `POOL_NODES`
open, and these are the values of the test vectors' conventions (95_test_vectors.md); `FWD_BIT = 1` is
R7's default. -/
def Params.default : Params := ⟨4, 8, 1#1⟩

/-- FREE VALUE (entry 4): `P0`, the position right after the CONFIGURE of an id after a number of block
resets, any 32-bit value (10_state.md R28; 92_eei_decisions.md D14). An id is configured at most once
per block reset, so each CONFIGURE has a draw of its own, and none depends on another instance
(42_producer_commands.md R108). -/
opaque Config.configurePosition (resets id : Nat) : Word

/-- FREE VALUE (entry 5): the draw by which Alloc picks an element of FREE (40_motion_queue.md R80;
92_eei_decisions.md D13). -/
opaque Config.nodeChoice : Nat → Nat

/-- FREE VALUE (entry 6): what `QTAIL[i]` holds once the queue is empty (10_state.md R27). -/
opaque Config.emptyQueueTail : Nat → Link

/-- FREE VALUE (entry 7): bits 64..0 of a node's record (interval, delta, count, dir) once it is in
FREE (10_state.md R37; 40_motion_queue.md R81). -/
opaque Config.freedPayload : Nat → BitVec 65

/-- FREE VALUE (entry 7): a node's `next` field once it is in FREE. -/
opaque Config.freedNext : Nat → Link

end Sys2Proof
end

