-- ==== Sys2Proof/Syntax.lean ====
section
/-! DEFINITION. The commands of the block: one constructor per row of the opcode map (30_encoding.md
R70), with the operands its format carries (R69, R72). -/

namespace Sys2Proof

/-- A decoded command. FIRE and block reset are events, not commands (30_encoding.md R74). -/
inductive Instr where
  /-- CONFIGURE: create instance `oid` (42_producer_commands.md R97). -/
  | configure (oid : Oid)
  /-- ENQUEUE: queue a segment on instance `oid` (R98). -/
  | enqueue (oid : Oid) (interval : Word) (count : Half) (delta : Half)
  /-- SET_NEXT_DIR: write the next-direction latch (R99). -/
  | setNextDir (oid : Oid) (dir : Bit)
  /-- RESET_CLOCK: rebase the wake time of an Idle instance (R100). -/
  | resetClock (oid : Oid) (time : Word)
  /-- GET_POSITION: report the position (R101). -/
  | getPosition (oid : Oid)
  /-- SET_POSITION: write the position (R102). -/
  | setPosition (oid : Oid) (value : Word)
  /-- STOP: stop the instance and discard its queue (R103). -/
  | stop (oid : Oid)
  /-- SHUTDOWN_ALL: the system's shutdown broadcast (R104). -/
  | shutdownAll
deriving DecidableEq, Repr

end Sys2Proof
end

