-- ==== Sys2Proof/WellFormed.lean ====
section
/-! DEFINITION. What a well-formed command, a well-formed set of parameters and a well-formed
assembler operand are. -/

namespace Sys2Proof

/-- Every operand of `Instr` has exactly its field's width and the spec allows every value of every
field at decode (30_encoding.md R63 to R67: an id out of range, a zero count and an unconfigured id
all decode), so a term of `Instr` is well formed as such. One line per constructor, so that a command
with a restricted field would have to say so here. -/
def Instr.wellFormed : Instr → Bool
  | .configure _ => true
  | .enqueue _ _ _ _ => true
  | .setNextDir _ _ => true
  | .resetClock _ _ => true
  | .getPosition _ => true
  | .setPosition _ _ => true
  | .stop _ => true
  | .shutdownAll => true

/-- The ranges of the parameters (00_scope.md R7). -/
def Params.wellFormed (p : Params) : Bool :=
  decide (1 ≤ p.nInst) && decide (p.nInst ≤ 256) && decide (1 ≤ p.poolNodes)

/-- `oid` must be in 0..255 (30_encoding.md R77). -/
def oidInRange (v : Int) : Bool := decide (0 ≤ v) && decide (v ≤ 255)

/-- `dir` must be 0 or 1 (R77). -/
def dirInRange (v : Int) : Bool := decide (0 ≤ v) && decide (v ≤ 1)

/-- `interval` and `time` must be in 0..2^32-1 (R77). -/
def ticksInRange (v : Int) : Bool := decide (0 ≤ v) && decide (v < 2 ^ 32)

/-- `value` must be in -2^31..2^32-1 (R77). -/
def valueInRange (v : Int) : Bool := decide (-(2 ^ 31) ≤ v) && decide (v < 2 ^ 32)

/-- `count` must be in 0..65535 (R77). -/
def countInRange (v : Int) : Bool := decide (0 ≤ v) && decide (v ≤ 65535)

/-- `delta` must be in -32768..32767 (R77). -/
def deltaInRange (v : Int) : Bool := decide (-32768 ≤ v) && decide (v ≤ 32767)

end Sys2Proof
end

