-- ==== Sys2Proof/Decode.lean ====
section
/-! DEFINITION. Decoding a command word, total on any word and on any bytes, and encoding a command:
the fields (30_encoding.md R61), the formats (R69), the opcode map (R70), decode (R71), operand
assembly (R72), and the byte order of a transport (20_memory.md R46). -/

namespace Sys2Proof

/-! ## The fields of the command word (R61) -/

/-- `OP`, `W[7:0]` (R62). -/
def opField (w : CommandWord) : BitVec 8 := w.extractLsb' 0 8

/-- `OID`, `W[15:8]` (R63). -/
def oidField (w : CommandWord) : Oid := w.extractLsb' 8 8

/-- `DIR`, `W[16]` (R64). -/
def dirField (w : CommandWord) : Bit := w.extractLsb' 16 1

/-- `RSV`, `W[31:17]` (R68). -/
def rsvField (w : CommandWord) : BitVec 15 := w.extractLsb' 17 15

/-- `A32`, `W[63:32]` (R65). -/
def a32Field (w : CommandWord) : Word := w.extractLsb' 32 32

/-- `CNT`, `W[79:64]` (R66). -/
def cntField (w : CommandWord) : Half := w.extractLsb' 64 16

/-- `DLT`, `W[95:80]` (R67). -/
def dltField (w : CommandWord) : Half := w.extractLsb' 80 16

/-- The word with the given fields and `RSV = 0` (R61, R68). -/
def packFields (dlt cnt : Half) (a32 : Word) (dir : Bit) (oid : Oid) (op : BitVec 8) : CommandWord :=
  dlt ++ cnt ++ a32 ++ 0#15 ++ dir ++ oid ++ op

/-! ## Formats and the opcode map (R69, R70) -/

/-- The eight mnemonics of the opcode map. -/
inductive Mnemonic where
  | configure | enqueue | setNextDir | resetClock | getPosition | setPosition | stop | shutdownAll
deriving DecidableEq, Repr

/-- The five formats of R69. -/
inductive Format where
  /-- N: OP, OID. -/
  | idOnly
  /-- D: OP, OID, DIR. -/
  | idDir
  /-- A: OP, OID, A32. -/
  | idValue
  /-- Q: OP, OID, A32, CNT, DLT. -/
  | queueStep
  /-- G: OP. -/
  | global
deriving DecidableEq, Repr

/-- A row of the opcode map: a word `W` selects it when `(W AND mask) == match`. -/
structure OpcodeRow where
  mnemonic : Mnemonic
  format : Format
  /-- The row's `match` column. -/
  pattern : CommandWord
  mask : CommandWord
deriving DecidableEq, Repr

/-- The opcode map, row by row as R70 prints it. -/
def opcodeRows : List OpcodeRow := [
  ⟨.configure,   .idOnly,    0x000000000000000000000001#96, 0xFFFFFFFFFFFFFFFFFFFF00FF#96⟩,
  ⟨.enqueue,     .queueStep, 0x000000000000000000000002#96, 0x0000000000000000FFFF00FF#96⟩,
  ⟨.setNextDir,  .idDir,     0x000000000000000000000003#96, 0xFFFFFFFFFFFFFFFFFFFE00FF#96⟩,
  ⟨.resetClock,  .idValue,   0x000000000000000000000004#96, 0xFFFFFFFF00000000FFFF00FF#96⟩,
  ⟨.getPosition, .idOnly,    0x000000000000000000000005#96, 0xFFFFFFFFFFFFFFFFFFFF00FF#96⟩,
  ⟨.setPosition, .idValue,   0x000000000000000000000006#96, 0xFFFFFFFF00000000FFFF00FF#96⟩,
  ⟨.stop,        .idOnly,    0x000000000000000000000007#96, 0xFFFFFFFFFFFFFFFFFFFF00FF#96⟩,
  ⟨.shutdownAll, .global,    0x000000000000000000000008#96, 0xFFFFFFFFFFFFFFFFFFFFFFFF#96⟩]

/-- The bits that a format's unused fields and `RSV` occupy, with all of OP: the mask R69 and R68 ask
for. -/
def formatMask : Format → CommandWord
  | .idOnly    => packFields (-1) (-1) (-1) (-1) 0 (-1) ||| (0x7FFF#96 <<< 17)
  | .idDir     => packFields (-1) (-1) (-1) 0 0 (-1) ||| (0x7FFF#96 <<< 17)
  | .idValue   => packFields (-1) (-1) 0 (-1) 0 (-1) ||| (0x7FFF#96 <<< 17)
  | .queueStep => packFields 0 0 0 (-1) 0 (-1) ||| (0x7FFF#96 <<< 17)
  | .global    => packFields (-1) (-1) (-1) (-1) (-1) (-1) ||| (0x7FFF#96 <<< 17)

/-- `(W AND mask) == match` (R70). -/
def rowSelects (r : OpcodeRow) (w : CommandWord) : Bool := (w &&& r.mask) == r.pattern

/-! ## Decode (R71, R72) -/

/-- Why a word or a string of bytes is no command. -/
inductive DecodeError where
  /-- The word selects no row of the opcode map (R71). The block raises `Fatal(ReservedEncoding)`. -/
  | reservedEncoding
  /-- The bytes are not the twelve of a whole word. A transport's own fault: the port never sees it
  (20_memory.md R47). -/
  | partialWord
deriving DecidableEq, Repr

/-- The operands of a word that selected the row of a mnemonic (R72). -/
def operandsOf (w : CommandWord) : Mnemonic → Instr
  | .configure   => .configure (oidField w)
  | .enqueue     => .enqueue (oidField w) (a32Field w) (cntField w) (dltField w)
  | .setNextDir  => .setNextDir (oidField w) (dirField w)
  | .resetClock  => .resetClock (oidField w) (a32Field w)
  | .getPosition => .getPosition (oidField w)
  | .setPosition => .setPosition (oidField w) (a32Field w)
  | .stop        => .stop (oidField w)
  | .shutdownAll => .shutdownAll

/-- `decode(W)` of R71: the first row that the word selects, in the map's order, with its operands; a
word that selects none is illegal. -/
def decode (w : CommandWord) : Except DecodeError Instr :=
  match opcodeRows.find? (fun r => rowSelects r w) with
  | some r => .ok (operandsOf w r.mnemonic)
  | none => .error .reservedEncoding

/-! ## Encode -/

/-- The word of a command (R61, R69, R70): its OP, its operands in their fields, every other bit zero. -/
def encode : Instr → CommandWord
  | .configure oid => packFields 0 0 0 0 oid 0x01
  | .enqueue oid interval count delta => packFields delta count interval 0 oid 0x02
  | .setNextDir oid dir => packFields 0 0 0 dir oid 0x03
  | .resetClock oid time => packFields 0 0 time 0 oid 0x04
  | .getPosition oid => packFields 0 0 0 0 oid 0x05
  | .setPosition oid value => packFields 0 0 value 0 oid 0x06
  | .stop oid => packFields 0 0 0 0 oid 0x07
  | .shutdownAll => packFields 0 0 0 0 0 0x08

/-- The mnemonic of a command. -/
def mnemonicOf : Instr → Mnemonic
  | .configure _ => .configure
  | .enqueue _ _ _ _ => .enqueue
  | .setNextDir _ _ => .setNextDir
  | .resetClock _ _ => .resetClock
  | .getPosition _ => .getPosition
  | .setPosition _ _ => .setPosition
  | .stop _ => .stop
  | .shutdownAll => .shutdownAll

/-! ## The byte order of a transport (20_memory.md R46, R47) -/

/-- Byte `k` of a value: bits `[8k+7:8k]`. -/
def byteOf {n : Nat} (v : BitVec n) (k : Nat) : Byte := v.extractLsb' (8 * k) 8

/-- The twelve bytes of a command word, byte 0 (its OP field) first. -/
def commandToBytes (w : CommandWord) : List Byte := (List.range 12).map (byteOf w)

/-- The eight bytes of a report word, byte 0 first. -/
def reportToBytes (w : ReportWord) : List Byte := (List.range 8).map (byteOf w)

/-- The number a little-endian string of bytes stands for. -/
def natOfBytes : List Byte → Nat
  | [] => 0
  | b :: bs => b.toNat + 256 * natOfBytes bs

/-- The command word that exactly twelve bytes carry; a shorter or longer string is no word. -/
def commandOfBytes (bs : List Byte) : Except DecodeError CommandWord :=
  if bs.length = 12 then .ok (BitVec.ofNat 96 (natOfBytes bs)) else .error .partialWord

/-- Decoding from a transport's bytes: total on any string of bytes. -/
def decodeBytes (bs : List Byte) : Except DecodeError Instr :=
  match commandOfBytes bs with
  | .ok w => decode w
  | .error e => .error e

/-- The host's question: the command this decoder reads from the bits `w` of a table row of `nbits`
bits (96 for every row of the table), every higher bit being zero, laid out as the port's transport
lays a word out. -/
def decodeTableWord (nbits w : Nat) : Option Instr :=
  (decodeBytes (commandToBytes (BitVec.ofNat 96 (w % 2 ^ nbits)))).toOption

end Sys2Proof
end

