-- ==== Sys2Proof/Machine/State.lean ====
section
/-! DEFINITION. The state of the block as plain data: the register set of each instance, the node
pool, the global registers, the ports, and the state after block reset (10_state.md;
20_memory.md R42, R43; 70_reset_and_hazards.md R136). -/

namespace Sys2Proof.Machine

/-- One record of the node pool: a queued motion segment and its link (10_state.md R37; 20_memory.md
R43). -/
structure Node where
  interval : Word
  /-- Read as signed. -/
  delta : Half
  /-- The source's `stepCount`. -/
  count : Half
  /-- The source's `directionFlag`. -/
  dir : Bit
  next : Link
deriving DecidableEq, Repr

/-- A place of the node pool: the record, and whether its index is in FREE (R36; entry 18). -/
structure PoolSlot where
  free : Bool
  node : Node
deriving DecidableEq, Repr

/-- The registers of one instance `i` (10_state.md section 2). -/
structure Stepper where
  /-- `CFG[i]` (R33; entry 18). -/
  cfg : Bool
  /-- `POS[i]`, the position accumulator (R20). -/
  pos : Word
  /-- `WAKE[i]`, the wake time (R21). -/
  wake : Word
  /-- `IVL[i]`, the live interval (R22). -/
  ivl : Word
  /-- `DLT[i]`, the live delta, read as signed (R23). -/
  dlt : Half
  /-- `CNT[i]`, the live step count (R24). -/
  cnt : Half
  /-- `CDIR[i]`, the current direction (R25). -/
  cdir : Bit
  /-- `NDIR[i]`, the next-direction latch (R26). -/
  ndir : Bit
  /-- `QHEAD[i]` (R27). -/
  qhead : Link
  /-- `QTAIL[i]` (R27). -/
  qtail : Link
  /-- The wake time the timer facility holds armed for this instance, learned from ARM and CANCEL and
  consumed by a delivered FIRE. Not a register of the block (R38): the model's record of the facility
  (entry 13). -/
  timer : Option Word
deriving DecidableEq, Repr

/-- What the agents deliver to the block (00_scope.md R2, R6). -/
inductive Event where
  /-- The host delivers a whole command word (30_encoding.md R61). -/
  | command (w : CommandWord)
  /-- The timer facility delivers FIRE(i) (30_encoding.md R74). -/
  | fire (i : Nat)
  /-- Block reset (70_reset_and_hazards.md R136). -/
  | blockReset
deriving DecidableEq, Repr

/-- A record the block emits (00_scope.md R16; 30_encoding.md R75, R76). -/
inductive Output where
  /-- `ARM(i, t)`: fire instance `i` at absolute tick `t`. -/
  | arm (i : Nat) (t : Word)
  /-- `CANCEL(i)`: the armed timer of instance `i` must not fire. -/
  | cancel (i : Nat)
  /-- `REPORT(w)`: a position report. -/
  | report (w : ReportWord)
deriving DecidableEq, Repr

/-- The fatal conditions of the block (60_exceptions.md R109). The ERR value of each is
`ErrorCode.code`; `NONE` is no condition. -/
inductive ErrorCode where
  | invalidArgument | invalidState | typeMismatch | allocExhausted
  | reservedEncoding | alreadyConfigured | externalShutdown
deriving DecidableEq, Repr

/-- Why a step stops with a fault. The spec's own errors are no faults of the model: entering one is a
next state (60_exceptions.md R118). Both faults need a queue that breaks the ownership rule
(20_memory.md R45), which no run from block reset reaches (entry 11). Both are safe: the model stops
where the spec gives no effect. -/
inductive Fault where
  /-- A link that should name a node names none of the pool's records (20_memory.md R43). Raised by
  PopFront, Append, Load and DrainAll. Safe. -/
  | noSuchNode (link : Link)
  /-- Free of a node that is already in FREE, which R81 excludes. Raised by Load and DrainAll. Safe. -/
  | nodeInFree (index : Nat)
deriving DecidableEq, Repr

/-- Why a step is refused. -/
inductive Refusal where
  /-- An instruction whose meaning is not written: raised by an arm of `exec`, none at present. Safe. -/
  | notModelled (mnemonic : String)
  /-- A FIRE for an instance that is not armed: the facility never delivers one and the block has no
  transition for it (41_stepping_engine.md R86; 93_implementation_defined.md section 4, "refuse").
  Raised by the step on such an event. Safe (entry 12). -/
  | fireNotArmed (i : Nat)
deriving DecidableEq, Repr

/-- The whole block with its ports. `N_INST` is the number of `steppers`, `POOL_NODES` the length of
`pool` (00_scope.md R7; entry 3). -/
structure State where
  /-- `FWD_BIT` (R7, R17). -/
  fwdBit : Bit
  /-- The register sets, instance 0 first. -/
  steppers : List Stepper
  /-- The node pool and FREE, node 0 first (R36, R37). -/
  pool : List PoolSlot
  /-- `SHUT`, the shutdown latch (R34). -/
  shut : Bool
  /-- `ERR`, the code of the first fatal condition (R35). -/
  err : Byte
  /-- The events to come, in the order in which the block takes them (20_memory.md R50; entry 1). -/
  inputs : List Event
  /-- The records emitted since block reset, oldest first (00_scope.md R16; entry 14). -/
  outputs : List Output
  /-- How many block resets there have been: with the id, the name of a position draw (the model's own
  field, entry 23). -/
  resets : Nat
  /-- How many unobservable values have been drawn (the model's own field, entry 23). -/
  hiddenDraws : Nat
deriving DecidableEq, Repr

/-- An unconfigured register set as block reset leaves it: `CFG[i] = 0` and nothing armed as R136 says;
every other value is the model's, DESIGN CHOICE (entry 8). -/
def Stepper.unconfigured : Stepper :=
  { cfg := false, pos := 0, wake := 0, ivl := 0, dlt := 0, cnt := 0, cdir := 0, ndir := 0,
    qhead := none, qtail := none, timer := none }

/-- A free node as block reset leaves it: its content is the model's, DESIGN CHOICE (entry 9). -/
def PoolSlot.untouched : PoolSlot :=
  { free := true, node := { interval := 0, delta := 0, count := 0, dir := 0, next := none } }

/-- The block with parameters `p` right after block reset (70_reset_and_hazards.md R136): `SHUT = 0`,
`ERR = 0`, no instance configured, every node free, nothing armed, the report output empty. -/
def State.resetWith (p : Params) : State :=
  { fwdBit := p.fwdBit
    steppers := List.replicate p.nInst Stepper.unconfigured
    pool := List.replicate p.poolNodes PoolSlot.untouched
    shut := false
    err := 0
    inputs := []
    outputs := []
    resets := 0
    hiddenDraws := 0 }

/-- The machine right after reset, for the parameters of `Params.default` (entry 3). -/
def State.reset : State := State.resetWith Params.default

end Sys2Proof.Machine
end

