-- ==== Sys2Proof/Machine/Flags.lean ====
section
/-! DEFINITION. The status bits that later transitions test (10_state.md R29, R30, R33, R34, R41). The
block has no condition codes, and no command writes a flag. -/

namespace Sys2Proof.Machine

/-- `N_INST`: how many instance slots the block has (00_scope.md R7). -/
def State.nInst (s : State) : Nat := s.steppers.length

/-- `POOL_NODES`: how many nodes the pool has (00_scope.md R7). -/
def State.poolNodes (s : State) : Nat := s.pool.length

/-- The parameters a state carries. -/
def State.params (s : State) : Params := ⟨s.nInst, s.poolNodes, s.fwdBit⟩

/-- The register set of instance `i`. An id outside `0 .. N_INST-1` has none, and reads as an
unconfigured one, so that `CFG` reads 0 there (42_producer_commands.md R96, "i >= N_INST or CFG[i] ==
0"; entry 17). -/
def State.reg (s : State) (i : Nat) : Stepper := s.steppers.getD i Stepper.unconfigured

/-- Active exactly when `CNT[i] != 0`, else Idle (R29). -/
def Stepper.active (r : Stepper) : Bool := r.cnt != 0

/-- `i < N_INST` and `CFG[i] = 1` (R33; 42_producer_commands.md R96). -/
def State.configured (s : State) (i : Nat) : Bool := (s.reg i).cfg

/-- Instance `i` is armed: `CFG[i] = 1`, `SHUT = 0` and `CNT[i] != 0` (R30; 41_stepping_engine.md R86). -/
def State.armed (s : State) (i : Nat) : Bool := s.configured i && !s.shut && (s.reg i).active

end Sys2Proof.Machine
end

