-- ==== Sys2Proof/Machine/Operands.lean ====
section
/-! DEFINITION. The operand forms and the arithmetic of the block (00_scope.md R11, R12, R17;
30_encoding.md R72, R76; 20_memory.md R43). -/

namespace Sys2Proof.Machine

/-- The instance index an OID names: `i = zext_32(W[15:8])` (30_encoding.md R72). -/
def instanceIndex (oid : Oid) : Nat := oid.toNat

/-- `sext_32(v)` of a 16-bit value (00_scope.md R11). -/
def sext32 (v : Half) : Word := v.signExtend 32

/-- `dirStep(b)`: +1 if `b` is the forward bit, else -1 modulo 2^32 (00_scope.md R17). -/
def dirStep (fwdBit b : Bit) : Word := if b = fwdBit then 0x00000001#32 else 0xFFFFFFFF#32

/-- `s32(v)`: the two's-complement reading of a position (00_scope.md R11). -/
def s32 (v : Word) : Int := v.toInt

/-- The interval after the next step: `IVL +32 sext_32(DLT)` (41_stepping_engine.md R86, R88). -/
def advanceInterval (interval : Word) (delta : Half) : Word := interval + sext32 delta

/-- `RTYPE` of a position report (30_encoding.md R76). -/
def positionReportType : BitVec 8 := 0x81

/-- The report word `{POS, 0x0000, i[7:0], 0x81}` (30_encoding.md R76; 42_producer_commands.md R101). -/
def reportWord (oid : Oid) (pos : Word) : ReportWord := pos ++ 0#16 ++ oid ++ positionReportType

/-- The value of `ERR` for each fatal condition (60_exceptions.md R109). -/
def ErrorCode.code : ErrorCode → Byte
  | .invalidArgument => 1
  | .invalidState => 2
  | .typeMismatch => 3
  | .allocExhausted => 4
  | .reservedEncoding => 5
  | .alreadyConfigured => 6
  | .externalShutdown => 7

/-! ## The layout of a node record (20_memory.md R43) -/

/-- `NW`, the smallest width with `POOL_NODES <= 2^NW - 1`. -/
def nodeIndexWidth (poolNodes : Nat) : Nat :=
  ((List.range (poolNodes + 1)).find? fun nw => decide (poolNodes ≤ 2 ^ nw - 1)).getD poolNodes

/-- `NIL = 2^NW - 1`. -/
def nilIndex (nw : Nat) : Nat := 2 ^ nw - 1

/-- A node index of `nw` bits: NIL is all ones. -/
def linkBits (nw : Nat) : Link → BitVec nw
  | some n => BitVec.ofNat nw n
  | none => BitVec.ofNat nw (nilIndex nw)

/-- The link that a node index of `nw` bits stands for. -/
def linkOfBits {nw : Nat} (v : BitVec nw) : Link :=
  if v.toNat = nilIndex nw then none else some v.toNat

/-- Bits `[64:0]` of a node record: dir, count, delta, interval. -/
def nodePayload (nd : Node) : BitVec 65 := nd.dir ++ nd.count ++ nd.delta ++ nd.interval

/-- The node with the given bits `[64:0]` and link. -/
def nodeOfPayload (v : BitVec 65) (next : Link) : Node :=
  { interval := v.extractLsb' 0 32, delta := v.extractLsb' 32 16, count := v.extractLsb' 48 16,
    dir := v.extractLsb' 64 1, next := next }

/-- The whole record of `65 + NW` bits: `next` in `[64+NW:65]`. -/
def nodeRecord (nw : Nat) (nd : Node) : BitVec (nw + 65) := linkBits nw nd.next ++ nodePayload nd

/-- The node that a record of `65 + NW` bits holds. -/
def nodeOfRecord {nw : Nat} (v : BitVec (nw + 65)) : Node :=
  nodeOfPayload (v.extractLsb' 0 65) (linkOfBits (v.extractLsb' 65 nw))

end Sys2Proof.Machine
end

