-- ==== Sys2Proof/Machine/Ops.lean ====
section
/-! DEFINITION. The shared operations: registers, outputs, nodes, the queue operations
(40_motion_queue.md), the segment loader and StopInstance (41_stepping_engine.md), fatal entry and
ShutdownAll (60_exceptions.md section 2), dispatch (42_producer_commands.md R96). -/

namespace Sys2Proof.Machine

/-- What a step answers. -/
abbrev StepOutcome := Host.Outcome State Fault Refusal

/-- An operation of the block: the state after it, or the fault of a queue that breaks R45. -/
abbrev Result := Except Fault State

/-- The outcome of a transition that is one operation. -/
def commit : Result → StepOutcome
  | .ok s => .next s
  | .error f => .fault f

/-! ## Registers and outputs -/

/-- `R[i] <- v` for the registers of instance `i`, which exist when `i < N_INST` (00_scope.md R13). -/
def State.setReg (s : State) (i : Nat) (r : Stepper) : State :=
  { s with steppers := s.steppers.set i r }

/-- `emit` (00_scope.md R16): outputs leave in the order they are emitted. -/
def State.emit (s : State) (o : Output) : State := { s with outputs := s.outputs ++ [o] }

/-- `emit ARM(i, t)`; the facility then holds `t` armed for `i` (30_encoding.md R75). -/
def arm (i : Nat) (t : Word) (s : State) : State :=
  (s.setReg i { s.reg i with timer := some t }).emit (.arm i t)

/-- `emit CANCEL(i)`; the facility then holds nothing armed for `i` (30_encoding.md R75). -/
def cancel (i : Nat) (s : State) : State :=
  (s.setReg i { s.reg i with timer := none }).emit (.cancel i)

/-! ## Nodes (00_scope.md R14; 20_memory.md R43) -/

/-- `MemRead(n, 1)`. -/
def State.readNode (s : State) (n : Nat) : Except Fault Node :=
  match s.pool[n]? with
  | some p => .ok p.node
  | none => .error (.noSuchNode (some n))

/-- Writing fields of node `n`; its membership in FREE does not change. -/
def State.modifyNode (s : State) (n : Nat) (f : Node → Node) : Result :=
  if n < s.pool.length then
    .ok { s with pool := s.pool.modify n (fun p => { p with node := f p.node }) }
  else .error (.noSuchNode (some n))

/-- `n ∈ FREE` (10_state.md R36). -/
def State.isFree (s : State) (n : Nat) : Bool := (s.pool[n]?.map PoolSlot.free).getD false

/-- FREE as the list of its elements, rising. -/
def State.freeNodes (s : State) : List Nat := (List.range s.pool.length).filter s.isFree

/-! ## Queue operations (40_motion_queue.md) -/

/-- The node Alloc takes for a given draw, if FREE is not empty (R80): any element of FREE is the one
for some draw. -/
def State.allocNode (s : State) (draw : Nat) : Option Nat :=
  s.freeNodes[draw % s.freeNodes.length]?

/-- `FREE <- FREE \ {n}`, the write of Alloc (R80). The draw is spent. -/
def State.takeNode (s : State) (n : Nat) : State :=
  { s with pool := s.pool.modify n (fun p => { p with free := false })
           hiddenDraws := s.hiddenDraws + 1 }

/-- `FREE <- FREE ∪ {n}`, the write of Free (R81): the node's content becomes unspecified, a free value
(entry 7). -/
def State.putFree (s : State) (n : Nat) : State :=
  { s with
    pool := s.pool.set n
      { free := true
        node := nodeOfPayload (Config.freedPayload s.hiddenDraws) (Config.freedNext s.hiddenDraws) }
    hiddenDraws := s.hiddenDraws + 1 }

/-- `Free(n)` (R81). A node already in FREE is no operand of Free. -/
def freeNode (n : Nat) (s : State) : Result :=
  match s.pool[n]? with
  | none => .error (.noSuchNode (some n))
  | some p => if p.free then .error (.nodeInFree n) else .ok (s.putFree n)

/-- `QTAIL[i]` once the queue of `i` is empty: unspecified, a free value (10_state.md R27; entry 6). -/
def forgetTail (i : Nat) (s : State) : State :=
  { s.setReg i { s.reg i with qtail := Config.emptyQueueTail s.hiddenDraws } with
    hiddenDraws := s.hiddenDraws + 1 }

/-- `Append(i, n)` (R82): node `n` becomes the tail of the queue of `i`. -/
def append (i n : Nat) (s : State) : Result := do
  let s ← s.modifyNode n (fun nd => { nd with next := none })
  let r := s.reg i
  match r.qhead with
  | none => return s.setReg i { r with qhead := some n, qtail := some n }
  | some _ =>
    match r.qtail with
    | none => throw (.noSuchNode none)
    | some t =>
      let s ← s.modifyNode t (fun nd => { nd with next := some n })
      return s.setReg i { r with qtail := some n }

/-- The write of PopFront (R83): the head becomes `next`; with the last node gone the tail is
unspecified. -/
def advanceHead (i : Nat) (next : Link) (s : State) : State :=
  let s := s.setReg i { s.reg i with qhead := next }
  match next with
  | none => forgetTail i s
  | some _ => s

/-- `PopFront(i)` (R83): the head node and its record, or EMPTY (`none`). -/
def popFront (i : Nat) (s : State) : Except Fault (Option (Nat × Node) × State) :=
  match (s.reg i).qhead with
  | none => .ok (none, s)
  | some n => do
    let nd ← s.readNode n
    return (some (n, nd), advanceHead i nd.next s)

/-- The loop of DrainAll (R84), from the head. Each turn puts one more node into FREE, so a chain that
lasts longer than the pool has nodes comes back to a freed one (entry 21). -/
def drainChain (i : Nat) : Nat → State → Result
  | fuel, s =>
    match (s.reg i).qhead with
    | none => .ok s
    | some n =>
      match fuel with
      | 0 => .error (.nodeInFree n)
      | fuel + 1 => do
        let nd ← s.readNode n
        let s ← freeNode n (advanceHead i nd.next s)
        drainChain i fuel s

/-- `DrainAll(i)` (R84): every queued node of `i` goes back to FREE, without a step. -/
def drainAll (i : Nat) (s : State) : Result := drainChain i s.pool.length s

/-! ## The segment loader (41_stepping_engine.md R87, R88) -/

/-- The register writes of Load for a popped segment, in R88's order. `POS` and `NDIR` are not written. -/
def loadRegisters (r : Stepper) (seg : Node) : Stepper :=
  { r with
    wake := r.wake + seg.interval
    ivl := advanceInterval seg.interval seg.delta
    dlt := seg.delta
    cnt := seg.count
    cdir := seg.dir }

/-- `Load(i)`: on an empty queue the instance goes Idle (R87); else the head segment becomes the live
one, its node is freed and the timer is armed at the new wake time (R88). -/
def load (i : Nat) (s : State) : Result := do
  let (popped, s) ← popFront i s
  match popped with
  | none => return s.setReg i { s.reg i with cnt := 0 }
  | some (n, seg) =>
    let s ← freeNode n (s.setReg i (loadRegisters (s.reg i) seg))
    return arm i (s.reg i).wake s

/-! ## Stop, fatal entry and shutdown -/

/-- The register writes of StopInstance: `WAKE`, `CNT`, `CDIR`, `NDIR` to 0; `POS`, `IVL`, `DLT` kept
(41_stepping_engine.md R90). -/
def stopRegisters (r : Stepper) : Stepper :=
  { r with wake := 0, cnt := 0, cdir := 0, ndir := 0 }

/-- `StopInstance(i)` (41_stepping_engine.md R90): CANCEL only when Active. -/
def stopInstance (i : Nat) (s : State) : Result :=
  let s := if (s.reg i).active then cancel i s else s
  drainAll i (s.setReg i (stopRegisters (s.reg i)))

/-- One turn of ShutdownAll's loop (60_exceptions.md R120). -/
def shutdownInstance (i : Nat) (s : State) : Result :=
  if s.configured i then do
    let s ← drainAll i s
    stopInstance i s
  else .ok s

/-- The loop of ShutdownAll over a list of ids. -/
def shutdownEach : List Nat → State → Result
  | [], s => .ok s
  | i :: is, s => do
    let s ← shutdownInstance i s
    shutdownEach is s

/-- `ShutdownAll()`: every configured instance, in increasing order (60_exceptions.md R120). -/
def shutdownAll (s : State) : Result := shutdownEach (List.range s.nInst) s

/-- `FatalEntry(code)` (60_exceptions.md R118): taking a fatal condition. ERR saves the code, every
instance is stopped and the latch is set; control goes nowhere, the block has no vector. Only block
reset returns from it (R124). -/
def fatalEntry (code : ErrorCode) (s : State) : Result := do
  let s ← shutdownAll { s with err := code.code }
  return { s with shut := true }

/-- `raise Fatal(code)` (00_scope.md R15): the transition ends in fatal entry. -/
def raiseFatal (code : ErrorCode) (s : State) : StepOutcome := commit (fatalEntry code s)

/-- `BlockReset()` (70_reset_and_hazards.md R136), the way out of shutdown (R124, R135). The parameters
stay, the events still to come stay, and the counters advance or stay, so that no draw is drawn twice
(entry 15). -/
def blockReset (s : State) : State :=
  { State.resetWith s.params with
    inputs := s.inputs, resets := s.resets + 1, hiddenDraws := s.hiddenDraws }

/-! ## Dispatch (42_producer_commands.md R96) -/

/-- A command while `SHUT = 1` is discarded: no effect, no output (60_exceptions.md R123). -/
def unlessShut (s : State) (body : StepOutcome) : StepOutcome :=
  if s.shut then .next s else body

/-- Dispatch of every command but CONFIGURE and SHUTDOWN_ALL: discarded while shut, TypeMismatch for
an id that is no configured instance, else the command's own rule on instance `i` (R96). -/
def onInstance (oid : Oid) (s : State) (body : Nat → StepOutcome) : StepOutcome :=
  unlessShut s <|
    if s.configured (instanceIndex oid) then body (instanceIndex oid)
    else raiseFatal .typeMismatch s

end Sys2Proof.Machine
end

