-- ==== Sys2Proof/Machine/Lifecycle.lean ====
section
/-! DEFINITION. CONFIGURE, STOP and SHUTDOWN_ALL (42_producer_commands.md R97, R103, R104). -/

namespace Sys2Proof.Machine

/-- `InitInstance(i)` for a drawn position and an unspecified tail (10_state.md R27, R28), with
`CFG[i] <- 1`. -/
def initRegisters (p0 : Word) (tail : Link) : Stepper :=
  { cfg := true, pos := p0, wake := 0, ivl := 0, dlt := 0, cnt := 0, cdir := 0, ndir := 0,
    qhead := none, qtail := tail, timer := none }

/-- The writes of CONFIGURE on a slot that is not configured: `POS` is the draw of
this id (R28; entry 4), `QTAIL`
is unspecified (R27; entry 6). -/
def configureInstance (i : Nat) (s : State) : State :=
  { s.setReg i
      (initRegisters (Config.configurePosition s.resets i) (Config.emptyQueueTail s.hiddenDraws)) with
    hiddenDraws := s.hiddenDraws + 1 }

/-- CONFIGURE (R97): AllocExhausted for an id outside the slots, AlreadyConfigured for one in use. -/
def execConfigure (oid : Oid) (s : State) : StepOutcome :=
  unlessShut s <|
    if s.nInst ≤ instanceIndex oid then raiseFatal .allocExhausted s
    else if s.configured (instanceIndex oid) then raiseFatal .alreadyConfigured s
    else .next (configureInstance (instanceIndex oid) s)

/-- STOP (R103): StopInstance, in either engine state. -/
def execStop (oid : Oid) (s : State) : StepOutcome :=
  onInstance oid s fun i => commit (stopInstance i s)

/-- SHUTDOWN_ALL (R104): itself a halt, with code ExternalShutdown. -/
def execShutdownAll (s : State) : StepOutcome :=
  unlessShut s (raiseFatal .externalShutdown s)

end Sys2Proof.Machine
end

