-- ==== Sys2Proof/Machine/Motion.lean ====
section
/-! DEFINITION. ENQUEUE, SET_NEXT_DIR and RESET_CLOCK (42_producer_commands.md R98, R99, R100). -/

namespace Sys2Proof.Machine

/-- The record ENQUEUE writes (R98): the direction is the latch's at this moment. -/
def newSegment (interval : Word) (count delta : Half) (ndir : Bit) : Node :=
  { interval := interval, delta := delta, count := count, dir := ndir, next := none }

/-- ENQUEUE after its checks, on the node `n` that Alloc took (R98): write the record, append it, and
load it at once if the instance is Idle. -/
def enqueueOn (i n : Nat) (interval : Word) (count delta : Half) (s : State) : Result := do
  let s ← (s.takeNode n).modifyNode n
    (fun _ => newSegment interval count delta (s.reg i).ndir)
  let s ← append i n s
  if (s.reg i).active then return s else load i s

/-- ENQUEUE on a configured instance for a given draw of Alloc (R98): InvalidArgument before
AllocExhausted (60_exceptions.md R121). -/
def enqueueWith (draw i : Nat) (interval : Word) (count delta : Half) (s : State) : StepOutcome :=
  if count = 0 then raiseFatal .invalidArgument s
  else match s.allocNode draw with
    | none => raiseFatal .allocExhausted s
    | some n => commit (enqueueOn i n interval count delta s)

/-- ENQUEUE (R98). Which free node is taken is the draw `Config.nodeChoice` (40_motion_queue.md R80;
entry 5). -/
def execEnqueue (oid : Oid) (interval : Word) (count delta : Half) (s : State) : StepOutcome :=
  onInstance oid s fun i =>
    enqueueWith (Config.nodeChoice s.hiddenDraws) i interval count delta s

/-- SET_NEXT_DIR (R99): `NDIR[i] <- dir`, nothing else. -/
def execSetNextDir (oid : Oid) (dir : Bit) (s : State) : StepOutcome :=
  onInstance oid s fun i => .next (s.setReg i { s.reg i with ndir := dir })

/-- RESET_CLOCK (R100): InvalidState while Active, else `WAKE[i] <- time`. -/
def execResetClock (oid : Oid) (time : Word) (s : State) : StepOutcome :=
  onInstance oid s fun i =>
    if (s.reg i).active then raiseFatal .invalidState s
    else .next (s.setReg i { s.reg i with wake := time })

end Sys2Proof.Machine
end

