-- ==== Sys2Proof/Machine/Position.lean ====
section
/-! DEFINITION. GET_POSITION and SET_POSITION (42_producer_commands.md R101, R102). -/

namespace Sys2Proof.Machine

/-- GET_POSITION (R101): one report of `POS[i]`, no register written. -/
def execGetPosition (oid : Oid) (s : State) : StepOutcome :=
  onInstance oid s fun i => .next (s.emit (.report (reportWord oid (s.reg i).pos)))

/-- SET_POSITION (R102): `POS[i] <- value`, in either engine state. -/
def execSetPosition (oid : Oid) (value : Word) (s : State) : StepOutcome :=
  onInstance oid s fun i => .next (s.setReg i { s.reg i with pos := value })

end Sys2Proof.Machine
end

