-- ==== Sys2Proof/Machine/Dispatch.lean ====
section
/-! DEFINITION. One arm per command: what a decoded command does (42_producer_commands.md). -/

namespace Sys2Proof.Machine

def exec (i : Instr) (s : State) : Host.Outcome State Fault Refusal :=
  match i with
  | .configure oid => Sys2Proof.Machine.execConfigure oid s
  | .enqueue oid interval count delta => Sys2Proof.Machine.execEnqueue oid interval count delta s
  | .setNextDir oid dir => Sys2Proof.Machine.execSetNextDir oid dir s
  | .resetClock oid time => Sys2Proof.Machine.execResetClock oid time s
  | .getPosition oid => Sys2Proof.Machine.execGetPosition oid s
  | .setPosition oid value => Sys2Proof.Machine.execSetPosition oid value s
  | .stop oid => Sys2Proof.Machine.execStop oid s
  | .shutdownAll => Sys2Proof.Machine.execShutdownAll s

end Sys2Proof.Machine
end

