-- ==== Sys2Proof/Machine/Engine.lean ====
section
/-! DEFINITION. The step event FIRE(i) (41_stepping_engine.md R86). -/

namespace Sys2Proof.Machine

/-- Part 1 of FIRE: the delivery consumes the armed wake time, and `POS[i]` moves by one in the current
direction. -/
def takeStep (fwdBit : Bit) (r : Stepper) : Stepper :=
  { r with pos := r.pos + dirStep fwdBit r.cdir, timer := none }

/-- The writes of FIRE while steps remain: `WAKE` advances by the old `IVL`, and only then `IVL`
advances. -/
def advanceRegisters (r : Stepper) : Stepper :=
  { r with cnt := r.cnt - 1, wake := r.wake + r.ivl, ivl := advanceInterval r.ivl r.dlt }

/-- FIRE(i) on an armed instance (R86): step, then rearm while steps remain, else Load. -/
def fire (i : Nat) (s : State) : Result :=
  let s := s.setReg i (takeStep s.fwdBit (s.reg i))
  if (s.reg i).cnt - 1 ≠ 0 then
    let s := s.setReg i (advanceRegisters (s.reg i))
    .ok (arm i (s.reg i).wake s)
  else load i s

/-- The event FIRE(i): delivered only while instance `i` is armed; for an unarmed instance the block
has no transition (R86; entry 12). -/
def fireEvent (i : Nat) (s : State) : StepOutcome :=
  if s.armed i then commit (fire i s) else .refused (.fireNotArmed i)

end Sys2Proof.Machine
end

