-- ==== Sys2Proof/Machine/Events.lean ====
section
/-! DEFINITION. What each event does: a command word (42_producer_commands.md R96), a FIRE
(41_stepping_engine.md R86), block reset (70_reset_and_hazards.md R136). -/

namespace Sys2Proof.Machine

/-- `Execute(W)` (R96): while `SHUT = 1` the word is discarded before decode; an illegal word raises
ReservedEncoding (30_encoding.md R71); a legal one runs. -/
def executeWord (w : CommandWord) (s : State) : StepOutcome :=
  unlessShut s <|
    match decode w with
    | .ok i => exec i s
    | .error _ => raiseFatal .reservedEncoding s

/-- One event is one atomic transition (20_memory.md R49). -/
def handleEvent (e : Event) (s : State) : StepOutcome :=
  match e with
  | .command w => executeWord w s
  | .fire i => fireEvent i s
  | .blockReset => .next (blockReset s)

/-- Taking the next event, if one is pending: the event and the state that no longer holds it. -/
def takeInput (s : State) : Option (Event × State) :=
  match s.inputs with
  | [] => none
  | e :: es => some (e, { s with inputs := es })

/-- The host delivers a command word ahead of every other event. -/
def deliverFirst (w : CommandWord) (s : State) : State :=
  { s with inputs := .command w :: s.inputs }

end Sys2Proof.Machine
end

