-- ==== Sys2Proof/Machine/Step.lean ====
section
/-! DEFINITION. One step of the machine: the next event, in the order the agents deliver them
(20_memory.md R49, R50). -/

namespace Sys2Proof.Machine

/-- The block takes the next event and runs it as one transition; with none pending it waits
(70_reset_and_hazards.md R139; entry 2). -/
def step (s : State) : Host.Outcome State Fault Refusal :=
  match takeInput s with
  | none => .next s
  | some (e, t) => handleEvent e t

/-- `s` with the word of `nbits` bits `w` delivered on the command port as the very next event (entry
2). Nothing else changes. -/
def State.withFetchWord (s : State) (nbits w : Nat) : State :=
  deliverFirst (BitVec.ofNat 96 (w % 2 ^ nbits)) s

end Sys2Proof.Machine
end

