-- ==== Sys2Proof/Machine/Assembler.lean ====
section
/-! DEFINITION. The assembler syntax of commands and script lines (30_encoding.md R77) and the FWD and
REV spellings (R78), on a line of characters. What the spec leaves open of the text form is entry 20. -/

namespace Sys2Proof.Machine

/-- Why a line is no command and no script line. No word is produced (R77; 93_implementation_defined.md
section 4). -/
inductive AsmError where
  | unknownMnemonic
  | wrongOperandCount
  | notANumber
  /-- "An operand out of range is an assembler error." -/
  | outOfRange
deriving DecidableEq, Repr

/-- What a line of a script stands for. -/
inductive ScriptLine where
  /-- Nothing but white space or a comment. -/
  | blank
  /-- A command. -/
  | command (i : Instr)
  /-- A timer event, which has no encoding. -/
  | fire (i : Nat)
deriving DecidableEq, Repr

/-! ## Text -/

/-- A space or a tab. -/
def isBlank (c : Char) : Bool := c == ' ' || c == '\t'

/-- The line without white space at either end. -/
def trimBlanks (cs : List Char) : List Char :=
  (((cs.dropWhile isBlank).reverse).dropWhile isBlank).reverse

/-- The line without its comment, `; text`. -/
def withoutComment (cs : List Char) : List Char := cs.takeWhile (· != ';')

/-- The mnemonic, and the texts of the operands, separated by commas. -/
def splitLine (cs : List Char) : List Char × List (List Char) :=
  let line := trimBlanks (withoutComment cs)
  let rest := trimBlanks (line.dropWhile fun c => !isBlank c)
  (line.takeWhile fun c => !isBlank c,
   if rest.isEmpty then [] else (rest.splitOn ',').map trimBlanks)

/-! ## Numbers -/

/-- The value of a digit below 16. -/
def digitValue (c : Char) : Option Nat :=
  if '0' ≤ c ∧ c ≤ '9' then some (c.toNat - '0'.toNat)
  else if 'a' ≤ c ∧ c ≤ 'f' then some (c.toNat - 'a'.toNat + 10)
  else if 'A' ≤ c ∧ c ≤ 'F' then some (c.toNat - 'A'.toNat + 10)
  else none

/-- The digits read so far are worth `acc`; the rest, in the given base. -/
def digitsValue (base : Nat) : Nat → List Char → Option Nat
  | acc, [] => some acc
  | acc, c :: cs =>
    match digitValue c with
    | some d => if d < base then digitsValue base (base * acc + d) cs else none
    | none => none

/-- A decimal or `0x` hexadecimal number. -/
def naturalOf (cs : List Char) : Option Nat :=
  match cs with
  | [] => none
  | '0' :: 'x' :: ds => if ds.isEmpty then none else digitsValue 16 0 ds
  | ds => digitsValue 10 0 ds

/-- A number with an optional minus sign. -/
def integerOf (cs : List Char) : Option Int :=
  match cs with
  | '-' :: ds => (naturalOf ds).map fun n => -(n : Int)
  | ds => (naturalOf ds).map fun n => (n : Int)

/-! ## Operands -/

/-- An operand read as a number, in the range its command allows, as a word of `n` bits; a negative
value is encoded modulo 2^n. -/
def operand (n : Nat) (inRange : Int → Bool) (cs : List Char) : Except AsmError (BitVec n) :=
  match integerOf cs with
  | none => .error .notANumber
  | some v => if inRange v then .ok (BitVec.ofInt n v) else .error .outOfRange

/-- `oid`. -/
def oidOperand (cs : List Char) : Except AsmError Oid := operand 8 oidInRange cs

/-- `dir`, or its spellings `FWD` for `FWD_BIT` and `REV` for `1-FWD_BIT` (R78). -/
def dirOperand (fwdBit : Bit) (cs : List Char) : Except AsmError Bit :=
  if cs = "FWD".toList then .ok fwdBit
  else if cs = "REV".toList then .ok (1 - fwdBit)
  else operand 1 dirInRange cs

/-! ## Lines -/

/-- The command a mnemonic and its operands stand for (R77's list). -/
def assembleCommand (fwdBit : Bit) : Mnemonic → List (List Char) → Except AsmError Instr
  | .configure, [o] => return .configure (← oidOperand o)
  | .enqueue, [o, interval, count, delta] =>
    return .enqueue (← oidOperand o) (← operand 32 ticksInRange interval)
      (← operand 16 countInRange count) (← operand 16 deltaInRange delta)
  | .setNextDir, [o, dir] => return .setNextDir (← oidOperand o) (← dirOperand fwdBit dir)
  | .resetClock, [o, time] => return .resetClock (← oidOperand o) (← operand 32 ticksInRange time)
  | .getPosition, [o] => return .getPosition (← oidOperand o)
  | .setPosition, [o, value] => return .setPosition (← oidOperand o) (← operand 32 valueInRange value)
  | .stop, [o] => return .stop (← oidOperand o)
  | .shutdownAll, [] => return .shutdownAll
  | _, _ => throw .wrongOperandCount

/-- The spelling of a mnemonic. -/
def mnemonicText : Mnemonic → String
  | .configure => "CONFIGURE"
  | .enqueue => "ENQUEUE"
  | .setNextDir => "SET_NEXT_DIR"
  | .resetClock => "RESET_CLOCK"
  | .getPosition => "GET_POSITION"
  | .setPosition => "SET_POSITION"
  | .stop => "STOP"
  | .shutdownAll => "SHUTDOWN_ALL"

/-- The mnemonic with a given spelling. -/
def mnemonicNamed (cs : List Char) : Option Mnemonic :=
  (opcodeRows.map OpcodeRow.mnemonic).find? fun m => cs == (mnemonicText m).toList

/-- One line of a script. -/
def assembleLine (fwdBit : Bit) (cs : List Char) : Except AsmError ScriptLine :=
  match splitLine cs with
  | ([], _) => .ok .blank
  | (name, operands) =>
    if name = "FIRE".toList then
      match operands with
      | [o] => return .fire (← oidOperand o).toNat
      | _ => throw .wrongOperandCount
    else
      match mnemonicNamed name with
      | none => throw .unknownMnemonic
      | some m => return .command (← assembleCommand fwdBit m operands)

end Sys2Proof.Machine
end

