-- ==== Sys2Proof/Safety.lean ====
section
/-! DEFINITION. The terms that claims about the block use: the abstract view of a queue
(40_motion_queue.md R79), the invariants of the spec (10_state.md R30 to R35; 20_memory.md R45), what
an agent can observe (10_state.md R39), and runs. -/

namespace Sys2Proof.Machine

/-! ## Queues (40_motion_queue.md R79) -/

/-- A segment as R79's abstract view sees it: a record without its link. -/
structure Segment where
  interval : Word
  delta : Half
  count : Half
  dir : Bit
deriving DecidableEq, Repr

/-- The segment of a node record. -/
def Node.segment (nd : Node) : Segment := ⟨nd.interval, nd.delta, nd.count, nd.dir⟩

/-- The node indices reached from a link by following `next` until NIL, within `fuel` nodes; `none` if
a link names no node or the fuel runs out. -/
def walk (pool : List PoolSlot) : Nat → Link → Option (List Nat)
  | _, none => some []
  | 0, some _ => none
  | fuel + 1, some n =>
    match pool[n]? with
    | none => none
    | some p => (walk pool fuel p.node.next).map (n :: ·)

/-- The nodes of the queue of instance `i`, head first, if the queue ends (R79). -/
def State.queueNodes (s : State) (i : Nat) : Option (List Nat) :=
  walk s.pool s.poolNodes (s.reg i).qhead

/-- The nodes of the queue of instance `i`, head first. -/
def State.chain (s : State) (i : Nat) : List Nat := (s.queueNodes i).getD []

/-- The record of node `n`; a record of zeros outside the pool. -/
def State.nodeAt (s : State) (n : Nat) : Node := (s.pool.getD n PoolSlot.untouched).node

/-- `queue(i)` of R79: the segments of the queue of instance `i`, head first. -/
def State.queue (s : State) (i : Nat) : List Segment :=
  (s.chain i).map fun n => (s.nodeAt n).segment

/-! ## Invariants -/

/-- The configured ids, rising. -/
def State.configuredIds (s : State) : List Nat := (List.range s.nInst).filter s.configured

/-- The nodes owned by the queues of the configured instances (20_memory.md R45). -/
def State.ownedNodes (s : State) : List Nat := s.configuredIds.flatMap s.chain

/-- The parameters are in R7's ranges. -/
abbrev State.ParamsInRange (s : State) : Prop := s.params.wellFormed = true

/-- Every configured instance's queue ends at NIL. -/
abbrev State.QueuesEnd (s : State) : Prop :=
  ∀ i, i < s.nInst → s.configured i = true → (s.queueNodes i).isSome = true

/-- Ownership (20_memory.md R45): every node index is in FREE or in exactly one configured instance's
queue, exactly once. -/
abbrev State.NodesOwnedOnce (s : State) : Prop :=
  (s.ownedNodes ++ s.freeNodes).Perm (List.range s.poolNodes)

/-- `QTAIL[i]` is the index of the last node of a queue that is not empty (10_state.md R27). -/
abbrev State.TailsAreLast (s : State) : Prop :=
  ∀ i, i < s.nInst → s.configured i = true → (s.reg i).qhead ≠ none →
    (s.reg i).qtail = (s.chain i).getLast?

/-- An Idle configured instance has an empty queue (10_state.md R31). -/
abbrev State.IdleQueuesEmpty (s : State) : Prop :=
  ∀ i, i < s.nInst → s.configured i = true → (s.reg i).active = false → (s.reg i).qhead = none

/-- Every queued segment has a nonzero count (10_state.md R32). -/
abbrev State.CountsNonzero (s : State) : Prop :=
  ∀ i, i < s.nInst → s.configured i = true → ∀ g ∈ s.queue i, g.count ≠ 0

/-- The timer of instance `i` is armed exactly when the instance is configured and Active, and then at
`WAKE[i]` (10_state.md R30). -/
abbrev State.TimersMatch (s : State) : Prop :=
  ∀ i, i < s.nInst →
    (s.reg i).timer = if s.configured i && (s.reg i).active then some (s.reg i).wake else none

/-- While `SHUT = 1` no instance is Active (10_state.md R34). -/
abbrev State.ShutMeansIdle (s : State) : Prop :=
  s.shut = true → ∀ i, i < s.nInst → s.configured i = true → (s.reg i).active = false

/-- ERR is NONE until the shutdown, and one of the seven codes after it (10_state.md R35;
60_exceptions.md R109). -/
abbrev State.ErrMatchesShut (s : State) : Prop :=
  if s.shut then 1 ≤ s.err.toNat ∧ s.err.toNat ≤ 7 else s.err = 0

/-- The invariant of the block between transitions: every state invariant the spec states. -/
abbrev State.Inv (s : State) : Prop :=
  s.ParamsInRange ∧ s.QueuesEnd ∧ s.NodesOwnedOnce ∧ s.TailsAreLast ∧ s.IdleQueuesEmpty ∧
    s.CountsNonzero ∧ s.TimersMatch ∧ s.ShutMeansIdle ∧ s.ErrMatchesShut

/-! ## What can be observed (10_state.md R39; 40_motion_queue.md R79) -/

/-- One configured instance in the abstract view: its registers, its queue as a list of segments, and
what the facility holds armed. Node indices are not in it. -/
structure InstanceView where
  pos : Word
  wake : Word
  ivl : Word
  dlt : Half
  cnt : Half
  cdir : Bit
  ndir : Bit
  queue : List Segment
  timer : Option Word
deriving DecidableEq, Repr

/-- The abstract view of the block (R79): no node index, FREE as a count, and nothing of an
unconfigured instance's registers. -/
structure View where
  fwdBit : Bit
  instances : List (Option InstanceView)
  poolNodes : Nat
  freeCount : Nat
  shut : Bool
  err : Byte
  inputs : List Event
  outputs : List Output
  resets : Nat
deriving DecidableEq, Repr

/-- Instance `i` in the abstract view; `none` while it is not configured. -/
def State.viewOf (s : State) (i : Nat) : Option InstanceView :=
  let r := s.reg i
  if r.cfg then
    some ⟨r.pos, r.wake, r.ivl, r.dlt, r.cnt, r.cdir, r.ndir, s.queue i, r.timer⟩
  else none

/-- The abstract view of a state. -/
def State.view (s : State) : View :=
  { fwdBit := s.fwdBit, instances := (List.range s.nInst).map s.viewOf, poolNodes := s.poolNodes
    freeCount := s.freeNodes.length, shut := s.shut, err := s.err, inputs := s.inputs
    outputs := s.outputs, resets := s.resets }

/-- Whether the block discards an event: a command word while `SHUT = 1`. The third thing the host sees
(R39; 60_exceptions.md R123; entry 24). -/
def State.discards (s : State) : Event → Bool
  | .command _ => s.shut
  | _ => false

/-! ## What a claim says of an effect -/

/-- The id that dispatch looks up (42_producer_commands.md R96): every command's but CONFIGURE's and
SHUTDOWN_ALL's. -/
def lookedUpId : Instr → Option Oid
  | .configure _ => none
  | .enqueue oid _ _ _ => some oid
  | .setNextDir oid _ => some oid
  | .resetClock oid _ => some oid
  | .getPosition oid => some oid
  | .setPosition oid _ => some oid
  | .stop oid => some oid
  | .shutdownAll => none

/-- The id a command names: every command's but SHUTDOWN_ALL's (30_encoding.md R63). -/
def namedId : Instr → Option Oid
  | .configure oid => some oid
  | i => lookedUpId i

/-- From `s` to `t` the parameters, the latch, the error code, the events to come and the count of
block resets are the same. -/
def SameGlobalState (s t : State) : Prop :=
  t.params = s.params ∧ t.shut = s.shut ∧ t.err = s.err ∧ t.inputs = s.inputs ∧
    t.resets = s.resets

/-- The whole effect of `raise Fatal(code)` on the state `s` (60_exceptions.md R118, R119, R120): ERR and
SHUT are set; every configured instance is stopped with an empty queue, its POS, IVL and DLT kept; one
CANCEL per Active instance, in increasing order; every node is free; nothing of an unconfigured
instance, no parameter, no event to come changes, and no node outside the drained queues. -/
def FatalEffect (code : ErrorCode) (s t : State) : Prop :=
  t.err = code.code ∧ t.shut = true ∧ t.params = s.params ∧ t.inputs = s.inputs ∧
  t.resets = s.resets ∧
  t.outputs = s.outputs ++
    (s.configuredIds.filter fun i => (s.reg i).active).map Output.cancel ∧
  (∀ i, s.configured i = true → ∃ tail,
    t.reg i = { s.reg i with
      wake := 0, cnt := 0, cdir := 0, ndir := 0, qhead := none, qtail := tail, timer := none }) ∧
  (∀ i, s.configured i = false → t.reg i = s.reg i) ∧
  (∀ n, n < s.poolNodes → t.isFree n = true) ∧
  (∀ n, n ∉ s.ownedNodes → t.pool[n]? = s.pool[n]?)

/-- How many step events instance `i` still owes: the live count and the counts of its queue
(41_stepping_engine.md R93). -/
def State.remainingSteps (s : State) (i : Nat) : Nat :=
  (s.reg i).cnt.toNat + ((s.queue i).map fun g => g.count.toNat).sum

/-- How far those step events move `POS[i]`, each segment in its own direction (41_stepping_engine.md
R94). -/
def State.remainingTravel (s : State) (i : Nat) : Word :=
  BitVec.ofNat 32 (s.reg i).cnt.toNat * dirStep s.fwdBit (s.reg i).cdir +
    ((s.queue i).map fun g => BitVec.ofNat 32 g.count.toNat * dirStep s.fwdBit g.dir).sum

/-- The event `e` makes `g` the live segment of instance `i`: an ENQUEUE on it while Idle, with the
latch's direction, or its FIRE on the last step with `g` at the head of its queue (41_stepping_engine.md
R88). -/
def LoadsSegment (s : State) (e : Event) (i : Nat) (g : Segment) : Prop :=
  (∃ w oid, e = .command w ∧ oid.toNat = i ∧
    decode w = .ok (.enqueue oid g.interval g.count g.delta) ∧ s.configured i = true ∧
    (s.reg i).active = false ∧ g.dir = (s.reg i).ndir) ∨
  (e = .fire i ∧ s.armed i = true ∧ (s.reg i).cnt = 1 ∧ (s.queue i).head? = some g)

/-- The event is a STOP of instance `i` or a block reset. -/
def StopsOrResets (i : Nat) (e : Event) : Prop :=
  e = .blockReset ∨ ∃ w oid, e = .command w ∧ oid.toNat = i ∧ decode w = .ok (.stop oid)

/-- Two outcomes that no observer of the abstract view can tell apart. -/
def SameView : StepOutcome → StepOutcome → Prop
  | .next s, .next t => s.view = t.view
  | .refused r, .refused r' => r = r'
  | _, _ => False

/-! ## Runs -/

/-- The state `k` steps later, or where the run stopped. -/
def runSteps (k : Nat) (s : State) : StepOutcome := Sys2Proof.core.run k s

/-- `s` with exactly the events `es` to come. -/
def State.withInputs (s : State) (es : List Event) : State := { s with inputs := es }

/-- The run of `s` on exactly the events `es`. -/
def runEvents (es : List Event) (s : State) : StepOutcome := runSteps es.length (s.withInputs es)

/-- `k` FIREs of instance `i`. -/
def fires (k i : Nat) : List Event := List.replicate k (.fire i)

/-- The next state of an outcome, if it is one. -/
def nextOf : StepOutcome → Option State
  | .next s => some s
  | _ => none

end Sys2Proof.Machine
end

