-- ==== Sys2Proof/Certificates/Slice0/Obligations.lean ====
section
/-! DEFINITION. The statements for the provers, each from the rules of spec/ it names. -/

open Sys2Proof Sys2Proof.Machine

/-! ## Encoding -/

/-- R61, R69, R70, R71, R72: decoding the word of a well-formed command gives the command back, with
every operand at every value its field admits. -/
def Obligations.DecodeOfEncode : Prop :=
  ∀ i : Instr, i.wellFormed = true → decode (encode i) = .ok i

/-- R68, R69: a legal word is the word of the command it decodes to, so RSV and every field its command
does not use are zero in it. -/
def Obligations.LegalWordsAreEncodings : Prop :=
  ∀ (w : CommandWord) (i : Instr), decode w = .ok i → encode i = w

/-- R70: no word selects two rows. -/
def Obligations.OpcodeRowsDisjoint : Prop :=
  ∀ (w : CommandWord) (r r' : OpcodeRow), r ∈ opcodeRows → r' ∈ opcodeRows →
    rowSelects r w = true → rowSelects r' w = true → r = r'

/-- R62, R71: an OP outside 0x01..0x08 is illegal whatever the other fields hold, and so is a word with
a nonzero reserved bit. -/
def Obligations.ReservedWordsIllegal : Prop :=
  ∀ w : CommandWord, (opField w = 0 ∨ 9 ≤ (opField w).toNat ∨ rsvField w ≠ 0) →
    decode w = .error .reservedEncoding

/-- Words of the opcode map decode to the commands they stand for (the words of V-ENC-2, V-ENC-4,
V-ENC-5, V-ENC-7, V-ENC-8, V-ENC-9, V-ENC-10, V-ENC-11, V-ENC-12 and V-ENC-20 of
95_test_vectors.md). -/
def Obligations.VectorWordsDecode : Prop :=
  decode 0x00000000000000000000FF01#96 = .ok (.configure 255) ∧
  decode 0xFFCE0002000000C800000102#96 = .ok (.enqueue 1 200 2 (-50)) ∧
  decode 0x8000FFFFFFFFFFFF00000302#96 = .ok (.enqueue 3 0xFFFFFFFF 65535 (-32768)) ∧
  decode 0x000000000000000000010003#96 = .ok (.setNextDir 0 1) ∧
  decode 0x000000000000138800000004#96 = .ok (.resetClock 0 5000) ∧
  decode 0x000000000000000000000005#96 = .ok (.getPosition 0) ∧
  decode 0x00000000FFFFFFFF00000006#96 = .ok (.setPosition 0 0xFFFFFFFF) ∧
  decode 0x000000000000000000000007#96 = .ok (.stop 0) ∧
  decode 0x000000000000000000000008#96 = .ok .shutdownAll ∧
  decode 0x00000003000003E800010002#96 = .error .reservedEncoding

/-- R46: a transport's twelve bytes carry a command word exactly, byte k being bits 8k+7..8k and byte 0
the OP field, and its eight bytes a report word in the same order; R47: a string of another length is no
command, rejected by a name of the model's own (entry 19). -/
def Obligations.TransportCarriesWords : Prop :=
  (∀ w : CommandWord, commandOfBytes (commandToBytes w) = .ok w) ∧
  (∀ (w : CommandWord) (k : Nat), k < 12 →
    (commandToBytes w)[k]? = some (w.extractLsb' (8 * k) 8)) ∧
  (∀ w : CommandWord, (commandToBytes w)[0]? = some (opField w)) ∧
  (∀ (w : ReportWord) (k : Nat), k < 8 →
    (reportToBytes w)[k]? = some (w.extractLsb' (8 * k) 8)) ∧
  (∀ bs : List Byte, bs.length ≠ 12 → decodeBytes bs = .error .partialWord)

/-- R76: the fields of a report word. -/
def Obligations.ReportWordFields : Prop :=
  ∀ (oid : Oid) (pos : Word),
    (reportWord oid pos).extractLsb' 0 8 = 0x81#8 ∧
    (reportWord oid pos).extractLsb' 8 8 = oid ∧
    (reportWord oid pos).extractLsb' 16 16 = 0#16 ∧
    (reportWord oid pos).extractLsb' 32 32 = pos

/-- R43: `NW` is the smallest width with `POOL_NODES <= 2^NW - 1`; a record of `65 + NW` bits holds
every field of a node at the place the table gives it, NIL being all ones, and reads back. -/
def Obligations.NodeRecordLayout : Prop :=
  ∀ (poolNodes : Nat) (nd : Node), (∀ n, nd.next = some n → n < poolNodes) →
    poolNodes ≤ 2 ^ nodeIndexWidth poolNodes - 1 ∧
    (∀ w, w < nodeIndexWidth poolNodes → ¬ poolNodes ≤ 2 ^ w - 1) ∧
    (nodeRecord (nodeIndexWidth poolNodes) nd).extractLsb' 0 32 = nd.interval ∧
    (nodeRecord (nodeIndexWidth poolNodes) nd).extractLsb' 32 16 = nd.delta ∧
    (nodeRecord (nodeIndexWidth poolNodes) nd).extractLsb' 48 16 = nd.count ∧
    (nodeRecord (nodeIndexWidth poolNodes) nd).extractLsb' 64 1 = nd.dir ∧
    (nodeRecord (nodeIndexWidth poolNodes) nd).extractLsb' 65 (nodeIndexWidth poolNodes) =
      (match nd.next with
        | some n => BitVec.ofNat (nodeIndexWidth poolNodes) n
        | none => BitVec.allOnes (nodeIndexWidth poolNodes)) ∧
    nodeOfRecord (nodeRecord (nodeIndexWidth poolNodes) nd) = nd

/-- R65, R77: SET_POSITION's operand takes -2^31..2^32-1; a negative value `v` is encoded as
`v + 2^32`; a value outside the range is an assembler error. -/
def Obligations.AssembledValueOperand : Prop :=
  ∀ (cs : List Char) (v : Int), integerOf cs = some v →
    (0 ≤ v → v < 2 ^ 32 → operand 32 valueInRange cs = .ok (BitVec.ofNat 32 v.toNat)) ∧
    (-(2 ^ 31) ≤ v → v < 0 →
      operand 32 valueInRange cs = .ok (BitVec.ofNat 32 (v + 2 ^ 32).toNat)) ∧
    (v < -(2 ^ 31) ∨ 2 ^ 32 ≤ v → operand 32 valueInRange cs = .error .outOfRange)

/-! ## The step -/

/-- R49, R96: while `SHUT = 0`, a legal word at the command port runs as its command, on the state that
no longer holds the word; a word delivered by `withFetchWord` is the one that runs. -/
def Obligations.StepRunsDecodedCommand : Prop :=
  (∀ (s : State) (w : CommandWord) (es : List Event) (i : Instr), s.shut = false →
    s.inputs = .command w :: es → decode w = .ok i → i.wellFormed = true →
    step s = exec i { s with inputs := es }) ∧
  (∀ (s : State) (w : Nat) (i : Instr), s.shut = false → decodeTableWord 96 w = some i →
    step (s.withFetchWord 96 w) = exec i s)

/-- R49, R50: a step that goes on has taken exactly the first of the events to come. That block reset
keeps the later ones is the model's choice (entry 15). -/
def Obligations.EventsAreTakenInOrder : Prop :=
  ∀ (s t : State) (e : Event) (es : List Event), s.Inv → s.inputs = e :: es → step s = .next t →
    t.inputs = es

/-- R114: while `SHUT = 0` a word that selects no row of the opcode map raises ReservedEncoding. -/
def Obligations.IllegalWordIsFatal : Prop :=
  ∀ (s : State) (w : CommandWord) (es : List Event), s.Inv → s.shut = false →
    s.inputs = .command w :: es → (∀ r ∈ opcodeRows, rowSelects r w = false) →
    ∃ t, step s = .next t ∧ FatalEffect .reservedEncoding { s with inputs := es } t

/-- R123: while `SHUT = 1` every command word is discarded, legal or not: nothing but the word is gone;
and no command has an effect. -/
def Obligations.ShutDiscardsCommands : Prop :=
  (∀ (s : State) (w : CommandWord) (es : List Event), s.shut = true →
    s.inputs = .command w :: es → step s = .next { s with inputs := es }) ∧
  (∀ (s : State) (i : Instr), s.shut = true → exec i s = .next s)

/-- R122, R123, R124: a whole stream of commands delivered after shutdown changes nothing, ERR
included. -/
def Obligations.ShutIgnoresEveryStream : Prop :=
  ∀ (s : State) (es : List Event), s.shut = true → (∀ e ∈ es, ∃ w, e = .command w) →
    runEvents es s = .next (s.withInputs [])

/-- R122, R124: SHUT and ERR, once set, leave by block reset only, whatever the events. -/
def Obligations.ShutLeavesByResetOnly : Prop :=
  ∀ (s t : State) (e : Event) (es : List Event), s.shut = true → s.inputs = e :: es →
    step s = .next t →
    (e = .blockReset ∧ t.shut = false ∧ t.err = 0) ∨
    (e ≠ .blockReset ∧ t = { s with inputs := es })

/-- R139: with no event to come the block waits. -/
def Obligations.WaitsForEvents : Prop :=
  ∀ s : State, s.inputs = [] → step s = .next s

/-- R136: block reset, from any state. That the parameters stay is R7 with the model's choice of entry
15; that the whole list of outputs is emptied, ARM and CANCEL records too where R136 names the report
output, is the model's choice of entry 14. -/
def Obligations.BlockResetEffect : Prop :=
  ∀ (s : State) (es : List Event), s.inputs = .blockReset :: es →
    ∃ t, step s = .next t ∧ t.shut = false ∧ t.err = 0 ∧
      (∀ i, t.configured i = false ∧ (t.reg i).timer = none) ∧
      (∀ n, n < t.poolNodes → t.isFree n = true) ∧ t.outputs = [] ∧ t.params = s.params

/-- R136 for the state after reset: SHUT and ERR are 0, no instance is configured, every node is free,
nothing is armed and nothing was emitted, for every choice of the parameters. That the parameters are
data of the state is entry 3, and that no record at all is kept is entry 14: the model's choices. -/
def Obligations.ResetState : Prop :=
  ∀ p : Params, (State.resetWith p).shut = false ∧ (State.resetWith p).err = 0 ∧
    (State.resetWith p).nInst = p.nInst ∧ (State.resetWith p).poolNodes = p.poolNodes ∧
    (State.resetWith p).fwdBit = p.fwdBit ∧ (State.resetWith p).outputs = [] ∧
    (∀ i, (State.resetWith p).configured i = false ∧ (State.resetWith p).armed i = false ∧
      ((State.resetWith p).reg i).timer = none) ∧
    (∀ n, n < p.poolNodes → (State.resetWith p).isFree n = true)

/-! ## Commands -/

/-- R28, R97: CONFIGURE of a slot that is not configured sets CFG and every register as InitInstance
does, POS being any value; nothing else changes but the model's counter of hidden
draws (entry 23). -/
def Obligations.ConfigureCreatesInstance : Prop :=
  ∀ (s : State) (oid : Oid), s.shut = false → oid.toNat < s.nInst →
    s.configured oid.toNat = false →
    ∃ p0 tail hidden, exec (.configure oid) s = .next { s with
      steppers := s.steppers.set oid.toNat
        { cfg := true, pos := p0, wake := 0, ivl := 0, dlt := 0, cnt := 0, cdir := 0, ndir := 0,
          qhead := none, qtail := tail, timer := none }
      hiddenDraws := hidden }

/-- R115: CONFIGURE of a configured id raises AlreadyConfigured. -/
def Obligations.ConfigureTwiceIsFatal : Prop :=
  ∀ (s : State) (oid : Oid), s.Inv → s.shut = false → s.configured oid.toNat = true →
    ∃ t, exec (.configure oid) s = .next t ∧ FatalEffect .alreadyConfigured s t

/-- R113: AllocExhausted is raised by ENQUEUE when FREE is empty, in either engine state, and by
CONFIGURE when `i >= N_INST`. -/
def Obligations.ExhaustionIsFatal : Prop :=
  (∀ (s : State) (oid : Oid) (interval : Word) (count delta : Half), s.Inv → s.shut = false →
    s.configured oid.toNat = true → count ≠ 0 → s.freeNodes = [] →
    ∃ t, exec (.enqueue oid interval count delta) s = .next t ∧
      FatalEffect .allocExhausted s t) ∧
  (∀ (s : State) (oid : Oid), s.Inv → s.shut = false → s.nInst ≤ oid.toNat →
    ∃ t, exec (.configure oid) s = .next t ∧ FatalEffect .allocExhausted s t)

/-- R110, R121: ENQUEUE with count 0 raises InvalidArgument, even when FREE is empty too, and writes
nothing of its own. -/
def Obligations.ZeroCountIsFatal : Prop :=
  ∀ (s : State) (oid : Oid) (interval : Word) (delta : Half), s.Inv → s.shut = false →
    s.configured oid.toNat = true →
    ∃ t, exec (.enqueue oid interval 0 delta) s = .next t ∧ FatalEffect .invalidArgument s t

/-- R88, R89, R98: ENQUEUE on an Idle instance loads the segment at once, from the present WAKE, in the
direction of the latch, and arms the timer; the queue stays empty and FREE is as before. -/
def Obligations.EnqueueOnIdle : Prop :=
  ∀ (s : State) (oid : Oid) (interval : Word) (count delta : Half), s.Inv → s.shut = false →
    s.configured oid.toNat = true → (s.reg oid.toNat).active = false → count ≠ 0 →
    s.freeNodes ≠ [] →
    ∃ t tail n, exec (.enqueue oid interval count delta) s = .next t ∧
      s.allocNode (Config.nodeChoice s.hiddenDraws) = some n ∧
      t.reg oid.toNat = { s.reg oid.toNat with
        wake := (s.reg oid.toNat).wake + interval
        ivl := interval + delta.signExtend 32
        dlt := delta
        cnt := count
        cdir := (s.reg oid.toNat).ndir
        qhead := none
        qtail := tail
        timer := some ((s.reg oid.toNat).wake + interval) } ∧
      t.outputs = s.outputs ++ [.arm oid.toNat ((s.reg oid.toNat).wake + interval)] ∧
      SameGlobalState s t ∧ (∀ j, j ≠ oid.toNat → t.reg j = s.reg j) ∧
      (∀ m, t.isFree m = s.isFree m) ∧ (∀ m, m ≠ n → t.pool[m]? = s.pool[m]?)

/-- R80, R82, R98: ENQUEUE on an Active instance only appends: the node that Alloc takes leaves FREE and
holds the segment, with the latch's direction, at the tail of the queue; no other register of the
instance, no other instance, and no other node but the old tail's link changes, and nothing is
emitted. -/
def Obligations.EnqueueOnActive : Prop :=
  ∀ (s : State) (oid : Oid) (interval : Word) (count delta : Half), s.Inv → s.shut = false →
    s.configured oid.toNat = true → (s.reg oid.toNat).active = true → count ≠ 0 →
    s.freeNodes ≠ [] →
    ∃ t n, exec (.enqueue oid interval count delta) s = .next t ∧
      s.allocNode (Config.nodeChoice s.hiddenDraws) = some n ∧
      t.reg oid.toNat = { s.reg oid.toNat with
        qhead := if (s.reg oid.toNat).qhead = none then some n else (s.reg oid.toNat).qhead
        qtail := some n } ∧
      t.chain oid.toNat = s.chain oid.toNat ++ [n] ∧
      t.queue oid.toNat = s.queue oid.toNat ++
        [⟨interval, delta, count, (s.reg oid.toNat).ndir⟩] ∧
      t.outputs = s.outputs ∧ SameGlobalState s t ∧
      (∀ j, j ≠ oid.toNat → t.reg j = s.reg j) ∧
      (∀ m, t.isFree m = (s.isFree m && m != n)) ∧
      (∀ m, m ≠ n → (s.chain oid.toNat).getLast? ≠ some m → t.pool[m]? = s.pool[m]?) ∧
      (∀ m, (s.chain oid.toNat).getLast? = some m →
        t.nodeAt m = { s.nodeAt m with next := some n })

/-- R99: SET_NEXT_DIR writes `NDIR[i]` and nothing else. -/
def Obligations.SetNextDirWritesLatch : Prop :=
  ∀ (s : State) (oid : Oid) (dir : Bit), s.shut = false → s.configured oid.toNat = true →
    exec (.setNextDir oid dir) s = .next { s with
      steppers := s.steppers.set oid.toNat { s.reg oid.toNat with ndir := dir } }

/-- R100: RESET_CLOCK on an Idle instance writes `WAKE[i]` and nothing else. -/
def Obligations.ResetClockRebasesIdle : Prop :=
  ∀ (s : State) (oid : Oid) (time : Word), s.shut = false → s.configured oid.toNat = true →
    (s.reg oid.toNat).active = false →
    exec (.resetClock oid time) s = .next { s with
      steppers := s.steppers.set oid.toNat { s.reg oid.toNat with wake := time } }

/-- R111: RESET_CLOCK on an Active instance raises InvalidState; WAKE is not rebased. -/
def Obligations.ResetClockOnActiveIsFatal : Prop :=
  ∀ (s : State) (oid : Oid) (time : Word), s.Inv → s.shut = false →
    s.configured oid.toNat = true → (s.reg oid.toNat).active = true →
    ∃ t, exec (.resetClock oid time) s = .next t ∧ FatalEffect .invalidState s t

/-- R76, R101: GET_POSITION emits one report word of the instance's id and position and changes no
state. -/
def Obligations.GetPositionReports : Prop :=
  ∀ (s : State) (oid : Oid), s.shut = false → s.configured oid.toNat = true →
    exec (.getPosition oid) s = .next { s with
      outputs := s.outputs ++ [.report ((s.reg oid.toNat).pos ++ 0x0000#16 ++ oid ++ 0x81#8)] }

/-- R102: SET_POSITION writes `POS[i]` and nothing else, in either engine state. -/
def Obligations.SetPositionWritesPos : Prop :=
  ∀ (s : State) (oid : Oid) (value : Word), s.shut = false → s.configured oid.toNat = true →
    exec (.setPosition oid value) s = .next { s with
      steppers := s.steppers.set oid.toNat { s.reg oid.toNat with pos := value } }

/-- R90, R103: STOP cancels the timer if it is armed, zeroes WAKE, CNT, CDIR and NDIR, keeps POS, IVL and
DLT, and puts every queued node into FREE; nothing else changes. -/
def Obligations.StopStopsInstance : Prop :=
  ∀ (s : State) (oid : Oid), s.Inv → s.shut = false → s.configured oid.toNat = true →
    ∃ t tail, exec (.stop oid) s = .next t ∧
      t.reg oid.toNat = { s.reg oid.toNat with
        wake := 0, cnt := 0, cdir := 0, ndir := 0, qhead := none, qtail := tail, timer := none } ∧
      t.outputs = s.outputs ++
        (if (s.reg oid.toNat).active = true then [.cancel oid.toNat] else []) ∧
      SameGlobalState s t ∧ (∀ j, j ≠ oid.toNat → t.reg j = s.reg j) ∧
      (∀ m, t.isFree m = true ↔ s.isFree m = true ∨ m ∈ s.chain oid.toNat) ∧
      (∀ m, m ∉ s.chain oid.toNat → t.pool[m]? = s.pool[m]?)

/-- R48, R90, R103: STOP twice is the same as STOP once. -/
def Obligations.StopIsIdempotent : Prop :=
  ∀ (s t : State) (oid : Oid), s.Inv → exec (.stop oid) s = .next t → exec (.stop oid) t = .next t

/-- R104, R116, R118, R120: SHUTDOWN_ALL is fatal entry with ExternalShutdown. -/
def Obligations.ShutdownAllHalts : Prop :=
  ∀ s : State, s.Inv → s.shut = false →
    ∃ t, exec .shutdownAll s = .next t ∧ FatalEffect .externalShutdown s t

/-- R112: every command but CONFIGURE and SHUTDOWN_ALL that names an id out of range or not configured
raises TypeMismatch. -/
def Obligations.UnconfiguredIdIsFatal : Prop :=
  ∀ (s : State) (i : Instr) (oid : Oid), s.Inv → s.shut = false → lookedUpId i = some oid →
    (s.nInst ≤ oid.toNat ∨ (s.reg oid.toNat).cfg = false) →
    ∃ t, exec i s = .next t ∧ FatalEffect .typeMismatch s t

/-! ## The step event -/

/-- R86 with steps remaining: POS moves by the current direction, WAKE advances by the old IVL, IVL by
DLT, the timer is rearmed at the new WAKE, and nothing else changes. -/
def Obligations.FireRearms : Prop :=
  ∀ (s : State) (i : Nat) (es : List Event), s.inputs = .fire i :: es → s.armed i = true →
    (s.reg i).cnt ≠ 1 →
    step s = .next { s with
      inputs := es
      steppers := s.steppers.set i { s.reg i with
        pos := (s.reg i).pos + (if (s.reg i).cdir = s.fwdBit then 1 else 0xFFFFFFFF)
        cnt := (s.reg i).cnt - 1
        wake := (s.reg i).wake + (s.reg i).ivl
        ivl := (s.reg i).ivl + (s.reg i).dlt.signExtend 32
        timer := some ((s.reg i).wake + (s.reg i).ivl) }
      outputs := s.outputs ++ [.arm i ((s.reg i).wake + (s.reg i).ivl)] }

/-- R86, R87: the last step of the last segment: POS moves, the instance goes Idle, nothing is armed,
and WAKE, IVL, DLT and CDIR keep their values. -/
def Obligations.FireGoesIdle : Prop :=
  ∀ (s : State) (i : Nat) (es : List Event), s.inputs = .fire i :: es → s.armed i = true →
    (s.reg i).cnt = 1 → (s.reg i).qhead = none →
    step s = .next { s with
      inputs := es
      steppers := s.steppers.set i { s.reg i with
        pos := (s.reg i).pos + (if (s.reg i).cdir = s.fwdBit then 1 else 0xFFFFFFFF)
        cnt := 0
        timer := none } }

/-- R86, R88: the last step of a segment with another queued: POS moves in the old direction, the head
segment is loaded relative to the present WAKE, its node is freed, and the timer is armed. -/
def Obligations.FireLoadsNext : Prop :=
  ∀ (s : State) (i : Nat) (es : List Event) (g : Segment) (gs : List Segment), s.Inv →
    s.inputs = .fire i :: es → s.armed i = true → (s.reg i).cnt = 1 → s.queue i = g :: gs →
    ∃ t n ns tail, step s = .next t ∧ s.chain i = n :: ns ∧ t.chain i = ns ∧ t.queue i = gs ∧
      t.reg i = { s.reg i with
        pos := (s.reg i).pos + (if (s.reg i).cdir = s.fwdBit then 1 else 0xFFFFFFFF)
        wake := (s.reg i).wake + g.interval
        ivl := g.interval + g.delta.signExtend 32
        dlt := g.delta
        cnt := g.count
        cdir := g.dir
        qhead := ns.head?
        qtail := tail
        timer := some ((s.reg i).wake + g.interval) } ∧
      t.outputs = s.outputs ++ [.arm i ((s.reg i).wake + g.interval)] ∧
      SameGlobalState { s with inputs := es } t ∧ (∀ j, j ≠ i → t.reg j = s.reg j) ∧
      (∀ m, t.isFree m = (s.isFree m || m == n)) ∧ (∀ m, m ≠ n → t.pool[m]? = s.pool[m]?)

/-- R86, with 93_implementation_defined.md section 4: a FIRE for an instance that is not armed has no
transition. The model refuses it by name (entry 12). -/
def Obligations.UnarmedFireRefused : Prop :=
  ∀ (s : State) (i : Nat) (es : List Event), s.inputs = .fire i :: es → s.armed i = false →
    step s = .refused (.fireNotArmed i)

/-! ## Laws over runs -/

/-- R91 for a segment `(I, Δ, C)` that ENQUEUE loads on an Idle instance at base `B`, in a run of its
FIREs alone: its k-th step has `t_k = B + k·I + Δ·k(k-1)/2 (mod 2^32)`: after `k-1` FIREs WAKE is `t_k`
and the timer is armed there, and after all `C` of them the instance is Idle with WAKE at `t_C`, the
base of the next segment. `TimingLawOverRuns` says the rest. -/
def Obligations.TimingLaw : Prop :=
  ∀ (s t : State) (oid : Oid) (interval : Word) (count delta : Half), s.Inv → s.shut = false →
    s.configured oid.toNat = true → (s.reg oid.toNat).active = false → count ≠ 0 →
    s.freeNodes ≠ [] → exec (.enqueue oid interval count delta) s = .next t →
    (∀ k : Nat, 1 ≤ k → k ≤ count.toNat →
      ∃ u, runEvents (fires (k - 1) oid.toNat) t = .next u ∧
        (u.reg oid.toNat).wake = (s.reg oid.toNat).wake + BitVec.ofNat 32 k * interval +
          delta.signExtend 32 * BitVec.ofNat 32 (k * (k - 1) / 2) ∧
        (u.reg oid.toNat).timer = some (u.reg oid.toNat).wake) ∧
    (∃ u, runEvents (fires count.toNat oid.toNat) t = .next u ∧
      (u.reg oid.toNat).active = false ∧
      (u.reg oid.toNat).wake =
        (s.reg oid.toNat).wake + BitVec.ofNat 32 count.toNat * interval +
          delta.signExtend 32 * BitVec.ofNat 32 (count.toNat * (count.toNat - 1) / 2))

/-- R91 for a segment loaded either way, by ENQUEUE on an Idle instance or by the FIRE that ends the
segment before it, at base `B = WAKE`, among any other events: after the load and any events with `k-1`
FIREs of the instance, `k <= C`, no STOP of it, no block reset and no fatal condition, WAKE is
`B + k·I + Δ·k(k-1)/2 (mod 2^32)`, the timer is armed there, and `C - (k-1)` steps of the segment are
left, in its own direction. -/
def Obligations.TimingLawOverRuns : Prop :=
  ∀ (s t : State) (e : Event) (es : List Event) (i : Nat) (g : Segment) (k : Nat), s.Inv →
    s.shut = false → LoadsSegment s e i g → (∀ f ∈ es, ¬ StopsOrResets i f) →
    es.count (.fire i) + 1 = k → k ≤ g.count.toNat → runEvents (e :: es) s = .next t →
    t.shut = false →
    (t.reg i).wake = (s.reg i).wake + BitVec.ofNat 32 k * g.interval +
      g.delta.signExtend 32 * BitVec.ofNat 32 (k * (k - 1) / 2) ∧
    (t.reg i).timer = some (t.reg i).wake ∧ (t.reg i).cnt.toNat + (k - 1) = g.count.toNat ∧
    (t.reg i).cdir = g.dir

/-- R93, R94: an instance that owes `N` steps stays Active through every earlier FIRE and is Idle with an
empty queue after exactly `N`, its position moved in all by the sum over its segments of count times
own direction. -/
def Obligations.StepsAreConserved : Prop :=
  ∀ (s : State) (i : Nat), s.Inv → s.shut = false → s.configured i = true →
    (∀ k, k < s.remainingSteps i →
      ∃ u, runEvents (fires k i) s = .next u ∧ (u.reg i).active = true ∧
        u.remainingSteps i = s.remainingSteps i - k) ∧
    (∃ u, runEvents (fires (s.remainingSteps i) i) s = .next u ∧ (u.reg i).active = false ∧
      (u.reg i).qhead = none ∧ (u.reg i).pos = (s.reg i).pos + s.remainingTravel i)

/-- R92: in one step POS changes by FIRE, by exactly one in the current direction, by SET_POSITION, by
CONFIGURE or by block reset, each of its own instance, and by nothing else. -/
def Obligations.PositionLaw : Prop :=
  ∀ (s t : State) (e : Event) (es : List Event) (i : Nat), s.Inv → s.inputs = e :: es →
    step s = .next t →
    (e = .fire i → (t.reg i).pos =
      (s.reg i).pos + (if (s.reg i).cdir = s.fwdBit then 1 else 0xFFFFFFFF)) ∧
    ((t.reg i).pos ≠ (s.reg i).pos → e = .fire i ∨ e = .blockReset ∨
      ∃ w oid, e = .command w ∧ oid.toNat = i ∧
        (decode w = .ok (.configure oid) ∨ decode w = .ok (.setPosition oid (t.reg i).pos)))

/-- R52, R56, R82, R83, R84: in one step, short of block reset, the queue of a configured instance is
kept, gains one segment at its tail (by an ENQUEUE of that instance), loses its head (by its FIRE), or
is emptied (by its STOP or by a fatal condition). A queued segment is never changed or reordered. -/
def Obligations.QueuesAreFifo : Prop :=
  ∀ (s t : State) (e : Event) (es : List Event) (i : Nat), s.Inv → s.inputs = e :: es →
    step s = .next t → e ≠ .blockReset → s.configured i = true →
    t.queue i = s.queue i ∨
    (∃ w oid interval count delta, e = .command w ∧ oid.toNat = i ∧
      decode w = .ok (.enqueue oid interval count delta) ∧
      t.queue i = s.queue i ++ [⟨interval, delta, count, (s.reg i).ndir⟩]) ∨
    (e = .fire i ∧ ∃ g, s.queue i = g :: t.queue i) ∨
    (t.queue i = [] ∧ ((∃ w oid, e = .command w ∧ oid.toNat = i ∧ decode w = .ok (.stop oid)) ∨
      (s.shut = false ∧ t.shut = true)))

/-- R85: an instance becomes Active only by an ENQUEUE on it while Idle, and Idle only by its FIRE on
the last step with the queue empty, by its STOP, or by a fatal condition. -/
def Obligations.EngineTransitions : Prop :=
  ∀ (s t : State) (e : Event) (es : List Event) (i : Nat), s.Inv → s.inputs = e :: es →
    step s = .next t → e ≠ .blockReset → s.configured i = true →
    ((s.reg i).active = false → (t.reg i).active = true →
      ∃ w oid interval count delta, e = .command w ∧ oid.toNat = i ∧ count ≠ 0 ∧
        decode w = .ok (.enqueue oid interval count delta)) ∧
    ((s.reg i).active = true → (t.reg i).active = false →
      (e = .fire i ∧ (s.reg i).cnt = 1 ∧ s.queue i = []) ∨
      (∃ w oid, e = .command w ∧ oid.toNat = i ∧ decode w = .ok (.stop oid)) ∨
      (s.shut = false ∧ t.shut = true))

/-- R16, R76, R106, R125: in one step, short of block reset, outputs are only appended. A report comes
from a GET_POSITION, one word of the position it reads; an ARM names the new wake time and comes only
when the instance's wake time was consumed by that FIRE or none was armed; a CANCEL comes only for an
armed instance. -/
def Obligations.OutputsAreAppended : Prop :=
  ∀ (s t : State) (e : Event) (es : List Event), s.Inv → s.inputs = e :: es →
    step s = .next t → e ≠ .blockReset →
    ∃ new, t.outputs = s.outputs ++ new ∧
      (∀ r, .report r ∈ new → new = [.report r] ∧ ∃ w oid, e = .command w ∧
        decode w = .ok (.getPosition oid) ∧ r = reportWord oid (s.reg oid.toNat).pos) ∧
      (∀ i w, .arm i w ∈ new → w = (t.reg i).wake ∧ (t.reg i).timer = some w ∧
        ((s.reg i).timer = none ∨ e = .fire i)) ∧
      (∀ i, .cancel i ∈ new → (s.reg i).timer ≠ none ∧ (t.reg i).timer = none)

/-- R7, R33: no step changes a parameter, and nothing but block reset clears a CFG bit, which CONFIGURE
of that id sets. -/
def Obligations.ConfigurationPersists : Prop :=
  ∀ (s t : State) (e : Event) (es : List Event) (i : Nat), s.Inv → s.inputs = e :: es →
    step s = .next t →
    t.params = s.params ∧
    (s.configured i = true → e ≠ .blockReset → t.configured i = true) ∧
    (s.configured i = false → t.configured i = true →
      ∃ w oid, e = .command w ∧ oid.toNat = i ∧ decode w = .ok (.configure oid))

/-- R108: a command on one instance that is not fatal writes only that instance's registers, its queue
and FREE: every other instance keeps its registers and its queue, and the latch, the error code, the
parameters, the events to come and the count of block resets are as before. -/
def Obligations.InstancesAreIndependent : Prop :=
  ∀ (s t : State) (c : Instr) (oid : Oid), s.Inv → exec c s = .next t → namedId c = some oid →
    t.shut = false →
    SameGlobalState s t ∧ ∀ j, j ≠ oid.toNat → t.reg j = s.reg j ∧ t.viewOf j = s.viewOf j

/-- R108: a command on one instance reads only that instance's registers, its queue and FREE: on two
running blocks with as many slots, in which the instance is the same, FREE is empty in both or in
neither, and the draws of P0 are the same (entry 4), it is fatal on both or on neither, and if not, it
leaves the instance the same and emits the same outputs. -/
def Obligations.CommandsReadOwnInstance : Prop :=
  ∀ (s s' t t' : State) (c : Instr) (oid : Oid), s.Inv → s'.Inv → s.shut = false →
    s'.shut = false → s.nInst = s'.nInst → s.resets = s'.resets →
    s.viewOf oid.toNat = s'.viewOf oid.toNat → (s.freeNodes = [] ↔ s'.freeNodes = []) →
    namedId c = some oid → exec c s = .next t → exec c s' = .next t' →
    t.shut = t'.shut ∧ (t.shut = false → t.viewOf oid.toNat = t'.viewOf oid.toNat ∧
      ∃ new, t.outputs = s.outputs ++ new ∧ t'.outputs = s'.outputs ++ new)

/-- R53, R126: the FIREs of two different instances give the same registers, queues and free count in
either order, and the same outputs up to their order. -/
def Obligations.FiresCommuteAcrossInstances : Prop :=
  ∀ (s : State) (i j : Nat), s.Inv → i ≠ j → s.armed i = true → s.armed j = true →
    ∃ t u, runEvents [.fire i, .fire j] s = .next t ∧ runEvents [.fire j, .fire i] s = .next u ∧
      (∀ k, t.viewOf k = u.viewOf k) ∧ t.freeNodes.length = u.freeNodes.length ∧
      t.outputs.Perm u.outputs ∧ SameGlobalState t u

/-- R108: two commands that name different instances, two CONFIGUREs among them, neither of them fatal
in either order, give the same registers, queues and free count in either order, and the same outputs
up to their order. -/
def Obligations.CommandsCommuteAcrossInstances : Prop :=
  ∀ (s t u : State) (w w' : CommandWord) (c c' : Instr) (oid oid' : Oid), s.Inv →
    s.shut = false → decode w = .ok c → decode w' = .ok c' → namedId c = some oid →
    namedId c' = some oid' → oid ≠ oid' →
    runEvents [.command w, .command w'] s = .next t →
    runEvents [.command w', .command w] s = .next u → t.shut = false → u.shut = false →
    (∀ k, t.viewOf k = u.viewOf k) ∧ t.freeNodes.length = u.freeNodes.length ∧
      t.outputs.Perm u.outputs ∧ SameGlobalState t u

/-- R107: the last FIRE of an Active instance and an ENQUEUE that races it give the same abstract state
and the same ARM in either order. -/
def Obligations.HandOffRace : Prop :=
  ∀ (s : State) (oid : Oid) (w : CommandWord) (interval : Word) (count delta : Half), s.Inv →
    s.armed oid.toNat = true → (s.reg oid.toNat).cnt = 1 → (s.reg oid.toNat).qhead = none →
    s.freeNodes ≠ [] → count ≠ 0 → decode w = .ok (.enqueue oid interval count delta) →
    ∃ t u, runEvents [.command w, .fire oid.toNat] s = .next t ∧
      runEvents [.fire oid.toNat, .command w] s = .next u ∧ t.view = u.view ∧
      t.outputs = s.outputs ++ [.arm oid.toNat ((s.reg oid.toNat).wake + interval)]

/-! ## Invariants -/

/-- R30 to R35, R45: the invariant holds after reset. -/
def Obligations.ResetKeepsInvariant : Prop :=
  State.reset.Inv ∧ ∀ p : Params, p.wellFormed = true → (State.resetWith p).Inv

/-- R30 to R35, R45: every step keeps the invariant, from every state that has it. -/
def Obligations.StepKeepsInvariant : Prop :=
  ∀ s t : State, s.Inv → step s = .next t → t.Inv

/-- R45, R81, R117: from a state with the invariant no step ends in a fault. -/
def Obligations.InvariantExcludesFaults : Prop :=
  ∀ (s : State) (f : Fault), s.Inv → step s ≠ .fault f

/-- R74, R86: the only event that is refused is a FIRE for an instance that is not armed. No command is
ever refused. -/
def Obligations.OnlyUnarmedFireRefused : Prop :=
  (∀ (s : State) (r : Refusal), step s = .refused r →
    ∃ i es, s.inputs = .fire i :: es ∧ s.armed i = false ∧ r = .fireNotArmed i) ∧
  (∀ (c : Instr) (s : State) (r : Refusal), exec c s ≠ .refused r)

/-- R45, R60: all queues together and FREE hold exactly POOL_NODES nodes. -/
def Obligations.NodesAreConserved : Prop :=
  ∀ s : State, s.Inv →
    (s.configuredIds.map fun i => (s.queue i).length).sum + s.freeNodes.length = s.poolNodes

/-- R44, R79, R80: no draw of a node, no unspecified tail and no content of a freed node can be
observed: two states with the invariant and the same abstract view answer every next event with the
same abstract view. -/
def Obligations.HiddenDrawsUnobservable : Prop :=
  ∀ s s' : State, s.Inv → s'.Inv → s.view = s'.view → SameView (step s) (step s')
end

