-- ==== Sys2Proof/Laws/Decode.lean ====
section
/-! SUPPORT. The fields of a command word, and which words select each row of the opcode map. -/

namespace Sys2Proof

/-! ## A word is its seven fields -/

/-- A word with every field given, RSV among them. -/
def packAll (dlt cnt : Half) (a32 : Word) (rsv : BitVec 15) (dir : Bit) (oid : Oid)
    (op : BitVec 8) : CommandWord := dlt ++ cnt ++ a32 ++ rsv ++ dir ++ oid ++ op

theorem packAll_fields (w : CommandWord) :
    packAll (dltField w) (cntField w) (a32Field w) (rsvField w) (dirField w) (oidField w)
      (opField w) = w := by
  unfold packAll dltField cntField a32Field rsvField dirField oidField opField
  rw [BitVec.extractLsb'_append_extractLsb'_eq_extractLsb' (start₂ := 80) (start₁ := 64) rfl,
    BitVec.extractLsb'_append_extractLsb'_eq_extractLsb' (start₂ := 64) (start₁ := 32) rfl,
    BitVec.extractLsb'_append_extractLsb'_eq_extractLsb' (start₂ := 32) (start₁ := 17) rfl,
    BitVec.extractLsb'_append_extractLsb'_eq_extractLsb' (start₂ := 17) (start₁ := 16) rfl,
    BitVec.extractLsb'_append_extractLsb'_eq_extractLsb' (start₂ := 16) (start₁ := 8) rfl,
    BitVec.extractLsb'_append_extractLsb'_eq_extractLsb' (start₂ := 8) (start₁ := 0) rfl]
  exact BitVec.extractLsb'_eq_self

theorem word_ext {w v : CommandWord} (h1 : opField w = opField v) (h2 : oidField w = oidField v)
    (h3 : dirField w = dirField v) (h4 : rsvField w = rsvField v) (h5 : a32Field w = a32Field v)
    (h6 : cntField w = cntField v) (h7 : dltField w = dltField v) : w = v := by
  rw [← packAll_fields w, ← packAll_fields v, h1, h2, h3, h4, h5, h6, h7]

theorem word_ext_iff {w v : CommandWord} : w = v ↔
    opField w = opField v ∧ oidField w = oidField v ∧ dirField w = dirField v ∧
      rsvField w = rsvField v ∧ a32Field w = a32Field v ∧ cntField w = cntField v ∧
      dltField w = dltField v :=
  ⟨fun h => by simp [h], fun ⟨h1, h2, h3, h4, h5, h6, h7⟩ => word_ext h1 h2 h3 h4 h5 h6 h7⟩

section
variable (dlt cnt : Half) (a32 : Word) (dir : Bit) (oid : Oid) (op : BitVec 8)

@[simp] theorem opField_packFields : opField (packFields dlt cnt a32 dir oid op) = op := by
  simp only [opField, packFields]
  rw [BitVec.extractLsb'_append_eq_right]

@[simp] theorem oidField_packFields : oidField (packFields dlt cnt a32 dir oid op) = oid := by
  simp only [oidField, packFields]
  rw [BitVec.extractLsb'_append_eq_of_le (by omega), BitVec.extractLsb'_append_eq_right]

@[simp] theorem dirField_packFields : dirField (packFields dlt cnt a32 dir oid op) = dir := by
  simp only [dirField, packFields]
  rw [BitVec.extractLsb'_append_eq_of_le (by omega), BitVec.extractLsb'_append_eq_of_le (by omega),
    BitVec.extractLsb'_append_eq_right]

@[simp] theorem rsvField_packFields : rsvField (packFields dlt cnt a32 dir oid op) = 0 := by
  simp only [rsvField, packFields]
  rw [BitVec.extractLsb'_append_eq_of_le (by omega), BitVec.extractLsb'_append_eq_of_le (by omega),
    BitVec.extractLsb'_append_eq_of_le (by omega), BitVec.extractLsb'_append_eq_right]
  rfl

@[simp] theorem a32Field_packFields : a32Field (packFields dlt cnt a32 dir oid op) = a32 := by
  simp only [a32Field, packFields]
  rw [BitVec.extractLsb'_append_eq_of_le (by omega), BitVec.extractLsb'_append_eq_of_le (by omega),
    BitVec.extractLsb'_append_eq_of_le (by omega), BitVec.extractLsb'_append_eq_of_le (by omega),
    BitVec.extractLsb'_append_eq_right]

@[simp] theorem cntField_packFields : cntField (packFields dlt cnt a32 dir oid op) = cnt := by
  simp only [cntField, packFields]
  rw [BitVec.extractLsb'_append_eq_of_le (by omega), BitVec.extractLsb'_append_eq_of_le (by omega),
    BitVec.extractLsb'_append_eq_of_le (by omega), BitVec.extractLsb'_append_eq_of_le (by omega),
    BitVec.extractLsb'_append_eq_of_le (by omega), BitVec.extractLsb'_append_eq_right]

@[simp] theorem dltField_packFields : dltField (packFields dlt cnt a32 dir oid op) = dlt := by
  simp only [dltField, packFields]
  rw [BitVec.extractLsb'_append_eq_of_le (by omega), BitVec.extractLsb'_append_eq_of_le (by omega),
    BitVec.extractLsb'_append_eq_of_le (by omega), BitVec.extractLsb'_append_eq_of_le (by omega),
    BitVec.extractLsb'_append_eq_of_le (by omega), BitVec.extractLsb'_append_eq_left]

end

/-! ## Which words select a row (30_encoding.md R69, R70) -/

/-- A word selects a row field by field. -/
theorem rowSelects_iff (r : OpcodeRow) (w : CommandWord) : rowSelects r w = true ↔
    opField w &&& opField r.mask = opField r.pattern ∧
    oidField w &&& oidField r.mask = oidField r.pattern ∧
    dirField w &&& dirField r.mask = dirField r.pattern ∧
    rsvField w &&& rsvField r.mask = rsvField r.pattern ∧
    a32Field w &&& a32Field r.mask = a32Field r.pattern ∧
    cntField w &&& cntField r.mask = cntField r.pattern ∧
    dltField w &&& dltField r.mask = dltField r.pattern := by
  rw [rowSelects, beq_iff_eq, word_ext_iff]
  simp only [opField, oidField, dirField, rsvField, a32Field, cntField, dltField,
    BitVec.extractLsb'_and]

/-- The OP value of a mnemonic (30_encoding.md R70). -/
def opcodeOf : Mnemonic → BitVec 8
  | .configure => 0x01 | .enqueue => 0x02 | .setNextDir => 0x03 | .resetClock => 0x04
  | .getPosition => 0x05 | .setPosition => 0x06 | .stop => 0x07 | .shutdownAll => 0x08

/-- Whether a format uses a field (30_encoding.md R69). -/
def usesOid (f : Format) : Bool := f != .global
@[inherit_doc usesOid] def usesDir (f : Format) : Bool := f == .idDir
@[inherit_doc usesOid] def usesA32 (f : Format) : Bool := f == .idValue || f == .queueStep
@[inherit_doc usesOid] def usesCount (f : Format) : Bool := f == .queueStep
@[inherit_doc usesOid] def usesDelta (f : Format) : Bool := f == .queueStep

/-- The fields that a format leaves unused are zero (30_encoding.md R69). -/
def unusedFieldsZero (f : Format) (w : CommandWord) : Prop :=
  (usesOid f = false → oidField w = 0#8) ∧ (usesDir f = false → dirField w = 0#1) ∧
    (usesA32 f = false → a32Field w = 0#32) ∧ (usesCount f = false → cntField w = 0#16) ∧
    (usesDelta f = false → dltField w = 0#16)

/-- The mask of a field that is compared unless it is used. -/
def fieldMask (n : Nat) (used : Bool) : BitVec n := if used then 0#n else BitVec.allOnes n

theorem and_fieldMask {n : Nat} (x : BitVec n) (used : Bool) :
    x &&& fieldMask n used = 0#n ↔ (used = false → x = 0#n) := by
  cases used <;> simp [fieldMask]

/-- Every row of the map compares all of OP and RSV and the fields its format does not use, and
asks for its OP and zeros. -/
theorem rows_shape : ∀ r ∈ opcodeRows,
    opField r.mask = BitVec.allOnes 8 ∧ opField r.pattern = opcodeOf r.mnemonic ∧
    rsvField r.mask = BitVec.allOnes 15 ∧ rsvField r.pattern = 0#15 ∧
    oidField r.mask = fieldMask 8 (usesOid r.format) ∧ oidField r.pattern = 0#8 ∧
    dirField r.mask = fieldMask 1 (usesDir r.format) ∧ dirField r.pattern = 0#1 ∧
    a32Field r.mask = fieldMask 32 (usesA32 r.format) ∧ a32Field r.pattern = 0#32 ∧
    cntField r.mask = fieldMask 16 (usesCount r.format) ∧ cntField r.pattern = 0#16 ∧
    dltField r.mask = fieldMask 16 (usesDelta r.format) ∧ dltField r.pattern = 0#16 := by
  decide

/-- A word selects a row of the map exactly when its OP is the row's, RSV is zero and the fields the
row's format does not use are zero. -/
theorem row_selects_iff {r : OpcodeRow} (hr : r ∈ opcodeRows) (w : CommandWord) :
    rowSelects r w = true ↔
      opField w = opcodeOf r.mnemonic ∧ rsvField w = 0#15 ∧ unusedFieldsZero r.format w := by
  obtain ⟨h1, h2, h3, h4, h5, h6, h7, h8, h9, h10, h11, h12, h13, h14⟩ := rows_shape r hr
  rw [rowSelects_iff, h1, h2, h3, h4, h5, h6, h7, h8, h9, h10, h11, h12, h13, h14,
    BitVec.and_allOnes, BitVec.and_allOnes, and_fieldMask, and_fieldMask, and_fieldMask,
    and_fieldMask, and_fieldMask, unusedFieldsZero]
  tauto

theorem opcodeOf_injective : ∀ {m m' : Mnemonic}, opcodeOf m = opcodeOf m' → m = m' := by
  intro m m'; cases m <;> cases m' <;> decide

/-- The row of a mnemonic (30_encoding.md R70). -/
def rowOf (m : Mnemonic) : OpcodeRow :=
  (opcodeRows.find? fun r => r.mnemonic == m).getD ⟨.configure, .idOnly, 0, 0⟩

theorem rowOf_mem (m : Mnemonic) : rowOf m ∈ opcodeRows ∧ (rowOf m).mnemonic = m := by
  cases m <;> decide

/-- A row of the map is the row of its mnemonic. -/
theorem rowOf_mnemonic : ∀ {r : OpcodeRow}, r ∈ opcodeRows → rowOf r.mnemonic = r := by
  have h : ∀ r ∈ opcodeRows, rowOf r.mnemonic = r := by decide
  exact fun {r} hr => h r hr

/-- A word that selects the row of a mnemonic decodes to that mnemonic with the word's operands. -/
theorem decode_of_selects {w : CommandWord} {m : Mnemonic} (h : rowSelects (rowOf m) w = true) :
    decode w = .ok (operandsOf w m) := by
  have hop := ((row_selects_iff (rowOf_mem m).1 w).mp h).1
  rw [(rowOf_mem m).2] at hop
  rcases hf : opcodeRows.find? (fun r => rowSelects r w) with _ | r
  · exact absurd h (by simpa using List.find?_eq_none.mp hf (rowOf m) (rowOf_mem m).1)
  · have hr := List.mem_of_find?_eq_some hf
    have hs := (row_selects_iff hr w).mp (List.find?_some (p := fun r => rowSelects r w) hf)
    have hm : r.mnemonic = m := opcodeOf_injective (hs.1.symm.trans hop)
    simp only [decode, hf, hm]

/-- A word decodes only by selecting the row of the mnemonic it decodes to. -/
theorem selects_of_decode {w : CommandWord} {i : Instr} (h : decode w = .ok i) :
    ∃ m, rowSelects (rowOf m) w = true ∧ i = operandsOf w m := by
  rcases hf : opcodeRows.find? (fun r => rowSelects r w) with _ | r
  · simp [decode, hf] at h
  · have hr := List.mem_of_find?_eq_some hf
    refine ⟨r.mnemonic, ?_, ?_⟩
    · rw [rowOf_mnemonic hr]; exact List.find?_some (p := fun r => rowSelects r w) hf
    · simp only [decode, hf] at h
      exact (Except.ok.inj h).symm

end Sys2Proof
end

