-- ==== Sys2Proof/Laws/State.lean ====
section
/-! SUPPORT. The small lemmas of the state's updates: one per field per update, so that no later proof
unfolds a record update. -/

namespace Sys2Proof.Machine

/-! ## withInputs -/

@[simp] theorem withInputs_inputs (s : State) (es) : (s.withInputs es).inputs = es := rfl
@[simp] theorem withInputs_reg (s : State) (es i) : (s.withInputs es).reg i = s.reg i := rfl
@[simp] theorem withInputs_pool (s : State) (es) : (s.withInputs es).pool = s.pool := rfl
@[simp] theorem withInputs_fwdBit (s : State) (es) : (s.withInputs es).fwdBit = s.fwdBit := rfl
@[simp] theorem withInputs_shut (s : State) (es) : (s.withInputs es).shut = s.shut := rfl
@[simp] theorem withInputs_err (s : State) (es) : (s.withInputs es).err = s.err := rfl
@[simp] theorem withInputs_outputs (s : State) (es) : (s.withInputs es).outputs = s.outputs := rfl
@[simp] theorem withInputs_resets (s : State) (es) : (s.withInputs es).resets = s.resets := rfl
@[simp] theorem withInputs_hiddenDraws (s : State) (es) :
    (s.withInputs es).hiddenDraws = s.hiddenDraws := rfl

/-! ## setReg -/

@[simp] theorem setReg_fwdBit (s : State) (i r) : (s.setReg i r).fwdBit = s.fwdBit := rfl
@[simp] theorem setReg_pool (s : State) (i r) : (s.setReg i r).pool = s.pool := rfl
@[simp] theorem setReg_shut (s : State) (i r) : (s.setReg i r).shut = s.shut := rfl
@[simp] theorem setReg_err (s : State) (i r) : (s.setReg i r).err = s.err := rfl
@[simp] theorem setReg_inputs (s : State) (i r) : (s.setReg i r).inputs = s.inputs := rfl
@[simp] theorem setReg_outputs (s : State) (i r) : (s.setReg i r).outputs = s.outputs := rfl
@[simp] theorem setReg_resets (s : State) (i r) : (s.setReg i r).resets = s.resets := rfl
@[simp] theorem setReg_hiddenDraws (s : State) (i r) : (s.setReg i r).hiddenDraws = s.hiddenDraws := rfl
@[simp] theorem setReg_steppers (s : State) (i r) :
    (s.setReg i r).steppers = s.steppers.set i r := rfl

/-! ## emit -/

@[simp] theorem emit_fwdBit (s : State) (o) : (s.emit o).fwdBit = s.fwdBit := rfl
@[simp] theorem emit_steppers (s : State) (o) : (s.emit o).steppers = s.steppers := rfl
@[simp] theorem emit_pool (s : State) (o) : (s.emit o).pool = s.pool := rfl
@[simp] theorem emit_shut (s : State) (o) : (s.emit o).shut = s.shut := rfl
@[simp] theorem emit_err (s : State) (o) : (s.emit o).err = s.err := rfl
@[simp] theorem emit_inputs (s : State) (o) : (s.emit o).inputs = s.inputs := rfl
@[simp] theorem emit_outputs (s : State) (o) : (s.emit o).outputs = s.outputs ++ [o] := rfl
@[simp] theorem emit_resets (s : State) (o) : (s.emit o).resets = s.resets := rfl
@[simp] theorem emit_hiddenDraws (s : State) (o) : (s.emit o).hiddenDraws = s.hiddenDraws := rfl
@[simp] theorem emit_reg (s : State) (o i) : (s.emit o).reg i = s.reg i := rfl

/-! ## takeNode -/

@[simp] theorem takeNode_fwdBit (s : State) (n) : (s.takeNode n).fwdBit = s.fwdBit := rfl
@[simp] theorem takeNode_steppers (s : State) (n) : (s.takeNode n).steppers = s.steppers := rfl
@[simp] theorem takeNode_shut (s : State) (n) : (s.takeNode n).shut = s.shut := rfl
@[simp] theorem takeNode_err (s : State) (n) : (s.takeNode n).err = s.err := rfl
@[simp] theorem takeNode_inputs (s : State) (n) : (s.takeNode n).inputs = s.inputs := rfl
@[simp] theorem takeNode_outputs (s : State) (n) : (s.takeNode n).outputs = s.outputs := rfl
@[simp] theorem takeNode_resets (s : State) (n) : (s.takeNode n).resets = s.resets := rfl
@[simp] theorem takeNode_reg (s : State) (n i) : (s.takeNode n).reg i = s.reg i := rfl

/-! ## putFree -/

@[simp] theorem putFree_fwdBit (s : State) (n) : (s.putFree n).fwdBit = s.fwdBit := rfl
@[simp] theorem putFree_steppers (s : State) (n) : (s.putFree n).steppers = s.steppers := rfl
@[simp] theorem putFree_shut (s : State) (n) : (s.putFree n).shut = s.shut := rfl
@[simp] theorem putFree_err (s : State) (n) : (s.putFree n).err = s.err := rfl
@[simp] theorem putFree_inputs (s : State) (n) : (s.putFree n).inputs = s.inputs := rfl
@[simp] theorem putFree_outputs (s : State) (n) : (s.putFree n).outputs = s.outputs := rfl
@[simp] theorem putFree_resets (s : State) (n) : (s.putFree n).resets = s.resets := rfl
@[simp] theorem putFree_reg (s : State) (n i) : (s.putFree n).reg i = s.reg i := rfl

/-! ## forgetTail -/

@[simp] theorem forgetTail_fwdBit (i) (s : State) : (forgetTail i s).fwdBit = s.fwdBit := rfl
@[simp] theorem forgetTail_pool (i) (s : State) : (forgetTail i s).pool = s.pool := rfl
@[simp] theorem forgetTail_shut (i) (s : State) : (forgetTail i s).shut = s.shut := rfl
@[simp] theorem forgetTail_err (i) (s : State) : (forgetTail i s).err = s.err := rfl
@[simp] theorem forgetTail_inputs (i) (s : State) : (forgetTail i s).inputs = s.inputs := rfl
@[simp] theorem forgetTail_outputs (i) (s : State) : (forgetTail i s).outputs = s.outputs := rfl
@[simp] theorem forgetTail_resets (i) (s : State) : (forgetTail i s).resets = s.resets := rfl

/-! ## arm and cancel -/

@[simp] theorem arm_fwdBit (i t) (s : State) : (arm i t s).fwdBit = s.fwdBit := rfl
@[simp] theorem arm_pool (i t) (s : State) : (arm i t s).pool = s.pool := rfl
@[simp] theorem arm_shut (i t) (s : State) : (arm i t s).shut = s.shut := rfl
@[simp] theorem arm_err (i t) (s : State) : (arm i t s).err = s.err := rfl
@[simp] theorem arm_inputs (i t) (s : State) : (arm i t s).inputs = s.inputs := rfl
@[simp] theorem arm_outputs (i t) (s : State) :
    (arm i t s).outputs = s.outputs ++ [.arm i t] := rfl
@[simp] theorem arm_resets (i t) (s : State) : (arm i t s).resets = s.resets := rfl
@[simp] theorem arm_hiddenDraws (i t) (s : State) : (arm i t s).hiddenDraws = s.hiddenDraws := rfl
@[simp] theorem cancel_fwdBit (i) (s : State) : (cancel i s).fwdBit = s.fwdBit := rfl
@[simp] theorem cancel_pool (i) (s : State) : (cancel i s).pool = s.pool := rfl
@[simp] theorem cancel_shut (i) (s : State) : (cancel i s).shut = s.shut := rfl
@[simp] theorem cancel_err (i) (s : State) : (cancel i s).err = s.err := rfl
@[simp] theorem cancel_inputs (i) (s : State) : (cancel i s).inputs = s.inputs := rfl
@[simp] theorem cancel_outputs (i) (s : State) :
    (cancel i s).outputs = s.outputs ++ [.cancel i] := rfl
@[simp] theorem cancel_resets (i) (s : State) : (cancel i s).resets = s.resets := rfl
@[simp] theorem cancel_hiddenDraws (i) (s : State) : (cancel i s).hiddenDraws = s.hiddenDraws := rfl

/-! ## configureInstance -/

@[simp] theorem configureInstance_fwdBit (i) (s : State) :
    (configureInstance i s).fwdBit = s.fwdBit := rfl
@[simp] theorem configureInstance_pool (i) (s : State) : (configureInstance i s).pool = s.pool := rfl
@[simp] theorem configureInstance_shut (i) (s : State) : (configureInstance i s).shut = s.shut := rfl
@[simp] theorem configureInstance_err (i) (s : State) : (configureInstance i s).err = s.err := rfl
@[simp] theorem configureInstance_inputs (i) (s : State) :
    (configureInstance i s).inputs = s.inputs := rfl
@[simp] theorem configureInstance_resets (i) (s : State) :
    (configureInstance i s).resets = s.resets := rfl
@[simp] theorem configureInstance_hiddenDraws (i) (s : State) :
    (configureInstance i s).hiddenDraws = s.hiddenDraws + 1 := rfl
@[simp] theorem configureInstance_outputs (i) (s : State) :
    (configureInstance i s).outputs = s.outputs := rfl

/-! ## Counting slots and nodes -/

@[simp] theorem setReg_nInst (s : State) (i r) : (s.setReg i r).nInst = s.nInst := by
  simp [State.nInst]
@[simp] theorem emit_nInst (s : State) (o) : (s.emit o).nInst = s.nInst := rfl
@[simp] theorem setReg_poolNodes (s : State) (i r) : (s.setReg i r).poolNodes = s.poolNodes := rfl
@[simp] theorem emit_poolNodes (s : State) (o) : (s.emit o).poolNodes = s.poolNodes := rfl
@[simp] theorem takeNode_nInst (s : State) (n) : (s.takeNode n).nInst = s.nInst := rfl
@[simp] theorem takeNode_poolNodes (s : State) (n) : (s.takeNode n).poolNodes = s.poolNodes := by
  simp [State.takeNode, State.poolNodes]
@[simp] theorem putFree_nInst (s : State) (n) : (s.putFree n).nInst = s.nInst := rfl
@[simp] theorem putFree_poolNodes (s : State) (n) : (s.putFree n).poolNodes = s.poolNodes := by
  simp [State.putFree, State.poolNodes]
@[simp] theorem forgetTail_nInst (i) (s : State) : (forgetTail i s).nInst = s.nInst := by
  simp [forgetTail, State.nInst]
@[simp] theorem arm_nInst (i t) (s : State) : (arm i t s).nInst = s.nInst := by simp [arm]
@[simp] theorem cancel_nInst (i) (s : State) : (cancel i s).nInst = s.nInst := by simp [cancel]
@[simp] theorem configureInstance_nInst (i) (s : State) :
    (configureInstance i s).nInst = s.nInst := by
  simp [configureInstance, State.nInst]

/-! ## Reading a register set after a write -/

theorem reg_of_ge {s : State} {i : Nat} (h : s.nInst ≤ i) : s.reg i = Stepper.unconfigured := by
  simp only [State.nInst] at h
  simp [State.reg, List.getD_eq_getElem?_getD, List.getElem?_eq_none_iff.mpr h]

/-- A configured instance has a slot. -/
theorem lt_of_configured {s : State} {i : Nat} (h : s.configured i = true) : i < s.nInst := by
  by_contra hc
  simp [State.configured, reg_of_ge (not_lt.mp hc), Stepper.unconfigured] at h

@[simp] theorem reg_setReg_self {s : State} {i : Nat} (h : i < s.nInst) (r) :
    (s.setReg i r).reg i = r := by
  simp only [State.nInst] at h
  simp [State.reg, State.setReg, List.getD_eq_getElem?_getD, h]

@[simp] theorem reg_setReg_ne {s : State} {i j : Nat} (h : j ≠ i) (r) :
    (s.setReg i r).reg j = s.reg j := by
  simp [State.reg, State.setReg, List.getD_eq_getElem?_getD, List.getElem?_set_ne (Ne.symm h)]

theorem setReg_setReg (s : State) (i r r') : (s.setReg i r).setReg i r' = s.setReg i r' := by
  simp [State.setReg, List.set_set]

@[simp] theorem setReg_reg (s : State) (i) : s.setReg i (s.reg i) = s := by
  by_cases h : i < s.steppers.length
  · simp [State.setReg, State.reg, List.getD_eq_getElem?_getD, h]
  · simp [State.setReg, List.set_eq_of_length_le (not_lt.mp h)]

@[simp] theorem reg_arm_self {s : State} {i : Nat} (h : i < s.nInst) (t) :
    (arm i t s).reg i = { s.reg i with timer := some t } := by simp [arm, h]
@[simp] theorem reg_arm_ne {s : State} {i j : Nat} (h : j ≠ i) (t) :
    (arm i t s).reg j = s.reg j := by simp [arm, h]
@[simp] theorem reg_cancel_self {s : State} {i : Nat} (h : i < s.nInst) :
    (cancel i s).reg i = { s.reg i with timer := none } := by simp [cancel, h]
@[simp] theorem reg_cancel_ne {s : State} {i j : Nat} (h : j ≠ i) :
    (cancel i s).reg j = s.reg j := by simp [cancel, h]
@[simp] theorem reg_forgetTail_self {s : State} {i : Nat} (h : i < s.nInst) :
    (forgetTail i s).reg i = { s.reg i with qtail := Config.emptyQueueTail s.hiddenDraws } :=
  reg_setReg_self h _
@[simp] theorem reg_forgetTail_ne {s : State} {i j : Nat} (h : j ≠ i) :
    (forgetTail i s).reg j = s.reg j := reg_setReg_ne h _

end Sys2Proof.Machine
end

