-- ==== Sys2Proof/Laws/Queue.lean ====
section
/-! SUPPORT. Linked lists in the node pool: the chain of a queue as a relation, and how it follows
reads and writes of nodes. -/

namespace Sys2Proof.Machine

/-- The list of nodes that the links from `h` spell, down to NIL. -/
def Chain (pool : List PoolSlot) : Link → List Nat → Prop
  | h, [] => h = none
  | h, n :: ns => h = some n ∧ ∃ p, pool[n]? = some p ∧ Chain pool p.node.next ns

theorem chain_of_walk {pool : List PoolSlot} :
    ∀ {fuel h l}, walk pool fuel h = some l → Chain pool h l
  | fuel, none, l, hw => by
    cases fuel <;> (simp [walk] at hw; subst hw; rfl)
  | 0, some n, l, hw => by simp [walk] at hw
  | fuel + 1, some n, l, hw => by
    simp only [walk] at hw
    split at hw
    · cases hw
    · rename_i p hp
      obtain ⟨ns, hns, rfl⟩ := Option.map_eq_some_iff.mp hw
      exact ⟨rfl, p, hp, chain_of_walk hns⟩

theorem walk_of_chain {pool : List PoolSlot} :
    ∀ {l h fuel}, Chain pool h l → l.length ≤ fuel → walk pool fuel h = some l
  | [], h, fuel, hc, _ => by
    cases hc; cases fuel <;> rfl
  | n :: ns, h, 0, _, hl => by simp at hl
  | n :: ns, h, fuel + 1, hc, hl => by
    obtain ⟨rfl, p, hp, hc⟩ := hc
    simp [walk, hp, walk_of_chain hc (by simpa using hl)]

theorem chain_lt {pool : List PoolSlot} :
    ∀ {l h}, Chain pool h l → ∀ n ∈ l, n < pool.length
  | [], _, _, n, hn => by simp at hn
  | m :: ms, h, hc, n, hn => by
    obtain ⟨_, p, hp, hc⟩ := hc
    rcases List.mem_cons.mp hn with rfl | hn
    · exact (List.getElem?_eq_some_iff.mp hp).1
    · exact chain_lt hc n hn

/-- A chain without repeats is no longer than the pool. -/
theorem chain_length_le {pool : List PoolSlot} {l h} (hc : Chain pool h l) (hn : l.Nodup) :
    l.length ≤ pool.length := by
  have := (hn.subperm fun n hm => List.mem_range.mpr (chain_lt hc n hm)).length_le
  simpa using this

/-- A chain depends only on the links of its own nodes. -/
theorem chain_congr {pool pool' : List PoolSlot} :
    ∀ {l h}, (∀ n ∈ l, pool'[n]?.map (·.node.next) = pool[n]?.map (·.node.next)) →
      Chain pool h l → Chain pool' h l
  | [], _, _, hc => hc
  | n :: ns, h, hp, hc => by
    obtain ⟨rfl, p, hpn, hc⟩ := hc
    have h1 := hp n (by simp)
    rw [hpn] at h1
    obtain ⟨p', hp', he⟩ := Option.map_eq_some_iff.mp h1
    refine ⟨rfl, p', hp', ?_⟩
    rw [he]
    exact chain_congr (fun m hm => hp m (by simp [hm])) hc

/-- Linking a node `n` behind the last node of a chain. -/
theorem chain_snoc {pool pool' : List PoolSlot} {n : Nat}
    (hn : pool'[n]?.map (·.node.next) = some none) :
    ∀ {l h t}, Chain pool h l → l.Nodup → l.getLast? = some t →
      pool'[t]?.map (·.node.next) = some (some n) →
      (∀ m ∈ l, m ≠ t → pool'[m]?.map (·.node.next) = pool[m]?.map (·.node.next)) →
      Chain pool' h (l ++ [n])
  | [], _, _, _, _, hl, _, _ => by simp at hl
  | [m], h, t, hc, _, hl, ht, _ => by
    obtain ⟨rfl, p, hp, _⟩ := hc
    have hmt : m = t := by simpa using hl
    subst hmt
    obtain ⟨p', hp', he⟩ := Option.map_eq_some_iff.mp ht
    obtain ⟨q, hq, hqn⟩ := Option.map_eq_some_iff.mp hn
    exact ⟨rfl, p', hp', he, q, hq, hqn⟩
  | m :: m' :: ms, h, t, hc, hd, hl, ht, ho => by
    obtain ⟨rfl, p, hp, hc⟩ := hc
    have hl' : (m' :: ms).getLast? = some t := by simpa [List.getLast?_cons_cons] using hl
    have hmt : m ≠ t := by
      rintro rfl
      exact (List.nodup_cons.mp hd).1 (List.mem_of_getLast? hl')
    have h1 := ho m (by simp) hmt
    rw [hp] at h1
    obtain ⟨p', hp', he⟩ := Option.map_eq_some_iff.mp h1
    refine ⟨rfl, p', hp', ?_⟩
    rw [he]
    exact chain_snoc hn hc (List.nodup_cons.mp hd).2 hl' ht fun k hk => ho k (by simp [hk])

/-! ## Ownership of nodes (20_memory.md R45) -/

/-- The queues of the configured instances are the node lists `Q i`: each follows the links from its
head, no node is in two places, every other node is free, and the tails are the last nodes. -/
structure Linked (s : State) (Q : Nat → List Nat) : Prop where
  chain : ∀ i, s.configured i = true → Chain s.pool (s.reg i).qhead (Q i)
  nodup : ∀ i, s.configured i = true → (Q i).Nodup
  disjoint : ∀ i j, s.configured i = true → s.configured j = true → i ≠ j → (Q i).Disjoint (Q j)
  notFree : ∀ i, s.configured i = true → ∀ n ∈ Q i, s.isFree n = false
  covered : ∀ n, n < s.poolNodes → s.isFree n = true ∨ ∃ i, s.configured i = true ∧ n ∈ Q i
  tail : ∀ i, s.configured i = true → ∀ t, (Q i).getLast? = some t → (s.reg i).qtail = some t

theorem isFree_lt {s : State} {n : Nat} (h : s.isFree n = true) : n < s.poolNodes := by
  by_contra hc
  simp only [State.poolNodes, not_lt] at hc
  simp [State.isFree, List.getElem?_eq_none_iff.mpr hc] at h

theorem mem_freeNodes {s : State} {n : Nat} : n ∈ s.freeNodes ↔ s.isFree n = true := by
  simp only [State.freeNodes, List.mem_filter, List.mem_range]
  exact ⟨And.right, fun h => ⟨isFree_lt h, h⟩⟩

theorem nodup_freeNodes (s : State) : s.freeNodes.Nodup := List.nodup_range.filter _

theorem mem_configuredIds {s : State} {i : Nat} : i ∈ s.configuredIds ↔ s.configured i = true := by
  simp only [State.configuredIds, List.mem_filter, List.mem_range]
  exact ⟨And.right, fun h => ⟨lt_of_configured h, h⟩⟩

theorem queueNodes_of_linked {s : State} {Q} (h : Linked s Q) {i : Nat}
    (hi : s.configured i = true) : s.queueNodes i = some (Q i) :=
  walk_of_chain (h.chain i hi) (chain_length_le (h.chain i hi) (h.nodup i hi))

theorem chain_of_linked {s : State} {Q} (h : Linked s Q) {i : Nat}
    (hi : s.configured i = true) : s.chain i = Q i := by
  simp [State.chain, queueNodes_of_linked h hi]

/-- A linked state has the three queue invariants. -/
theorem queuesOk_of_linked {s : State} {Q} (h : Linked s Q) :
    s.QueuesEnd ∧ s.NodesOwnedOnce ∧ s.TailsAreLast := by
  refine ⟨fun i _ hi => by simp [queueNodes_of_linked h hi], ?_, fun i _ hi hq => ?_⟩
  · have hmem : ∀ n, n ∈ s.ownedNodes ↔ ∃ i, s.configured i = true ∧ n ∈ Q i := by
      intro n
      simp only [State.ownedNodes, List.mem_flatMap, mem_configuredIds]
      exact exists_congr fun i => and_congr_right fun hi => by rw [chain_of_linked h hi]
    have hown : s.ownedNodes.Nodup := by
      refine List.nodup_flatMap.mpr ⟨fun i hi => ?_, ?_⟩
      · rw [chain_of_linked h (mem_configuredIds.mp hi)]
        exact h.nodup i (mem_configuredIds.mp hi)
      · refine List.Pairwise.imp_of_mem ?_ (List.nodup_range.filter _ : s.configuredIds.Nodup)
        intro i j hi hj hij
        have hi := mem_configuredIds.mp hi
        have hj := mem_configuredIds.mp hj
        show List.Disjoint (s.chain i) (s.chain j)
        rw [chain_of_linked h hi, chain_of_linked h hj]
        exact h.disjoint i j hi hj hij
    have hall : (s.ownedNodes ++ s.freeNodes).Nodup := by
      refine List.Nodup.append hown (nodup_freeNodes s) fun n hn hf => ?_
      obtain ⟨i, hi, hni⟩ := (hmem n).mp hn
      have := h.notFree i hi n hni
      rw [mem_freeNodes.mp hf] at this
      cases this
    refine (List.perm_ext_iff_of_nodup hall List.nodup_range).mpr fun n => ?_
    simp only [List.mem_append, hmem, mem_freeNodes, List.mem_range]
    constructor
    · rintro (⟨i, hi, hn⟩ | hf)
      · exact chain_lt (h.chain i hi) n hn
      · exact isFree_lt hf
    · intro hn
      exact (h.covered n hn).symm
  · rw [chain_of_linked h hi]
    rcases hl : (Q i).getLast? with _ | t
    · have hnil : Q i = [] := List.getLast?_eq_none_iff.mp hl
      have := h.chain i hi
      rw [hnil] at this
      exact absurd this hq
    · exact h.tail i hi t hl

/-- The three queue invariants make a state linked, by the chains of its own queues. -/
theorem linked_of_queuesOk {s : State} (he : s.QueuesEnd) (ho : s.NodesOwnedOnce)
    (ht : s.TailsAreLast) : Linked s s.chain := by
  have hq : ∀ i, s.configured i = true → s.queueNodes i = some (s.chain i) := by
    intro i hi
    obtain ⟨l, hl⟩ := Option.isSome_iff_exists.mp (he i (lt_of_configured hi) hi)
    simp [State.chain, hl]
  have hall : (s.ownedNodes ++ s.freeNodes).Nodup := ho.nodup_iff.mpr List.nodup_range
  have hown := List.nodup_flatMap.mp (List.Nodup.of_append_left hall)
  have hmemOwned : ∀ i, s.configured i = true → ∀ n ∈ s.chain i, n ∈ s.ownedNodes := fun i hi n hn =>
    List.mem_flatMap.mpr ⟨i, mem_configuredIds.mpr hi, hn⟩
  refine ⟨fun i hi => chain_of_walk (hq i hi), fun i hi => hown.1 i (mem_configuredIds.mpr hi),
    fun i j hi hj hij => ?_, fun i hi n hn => ?_, fun n hn => ?_, fun i hi t htl => ?_⟩
  · have : Std.Symm (Function.onFun List.Disjoint s.chain) := ⟨fun _ _ h => h.symm⟩
    exact hown.2.forall (mem_configuredIds.mpr hi) (mem_configuredIds.mpr hj) hij
  · rcases hf : s.isFree n with _ | _
    · rfl
    · exact absurd (mem_freeNodes.mpr hf)
        (fun hf => (List.disjoint_of_nodup_append hall) (hmemOwned i hi n hn) hf)
  · have := (ho.mem_iff (a := n)).mpr (List.mem_range.mpr hn)
    rcases List.mem_append.mp this with h | h
    · obtain ⟨i, hi, hni⟩ := List.mem_flatMap.mp h
      exact .inr ⟨i, mem_configuredIds.mp hi, hni⟩
    · exact .inl (mem_freeNodes.mp h)
  · rw [ht i (lt_of_configured hi) hi ?_, htl]
    intro hnone
    have hc := chain_of_walk (hq i hi)
    rw [hnone] at hc
    rcases hl : s.chain i with _ | ⟨m, ms⟩
    · simp [hl] at htl
    · rw [hl] at hc; cases hc.1

end Sys2Proof.Machine
end

