-- ==== Sys2Proof/Laws/Ops.lean ====
section
/-! SUPPORT. One lemma per shared operation that says what it does to a state whose queues are linked:
it answers a next state, what its registers are, which nodes it touches, and that the queues stay
linked. -/

namespace Sys2Proof.Machine

/-- From `s` to `t` only instance `i`, the node pool, the outputs and the unobservable draws may differ. -/
structure OnlyInstance (i : Nat) (s t : State) : Prop where
  fwdBit : t.fwdBit = s.fwdBit
  nInst : t.nInst = s.nInst
  poolNodes : t.poolNodes = s.poolNodes
  shut : t.shut = s.shut
  err : t.err = s.err
  inputs : t.inputs = s.inputs
  resets : t.resets = s.resets
  others : ∀ j, j ≠ i → t.reg j = s.reg j

theorem OnlyInstance.refl (i : Nat) (s : State) : OnlyInstance i s s :=
  ⟨rfl, rfl, rfl, rfl, rfl, rfl, rfl, fun _ _ => rfl⟩

theorem OnlyInstance.trans {i : Nat} {s t u : State} (h : OnlyInstance i s t)
    (h' : OnlyInstance i t u) : OnlyInstance i s u :=
  ⟨h'.1.trans h.1, h'.2.trans h.2, h'.3.trans h.3, h'.4.trans h.4, h'.5.trans h.5, h'.6.trans h.6,
    h'.7.trans h.7, fun j hj => (h'.others j hj).trans (h.others j hj)⟩

theorem OnlyInstance.configured {i : Nat} {s t : State} (h : OnlyInstance i s t)
    (hi : t.configured i = s.configured i) (j : Nat) : t.configured j = s.configured j := by
  by_cases hj : j = i
  · rw [hj, hi]
  · simp [State.configured, h.others j hj]

theorem onlyInstance_setReg (i : Nat) (s : State) (r) : OnlyInstance i s (s.setReg i r) :=
  ⟨rfl, by simp, rfl, rfl, rfl, rfl, rfl, fun j hj => by simp [hj]⟩

theorem onlyInstance_arm (i : Nat) (t) (s : State) : OnlyInstance i s (arm i t s) :=
  ⟨rfl, by simp, rfl, rfl, rfl, rfl, rfl, fun j hj => by simp [hj]⟩

theorem onlyInstance_cancel (i : Nat) (s : State) : OnlyInstance i s (cancel i s) :=
  ⟨rfl, by simp, rfl, rfl, rfl, rfl, rfl, fun j hj => by simp [hj]⟩

/-! ## Nodes -/

theorem nodeAt_of_getElem? {s : State} {n : Nat} {p : PoolSlot} (h : s.pool[n]? = some p) :
    s.nodeAt n = p.node := by simp [State.nodeAt, List.getD_eq_getElem?_getD, h]

theorem isFree_of_getElem? {s : State} {n : Nat} {p : PoolSlot} (h : s.pool[n]? = some p) :
    s.isFree n = p.free := by simp [State.isFree, h]

/-- A slot is what `isFree` and `nodeAt` read. -/
theorem getElem?_slot {s : State} {n : Nat} (h : n < s.poolNodes) :
    s.pool[n]? = some ⟨s.isFree n, s.nodeAt n⟩ := by
  have := List.getElem?_eq_getElem (l := s.pool) (i := n) h
  rw [this, isFree_of_getElem? this, nodeAt_of_getElem? this]

theorem nodeAt_congr {s t : State} {n : Nat} (h : t.pool[n]? = s.pool[n]?) :
    t.nodeAt n = s.nodeAt n := by simp [State.nodeAt, List.getD_eq_getElem?_getD, h]

theorem isFree_congr {s t : State} {n : Nat} (h : t.pool[n]? = s.pool[n]?) :
    t.isFree n = s.isFree n := by simp [State.isFree, h]

theorem readNode_eq {s : State} {n : Nat} (h : n < s.poolNodes) :
    s.readNode n = .ok (s.nodeAt n) := by simp [State.readNode, getElem?_slot h]

theorem modifyNode_eq {s : State} {n : Nat} (h : n < s.poolNodes) (f : Node → Node) :
    s.modifyNode n f = .ok { s with pool := s.pool.modify n (fun p => { p with node := f p.node }) } := by
  simp only [State.poolNodes] at h
  simp [State.modifyNode, h]

/-- Free of an owned node (40_motion_queue.md R81). -/
theorem freeNode_eq {s : State} {n : Nat} (h : n < s.poolNodes) (hf : s.isFree n = false) :
    freeNode n s = .ok (s.putFree n) := by
  simp [freeNode, getElem?_slot h, hf]

theorem getElem?_putFree_ne {s : State} {n m : Nat} (h : m ≠ n) :
    (s.putFree n).pool[m]? = s.pool[m]? := List.getElem?_set_ne (Ne.symm h)

theorem isFree_putFree_self {s : State} {n : Nat} (h : n < s.poolNodes) :
    (s.putFree n).isFree n = true := by
  simp only [State.poolNodes] at h
  simp [State.isFree, State.putFree, h]

theorem onlyInstance_putFree (i : Nat) (s : State) (n) : OnlyInstance i s (s.putFree n) :=
  ⟨rfl, rfl, by simp, rfl, rfl, rfl, rfl, fun _ _ => rfl⟩

theorem allocNode_eq_none {s : State} (draw : Nat) :
    s.allocNode draw = none ↔ s.freeNodes = [] := by
  simp only [State.allocNode, List.getElem?_eq_none_iff]
  constructor
  · intro h
    by_contra hc
    exact absurd (Nat.mod_lt draw (List.length_pos_iff.mpr hc)) (not_lt.mpr h)
  · intro h; simp [h]

/-- Alloc takes an element of FREE (40_motion_queue.md R80). -/
theorem isFree_of_allocNode {s : State} {draw n : Nat} (h : s.allocNode draw = some n) :
    s.isFree n = true := mem_freeNodes.mp (List.mem_of_getElem? h)

/-! ## Links -/

theorem link_of_linked {s : State} {Q} (h : Linked s Q) {i : Nat} (hi : s.configured i = true)
    {n l} (hq : Q i = n :: l) :
    n < s.poolNodes ∧ s.isFree n = false ∧ (s.reg i).qhead = some n ∧
      Chain s.pool (s.nodeAt n).next l := by
  have hc := h.chain i hi
  rw [hq] at hc
  obtain ⟨hh, p, hp, hc⟩ := hc
  refine ⟨(List.getElem?_eq_some_iff.mp hp).1, h.notFree i hi n (by simp [hq]), hh, ?_⟩
  rwa [nodeAt_of_getElem? hp]

theorem qhead_of_linked_nil {s : State} {Q} (h : Linked s Q) {i : Nat} (hi : s.configured i = true)
    (hq : Q i = []) : (s.reg i).qhead = none := by
  have hc := h.chain i hi; rwa [hq] at hc

theorem linked_nil_iff {s : State} {Q} (h : Linked s Q) {i : Nat} (hi : s.configured i = true) :
    Q i = [] ↔ (s.reg i).qhead = none := by
  refine ⟨qhead_of_linked_nil h hi, fun hn => ?_⟩
  rcases hq : Q i with _ | ⟨n, l⟩
  · rfl
  · have := (link_of_linked h hi hq).2.2.1
    rw [hn] at this; cases this

/-- Register writes that leave CFG, QHEAD and QTAIL alone keep the queues. -/
theorem linked_congr {s t : State} {Q} (h : Linked s Q) (hp : t.pool = s.pool)
    (hr : ∀ j, (t.reg j).cfg = (s.reg j).cfg ∧ (t.reg j).qhead = (s.reg j).qhead ∧
      (t.reg j).qtail = (s.reg j).qtail) : Linked t Q := by
  have hc : ∀ j, t.configured j = s.configured j := fun j => (hr j).1
  have hf : ∀ n, t.isFree n = s.isFree n := fun n => isFree_congr (by rw [hp])
  refine ⟨fun i hi => ?_, fun i hi => ?_, fun i j hi hj => ?_, fun i hi n hn => ?_, fun n hn => ?_,
    fun i hi => ?_⟩
  · rw [hc] at hi; rw [hp, (hr i).2.1]; exact h.chain i hi
  · rw [hc] at hi; exact h.nodup i hi
  · rw [hc] at hi hj; exact h.disjoint i j hi hj
  · rw [hc] at hi; rw [hf]; exact h.notFree i hi n hn
  · simp only [State.poolNodes, hp] at hn
    simpa only [hf, hc] using h.covered n hn
  · rw [hc] at hi; rw [(hr i).2.2]; exact h.tail i hi

theorem linked_setReg {s : State} {Q} (h : Linked s Q) {i : Nat} {r : Stepper}
    (hr : r.cfg = (s.reg i).cfg ∧ r.qhead = (s.reg i).qhead ∧ r.qtail = (s.reg i).qtail) :
    Linked (s.setReg i r) Q := by
  by_cases hi : i < s.nInst
  · refine linked_congr h rfl fun j => ?_
    by_cases hj : j = i
    · subst hj; simpa [hi] using hr
    · simp [hj]
  · simp only [State.nInst] at hi
    have : s.setReg i r = s := by simp [State.setReg, List.set_eq_of_length_le (not_lt.mp hi)]
    rwa [this]

theorem linked_emit {s : State} {Q} (h : Linked s Q) (o) : Linked (s.emit o) Q :=
  linked_congr h rfl fun _ => ⟨rfl, rfl, rfl⟩

theorem linked_arm {s : State} {Q} (h : Linked s Q) (i t) : Linked (arm i t s) Q :=
  linked_emit (linked_setReg (r := { s.reg i with timer := some t }) h ⟨rfl, rfl, rfl⟩) _

theorem linked_cancel {s : State} {Q} (h : Linked s Q) (i) : Linked (cancel i s) Q :=
  linked_emit (linked_setReg (r := { s.reg i with timer := none }) h ⟨rfl, rfl, rfl⟩) _

/-- Taking the head node `n` off the queue of `i` and putting it into FREE keeps the queues linked. -/
theorem linked_unlink {s t : State} {Q} (h : Linked s Q) {i : Nat} (hi : s.configured i = true)
    {n l} (hq : Q i = n :: l) (hf : t.isFree n = true) (hl : t.poolNodes = s.poolNodes)
    (hpool : ∀ m, m ≠ n → t.pool[m]? = s.pool[m]?)
    (hc : t.configured i = true) (ho : ∀ j, j ≠ i → t.reg j = s.reg j)
    (hh : (t.reg i).qhead = (s.nodeAt n).next)
    (ht : l ≠ [] → (t.reg i).qtail = (s.reg i).qtail) :
    Linked t (Function.update Q i l) := by
  obtain ⟨hn, hnf, _, hchain⟩ := link_of_linked h hi hq
  have hcfg : ∀ j, t.configured j = s.configured j := by
    intro j
    by_cases hj : j = i
    · rw [hj, hc, hi]
    · simp [State.configured, ho j hj]
  have hnd : (n :: l).Nodup := hq ▸ h.nodup i hi
  have hnl : ∀ j, s.configured j = true → ∀ m ∈ Function.update Q i l j, m ≠ n := by
    intro j hj m hm hmn
    subst hmn
    by_cases hji : j = i
    · subst hji
      rw [Function.update_self] at hm
      exact (List.nodup_cons.mp hnd).1 hm
    · rw [Function.update_of_ne hji] at hm
      exact h.disjoint i j hi hj (Ne.symm hji) (by simp [hq]) hm
  have hsub : ∀ j m, m ∈ Function.update Q i l j → m ∈ Q j := by
    intro j m hm
    by_cases hji : j = i
    · subst hji; rw [Function.update_self] at hm; simp [hq, hm]
    · rwa [Function.update_of_ne hji] at hm
  refine ⟨fun j hj => ?_, fun j hj => ?_, fun j k hj hk hjk => ?_, fun j hj m hm => ?_, fun m hm => ?_,
    fun j hj u hu => ?_⟩
  · rw [hcfg] at hj
    have key : ∀ m ∈ Function.update Q i l j,
        t.pool[m]?.map (·.node.next) = s.pool[m]?.map (·.node.next) := fun m hm => by
      rw [hpool m (hnl j hj m hm)]
    by_cases hji : j = i
    · subst hji
      rw [Function.update_self] at key ⊢
      rw [hh]; exact chain_congr key hchain
    · rw [Function.update_of_ne hji] at key ⊢
      rw [ho j hji]; exact chain_congr key (h.chain j hj)
  · rw [hcfg] at hj
    by_cases hji : j = i
    · subst hji; rw [Function.update_self]; exact (List.nodup_cons.mp hnd).2
    · rw [Function.update_of_ne hji]; exact h.nodup j hj
  · rw [hcfg] at hj hk
    exact fun m hmj hmk => h.disjoint j k hj hk hjk (hsub j m hmj) (hsub k m hmk)
  · rw [hcfg] at hj
    rw [isFree_congr (hpool m (hnl j hj m hm))]
    exact h.notFree j hj m (hsub j m hm)
  · by_cases hmn : m = n
    · left; rw [hmn, hf]
    · have hm' : m < s.poolNodes := hl ▸ hm
      rw [isFree_congr (hpool m hmn)]
      rcases h.covered m hm' with hfree | ⟨j, hj, hmj⟩
      · exact .inl hfree
      · refine .inr ⟨j, (hcfg j).trans hj, ?_⟩
        by_cases hji : j = i
        · subst hji
          rw [hq] at hmj
          rw [Function.update_self]
          exact (List.mem_cons.mp hmj).resolve_left hmn
        · rwa [Function.update_of_ne hji]
  · rw [hcfg] at hj
    by_cases hji : j = i
    · subst hji
      rw [Function.update_self] at hu
      have hl : l ≠ [] := by rintro rfl; simp at hu
      rw [ht hl]
      refine h.tail j hj u ?_
      rcases l with _ | ⟨a, l⟩
      · exact absurd rfl hl
      · rw [hq, List.getLast?_cons_cons]; exact hu
    · rw [Function.update_of_ne hji] at hu
      rw [ho j hji]; exact h.tail j hj u hu

/-! ## PopFront, DrainAll, Load -/

theorem popFront_nil {s : State} {Q} (h : Linked s Q) {i : Nat} (hi : s.configured i = true)
    (hq : Q i = []) : popFront i s = .ok (none, s) := by
  simp [popFront, qhead_of_linked_nil h hi hq]

theorem popFront_cons {s : State} {Q} (h : Linked s Q) {i : Nat} (hi : s.configured i = true)
    {n l} (hq : Q i = n :: l) :
    popFront i s = .ok (some (n, s.nodeAt n), advanceHead i (s.nodeAt n).next s) := by
  obtain ⟨hn, _, hh, _⟩ := link_of_linked h hi hq
  simp [popFront, hh, readNode_eq hn, bind, Except.bind, pure, Except.pure]

@[simp] theorem advanceHead_pool (i next) (s : State) : (advanceHead i next s).pool = s.pool := by
  cases next <;> rfl
@[simp] theorem advanceHead_outputs (i next) (s : State) :
    (advanceHead i next s).outputs = s.outputs := by cases next <;> rfl

theorem onlyInstance_advanceHead (i next) (s : State) : OnlyInstance i s (advanceHead i next s) := by
  cases next
  · exact ⟨rfl, by simp [advanceHead], rfl, rfl, rfl, rfl, rfl, fun j hj => by simp [advanceHead, hj]⟩
  · exact onlyInstance_setReg i s _

/-- After the write of PopFront only QHEAD, and with the queue empty QTAIL, have changed. -/
theorem reg_advanceHead {s : State} {i : Nat} (hi : i < s.nInst) (next) :
    ∃ tail, (advanceHead i next s).reg i = { s.reg i with qhead := next, qtail := tail } ∧
      (next ≠ none → tail = (s.reg i).qtail) := by
  cases next
  · exact ⟨Config.emptyQueueTail s.hiddenDraws, by simp [advanceHead, hi], by simp⟩
  · exact ⟨(s.reg i).qtail, by simp [advanceHead, hi], fun _ => rfl⟩

theorem chain_nil_of_next {pool : List PoolSlot} {l} (hc : Chain pool none l) : l = [] := by
  cases l
  · rfl
  · cases hc.1

/-- DrainAll on a linked queue (40_motion_queue.md R84): every node of the queue is freed, the queue is
empty, and nothing else changes. -/
theorem drainChain_linked {i : Nat} : ∀ {l : List Nat} {s : State} {Q} {fuel : Nat}, Linked s Q →
    s.configured i = true → Q i = l → l.length ≤ fuel →
    ∃ t tail, drainChain i fuel s = .ok t ∧ Linked t (Function.update Q i []) ∧
      OnlyInstance i s t ∧ t.outputs = s.outputs ∧
      t.reg i = { s.reg i with qhead := none, qtail := tail } ∧
      (∀ m, m ∉ l → t.pool[m]? = s.pool[m]?)
  | [], s, Q, fuel, h, hi, hq, _ => by
    have hh := qhead_of_linked_nil h hi hq
    refine ⟨s, (s.reg i).qtail, ?_, ?_, OnlyInstance.refl i s, rfl, ?_, fun _ _ => rfl⟩
    · cases fuel <;> simp [drainChain, hh]
    · rw [show Function.update Q i [] = Q by rw [← hq]; exact Function.update_eq_self i Q]; exact h
    · rw [← hh]
  | n :: l, s, Q, 0, _, _, _, hf => by simp at hf
  | n :: l, s, Q, fuel + 1, h, hi, hq, hf => by
    obtain ⟨hn, hnf, hh, hchain⟩ := link_of_linked h hi hq
    have hlt := lt_of_configured hi
    obtain ⟨tail, hreg, htail⟩ := reg_advanceHead hlt (s.nodeAt n).next
    let u := advanceHead i (s.nodeAt n).next s
    have hup : u.pool = s.pool := advanceHead_pool _ _ _
    have huo := onlyInstance_advanceHead i (s.nodeAt n).next s
    have hun : n < u.poolNodes := by rw [huo.poolNodes]; exact hn
    have huf : u.isFree n = false := by rw [← hnf]; exact isFree_congr (by rw [hup])
    have hfree : freeNode n u = .ok (u.putFree n) := freeNode_eq hun huf
    have hvo := huo.trans (onlyInstance_putFree i u n)
    have hvr : (u.putFree n).reg i =
        { s.reg i with qhead := (s.nodeAt n).next, qtail := tail } := hreg
    have hvi : (u.putFree n).configured i = true := by
      show ((u.putFree n).reg i).cfg = true
      rw [hvr]; exact hi
    have hvp : ∀ m, m ≠ n → (u.putFree n).pool[m]? = s.pool[m]? := fun m hm => by
      rw [getElem?_putFree_ne hm, hup]
    have hv : Linked (u.putFree n) (Function.update Q i l) := by
      refine linked_unlink h hi hq (isFree_putFree_self hun) hvo.poolNodes hvp hvi hvo.others
        (by rw [hvr]) fun hl => ?_
      rw [hvr]
      refine htail fun hnone => hl ?_
      rw [hnone] at hchain
      exact chain_nil_of_next hchain
    obtain ⟨t, tail', ht, hlt', hot, hout, hrt, hpt⟩ :=
      drainChain_linked (fuel := fuel) hv hvi (Function.update_self i l Q) (by simpa using hf)
    refine ⟨t, tail', ?_, ?_, hvo.trans hot, ?_, ?_, ?_⟩
    · rw [drainChain]
      simp only [hh, readNode_eq hn]
      show (freeNode n u >>= fun s => drainChain i fuel s) = _
      rw [hfree]; exact ht
    · rwa [Function.update_idem] at hlt'
    · rw [hout]; exact advanceHead_outputs i _ s
    · rw [hrt, hvr]
    · intro m hm
      rw [List.mem_cons, not_or] at hm
      rw [hpt m hm.2, hvp m hm.1]

theorem drainAll_linked {i : Nat} {s : State} {Q} (h : Linked s Q) (hi : s.configured i = true) :
    ∃ t tail, drainAll i s = .ok t ∧ Linked t (Function.update Q i []) ∧
      OnlyInstance i s t ∧ t.outputs = s.outputs ∧
      t.reg i = { s.reg i with qhead := none, qtail := tail } ∧
      (∀ m, m ∉ Q i → t.pool[m]? = s.pool[m]?) :=
  drainChain_linked h hi rfl (chain_length_le (h.chain i hi) (h.nodup i hi))

/-- DrainAll on an empty queue does nothing (R84). -/
theorem drainAll_of_empty {i : Nat} {s : State} (h : (s.reg i).qhead = none) :
    drainAll i s = .ok s := by
  unfold drainAll
  cases s.pool.length <;> simp [drainChain, h]

/-- Load on an empty queue (41_stepping_engine.md R87). -/
theorem load_nil {i : Nat} {s : State} (h : (s.reg i).qhead = none) :
    load i s = .ok (s.setReg i { s.reg i with cnt := 0 }) := by
  simp [load, popFront, h, bind, Except.bind, pure, Except.pure]

/-- Load on a queue that is not empty (41_stepping_engine.md R88). -/
theorem load_cons {i : Nat} {s : State} {Q} (h : Linked s Q) (hi : s.configured i = true)
    {n l} (hq : Q i = n :: l) :
    ∃ t tail, load i s = .ok t ∧ Linked t (Function.update Q i l) ∧ OnlyInstance i s t ∧
      t.outputs = s.outputs ++ [.arm i ((s.reg i).wake + (s.nodeAt n).interval)] ∧
      t.reg i = { loadRegisters (s.reg i) (s.nodeAt n) with
        qhead := (s.nodeAt n).next, qtail := tail,
        timer := some ((s.reg i).wake + (s.nodeAt n).interval) } ∧
      (∀ m, m ≠ n → t.pool[m]? = s.pool[m]?) := by
  obtain ⟨hn, hnf, hh, hchain⟩ := link_of_linked h hi hq
  have hlt := lt_of_configured hi
  obtain ⟨tail, hreg, htail⟩ := reg_advanceHead hlt (s.nodeAt n).next
  let u := advanceHead i (s.nodeAt n).next s
  have huo := onlyInstance_advanceHead i (s.nodeAt n).next s
  have hui : i < u.nInst := by rw [huo.nInst]; exact hlt
  let w := u.setReg i (loadRegisters (u.reg i) (s.nodeAt n))
  have hwp : w.pool = s.pool := advanceHead_pool _ _ _
  have hwo : OnlyInstance i s w := huo.trans (onlyInstance_setReg i u _)
  have hwr : w.reg i = { loadRegisters (s.reg i) (s.nodeAt n) with
      qhead := (s.nodeAt n).next, qtail := tail } := by
    rw [reg_setReg_self hui, hreg]; rfl
  have hwn : n < w.poolNodes := by rw [hwo.poolNodes]; exact hn
  have hfree : freeNode n w = .ok (w.putFree n) :=
    freeNode_eq hwn (by rw [← hnf]; exact isFree_congr (by rw [hwp]))
  have hvo := hwo.trans (onlyInstance_putFree i w n)
  have hvr : (w.putFree n).reg i = { loadRegisters (s.reg i) (s.nodeAt n) with
      qhead := (s.nodeAt n).next, qtail := tail } := hwr
  have hvp : ∀ m, m ≠ n → (w.putFree n).pool[m]? = s.pool[m]? := fun m hm => by
    rw [getElem?_putFree_ne hm, hwp]
  have hvi : i < (w.putFree n).nInst := by rw [hvo.nInst]; exact hlt
  have hvl : Linked (w.putFree n) (Function.update Q i l) := by
    refine linked_unlink h hi hq (isFree_putFree_self hwn) hvo.poolNodes hvp ?_ hvo.others
      (by rw [hvr]) fun hl => ?_
    · show ((w.putFree n).reg i).cfg = true
      rw [hvr]; exact hi
    · rw [hvr]
      refine htail fun hnone => hl ?_
      rw [hnone] at hchain
      exact chain_nil_of_next hchain
  have hwake : ((w.putFree n).reg i).wake = (s.reg i).wake + (s.nodeAt n).interval := by
    rw [hvr]; rfl
  refine ⟨arm i ((w.putFree n).reg i).wake (w.putFree n), tail, ?_, linked_arm hvl _ _,
    hvo.trans (onlyInstance_arm i _ _), ?_, ?_, hvp⟩
  · rw [load, popFront_cons h hi hq]
    show (freeNode n w >>= fun s => pure (arm i (s.reg i).wake s)) = _
    rw [hfree]; rfl
  · rw [arm_outputs, hwake]
    congr 1
    exact advanceHead_outputs i _ s
  · rw [reg_arm_self hvi, hwake, hvr]

end Sys2Proof.Machine
end

