-- ==== Sys2Proof/Laws/Stop.lean ====
section
/-! SUPPORT. What StopInstance, ShutdownAll and fatal entry do to a state whose queues are linked. -/

namespace Sys2Proof.Machine

/-- The registers of a configured instance after StopInstance, with the tail the free value `tail`
(41_stepping_engine.md R90). -/
def stoppedRegisters (r : Stepper) (tail : Link) : Stepper :=
  { stopRegisters r with
    qhead := none, qtail := tail, timer := if r.active then none else r.timer }

/-- The CANCEL of StopInstance: none on an Idle instance (R90). -/
def cancelsOf (s : State) (i : Nat) : List Output :=
  if (s.reg i).active then [.cancel i] else []

/-- StopInstance (R90). -/
theorem stopInstance_linked {i : Nat} {s : State} {Q} (h : Linked s Q)
    (hi : s.configured i = true) :
    ∃ t tail, stopInstance i s = .ok t ∧ Linked t (Function.update Q i []) ∧
      OnlyInstance i s t ∧ t.outputs = s.outputs ++ cancelsOf s i ∧
      t.reg i = stoppedRegisters (s.reg i) tail ∧
      (∀ m, m ∉ Q i → t.pool[m]? = s.pool[m]?) := by
  have hlt := lt_of_configured hi
  let u := if (s.reg i).active then cancel i s else s
  have hu : Linked u Q ∧ OnlyInstance i s u ∧ u.pool = s.pool ∧
      u.outputs = s.outputs ++ cancelsOf s i ∧
      u.reg i = { s.reg i with timer := if (s.reg i).active then none else (s.reg i).timer } := by
    simp only [u, cancelsOf]
    split
    · exact ⟨linked_cancel h i, onlyInstance_cancel i s, rfl, rfl, by simp [hlt]⟩
    · exact ⟨h, OnlyInstance.refl i s, rfl, by simp, rfl⟩
  obtain ⟨hul, huo, hup, huout, hur⟩ := hu
  let v := u.setReg i (stopRegisters (u.reg i))
  have hvo : OnlyInstance i s v := huo.trans (onlyInstance_setReg i u _)
  have hvl : Linked v Q := linked_setReg hul ⟨rfl, rfl, rfl⟩
  have hvr : v.reg i = stopRegisters (u.reg i) :=
    reg_setReg_self (by rw [huo.nInst]; exact hlt) _
  have hvi : v.configured i = true := by
    show (v.reg i).cfg = true
    rw [hvr, hur]; exact hi
  obtain ⟨t, tail, ht, htl, hto, htout, htr, htp⟩ := drainAll_linked hvl hvi
  refine ⟨t, tail, ht, htl, hvo.trans hto, htout.trans huout, ?_, fun m hm => (htp m hm).trans ?_⟩
  · rw [htr, hvr, hur]; rfl
  · show u.pool[m]? = _; rw [hup]

/-- One turn of ShutdownAll on a configured instance does what StopInstance does (60_exceptions.md
R120). -/
theorem shutdownInstance_linked {i : Nat} {s : State} {Q} (h : Linked s Q)
    (hi : s.configured i = true) :
    ∃ t tail, shutdownInstance i s = .ok t ∧ Linked t (Function.update Q i []) ∧
      OnlyInstance i s t ∧ t.outputs = s.outputs ++ cancelsOf s i ∧
      t.reg i = stoppedRegisters (s.reg i) tail ∧
      (∀ m, m ∉ Q i → t.pool[m]? = s.pool[m]?) := by
  obtain ⟨u, tail, hu, hul, huo, huout, hur, hup⟩ := drainAll_linked h hi
  have hui : u.configured i = true := by
    show (u.reg i).cfg = true
    rw [hur]; exact hi
  obtain ⟨t, tail', ht, htl, hto, htout, htr, htp⟩ := stopInstance_linked hul hui
  have hact : (u.reg i).active = (s.reg i).active := by rw [hur]; rfl
  refine ⟨t, tail', ?_, ?_, huo.trans hto, ?_, ?_, fun m hm => ?_⟩
  · simp only [shutdownInstance, hi, if_true, hu, bind, Except.bind]
    exact ht
  · rwa [Function.update_idem] at htl
  · rw [htout, huout, cancelsOf, cancelsOf, hact]
  · rw [htr, stoppedRegisters, stoppedRegisters, hact, hur]; rfl
  · rw [htp m (by simp), hup m hm]

/-- From `s` to `t` the parameters, the latches, the events to come and the count of block
resets are the same. -/
structure SameGlobals (s t : State) : Prop where
  fwdBit : t.fwdBit = s.fwdBit
  nInst : t.nInst = s.nInst
  poolNodes : t.poolNodes = s.poolNodes
  shut : t.shut = s.shut
  err : t.err = s.err
  inputs : t.inputs = s.inputs
  resets : t.resets = s.resets

theorem OnlyInstance.globals {i : Nat} {s t : State} (h : OnlyInstance i s t) : SameGlobals s t :=
  ⟨h.1, h.2, h.3, h.4, h.5, h.6, h.7⟩

theorem SameGlobals.refl (s : State) : SameGlobals s s := ⟨rfl, rfl, rfl, rfl, rfl, rfl, rfl⟩

theorem SameGlobals.trans {s t u : State} (h : SameGlobals s t) (h' : SameGlobals t u) :
    SameGlobals s u :=
  ⟨h'.1.trans h.1, h'.2.trans h.2, h'.3.trans h.3, h'.4.trans h.4, h'.5.trans h.5, h'.6.trans h.6,
    h'.7.trans h.7⟩

/-- The loop of ShutdownAll over ids without repeats (60_exceptions.md R120): each configured one of
them is stopped and its queue drained, in the list's order, and nothing else changes. -/
theorem shutdownEach_linked : ∀ {is : List Nat} {s : State} {Q}, Linked s Q → is.Nodup →
    ∃ t, shutdownEach is s = .ok t ∧
      Linked t (fun i => if i ∈ is then [] else Q i) ∧ SameGlobals s t ∧
      t.outputs = s.outputs ++ (is.filter s.configured).flatMap (cancelsOf s) ∧
      (∀ i, i ∈ is → s.configured i = true →
        ∃ tail, t.reg i = stoppedRegisters (s.reg i) tail) ∧
      (∀ i, i ∉ is ∨ s.configured i = false → t.reg i = s.reg i) ∧
      (∀ m, (∀ i, i ∈ is → s.configured i = true → m ∉ Q i) → t.pool[m]? = s.pool[m]?)
  | [], s, Q, h, _ => ⟨s, rfl, by simpa using h, SameGlobals.refl s, by simp, by simp,
      fun _ _ => rfl, fun _ _ => rfl⟩
  | i :: is, s, Q, h, hd => by
    obtain ⟨hni, hd⟩ := List.nodup_cons.mp hd
    by_cases hi : s.configured i = true
    · obtain ⟨u, tail, hu, hul, huo, huout, hur, hup⟩ := shutdownInstance_linked h hi
      have hucfg : ∀ j, u.configured j = s.configured j := by
        refine huo.configured ?_
        show (u.reg i).cfg = (s.reg i).cfg
        rw [hur]; rfl
      obtain ⟨t, ht, htl, htg, htout, htr, hts, htp⟩ := shutdownEach_linked hul hd
      refine ⟨t, ?_, ?_, huo.globals.trans htg, ?_, ?_, ?_, ?_⟩
      · simp only [shutdownEach, hu, bind, Except.bind]; exact ht
      · convert htl using 2 with j
        by_cases hji : j = i
        · subst hji; simp [hni]
        · simp [hji]
      · have hfil : is.filter u.configured = is.filter s.configured :=
          List.filter_congr fun j _ => by rw [hucfg]
        have hmap : (is.filter s.configured).flatMap (cancelsOf u) =
            (is.filter s.configured).flatMap (cancelsOf s) := by
          refine List.flatMap_congr fun j hj => ?_
          have hji : j ≠ i := by
            rintro rfl; exact hni (List.mem_of_mem_filter hj)
          simp only [cancelsOf, huo.others j hji]
        rw [htout, huout, hfil, hmap, List.filter_cons_of_pos hi, List.flatMap_cons,
          List.append_assoc]
      · intro j hj hjc
        by_cases hji : j = i
        · subst hji
          exact ⟨tail, (hts j (.inl hni)).trans hur⟩
        · have hj : j ∈ is := (List.mem_cons.mp hj).resolve_left hji
          obtain ⟨tl, htl⟩ := htr j hj ((hucfg j).trans hjc)
          exact ⟨tl, by rw [htl, huo.others j hji]⟩
      · intro j hj
        have hji : j ≠ i := by
          rintro rfl
          rcases hj with hj | hj
          · simp at hj
          · rw [hi] at hj; cases hj
        rw [hts j (by
          rcases hj with hj | hj
          · exact .inl fun hm => hj (List.mem_cons_of_mem _ hm)
          · exact .inr ((hucfg j).trans hj)), huo.others j hji]
      · intro m hm
        rw [htp m fun j hj hjc => ?_, hup m (hm i (by simp) hi)]
        by_cases hji : j = i
        · subst hji; simp
        · rw [Function.update_of_ne hji]
          exact hm j (by simp [hj]) ((hucfg j).symm.trans hjc)
    · rw [Bool.not_eq_true] at hi
      obtain ⟨t, ht, htl, htg, htout, htr, hts, htp⟩ := shutdownEach_linked h hd
      have htcfg : t.configured i = false := by
        show (t.reg i).cfg = false
        rw [hts i (.inr hi)]; exact hi
      refine ⟨t, ?_, ?_, htg, ?_, ?_, ?_, ?_⟩
      · simp only [shutdownEach, shutdownInstance, hi, bind, Except.bind]; exact ht
      · have hset : ∀ j, t.configured j = true →
            (if j ∈ i :: is then [] else Q j) = if j ∈ is then [] else Q j := by
          intro j hj
          have hji : j ≠ i := by rintro rfl; rw [htcfg] at hj; cases hj
          simp [hji]
        refine ⟨fun j hj => ?_, fun j hj => ?_, fun j k hj hk hjk => ?_, fun j hj => ?_, fun n hn => ?_,
          fun j hj => ?_⟩
        · simp only [hset j hj]; exact htl.chain j hj
        · simp only [hset j hj]; exact htl.nodup j hj
        · simp only [hset j hj, hset k hk]; exact htl.disjoint j k hj hk hjk
        · simp only [hset j hj]; exact htl.notFree j hj
        · rcases htl.covered n hn with hf | ⟨j, hj, hm⟩
          · exact .inl hf
          · exact .inr ⟨j, hj, by simp only [hset j hj]; exact hm⟩
        · simp only [hset j hj]; exact htl.tail j hj
      · rw [htout, List.filter_cons_of_neg (by simp [hi])]
      · intro j hj hjc
        have hji : j ≠ i := by rintro rfl; rw [hi] at hjc; cases hjc
        exact htr j ((List.mem_cons.mp hj).resolve_left hji) hjc
      · intro j hj
        by_cases hji : j = i
        · subst hji; exact hts j (.inr hi)
        · refine hts j (hj.imp_left fun hm hj => hm (List.mem_cons_of_mem _ hj))
      · exact fun m hm => htp m fun j hj => hm j (List.mem_cons_of_mem _ hj)

/-- ShutdownAll (60_exceptions.md R120). -/
theorem shutdownAll_linked {s : State} {Q} (h : Linked s Q) :
    ∃ t, shutdownAll s = .ok t ∧ Linked t (fun _ => []) ∧ SameGlobals s t ∧
      t.outputs = s.outputs ++ s.configuredIds.flatMap (cancelsOf s) ∧
      (∀ i, s.configured i = true → ∃ tail, t.reg i = stoppedRegisters (s.reg i) tail) ∧
      (∀ i, s.configured i = false → t.reg i = s.reg i) ∧
      (∀ m, (∀ i, s.configured i = true → m ∉ Q i) → t.pool[m]? = s.pool[m]?) := by
  obtain ⟨t, ht, htl, htg, htout, htr, hts, htp⟩ := shutdownEach_linked h List.nodup_range
  have hlt : ∀ i, s.configured i = true → i ∈ List.range s.nInst := fun i hi =>
    List.mem_range.mpr (lt_of_configured hi)
  refine ⟨t, ht, ?_, htg, htout, fun i hi => htr i (hlt i hi) hi, fun i hi => hts i (.inr hi),
    fun m hm => htp m fun i _ => hm i⟩
  have hcfg : ∀ i, t.configured i = true → i ∈ List.range s.nInst := fun i hi => by
    rw [← htg.nInst]; exact List.mem_range.mpr (lt_of_configured hi)
  refine ⟨fun i hi => ?_, fun _ _ => List.nodup_nil, fun _ _ _ _ _ => by simp, fun _ _ _ h => by simp at h,
    fun n hn => ?_, fun _ _ t ht => by simp at ht⟩
  · simpa only [if_pos (hcfg i hi)] using htl.chain i hi
  · rcases htl.covered n hn with hf | ⟨i, hi, hm⟩
    · exact .inl hf
    · rw [if_pos (hcfg i hi)] at hm; simp at hm

/-- Fatal entry (60_exceptions.md R118): the code is saved, every configured instance is stopped with
its queue drained, the latch is set. -/
theorem fatalEntry_linked {s : State} {Q} (h : Linked s Q) (code : ErrorCode) :
    ∃ t, fatalEntry code s = .ok t ∧ Linked t (fun _ => []) ∧
      t.fwdBit = s.fwdBit ∧ t.nInst = s.nInst ∧ t.poolNodes = s.poolNodes ∧ t.shut = true ∧
      t.err = code.code ∧ t.inputs = s.inputs ∧ t.resets = s.resets ∧
      t.outputs = s.outputs ++ s.configuredIds.flatMap (cancelsOf s) ∧
      (∀ i, s.configured i = true → ∃ tail, t.reg i = stoppedRegisters (s.reg i) tail) ∧
      (∀ i, s.configured i = false → t.reg i = s.reg i) ∧
      (∀ m, (∀ i, s.configured i = true → m ∉ Q i) → t.pool[m]? = s.pool[m]?) := by
  have h' : Linked { s with err := code.code } Q := linked_congr h rfl fun _ => ⟨rfl, rfl, rfl⟩
  obtain ⟨t, ht, htl, htg, htout, htr, hts, htp⟩ := shutdownAll_linked h'
  refine ⟨{ t with shut := true }, ?_, linked_congr htl rfl fun _ => ⟨rfl, rfl, rfl⟩, htg.fwdBit, htg.nInst,
    htg.poolNodes, rfl, htg.err, htg.inputs, htg.resets, htout, htr, hts, htp⟩
  simp only [fatalEntry, ht, bind, Except.bind]; rfl

end Sys2Proof.Machine
end

