-- ==== Sys2Proof/Laws/Enqueue.lean ====
section
/-! SUPPORT. What Append and ENQUEUE's body do to a state whose queues are linked. -/

namespace Sys2Proof.Machine

/-- Putting a node `n` that was free behind the queue of `i` keeps the queues linked. -/
theorem linked_link {s t : State} {Q} (h : Linked s Q) {i : Nat} (hi : s.configured i = true)
    {n : Nat} (hn : s.isFree n = true) (hcfg : ∀ j, t.configured j = s.configured j)
    (ho : ∀ j, j ≠ i → t.reg j = s.reg j) (hl : t.poolNodes = s.poolNodes)
    (hnew : t.pool[n]?.map (·.node.next) = some none) (hnf : t.isFree n = false)
    (hfree : ∀ m, m ≠ n → t.isFree m = s.isFree m)
    (hnext : ∀ m, m ≠ n → (Q i).getLast? ≠ some m →
      t.pool[m]?.map (·.node.next) = s.pool[m]?.map (·.node.next))
    (htail : ∀ m, (Q i).getLast? = some m → t.pool[m]?.map (·.node.next) = some (some n))
    (hhead : (t.reg i).qhead = if Q i = [] then some n else (s.reg i).qhead)
    (hqt : (t.reg i).qtail = some n) : Linked t (Function.update Q i (Q i ++ [n])) := by
  have hfresh : ∀ j, s.configured j = true → n ∉ Q j := fun j hj hm => by
    rw [h.notFree j hj n hm] at hn; cases hn
  have hsub : ∀ j m, m ∈ Function.update Q i (Q i ++ [n]) j → m = n ∨ m ∈ Q j := by
    intro j m hm
    by_cases hji : j = i
    · subst hji
      rw [Function.update_self, List.mem_append, List.mem_singleton] at hm
      exact hm.symm
    · rw [Function.update_of_ne hji] at hm; exact .inr hm
  refine ⟨fun j hj => ?_, fun j hj => ?_, fun j k hj hk hjk => ?_, fun j hj m hm => ?_, fun m hm => ?_,
    fun j hj u hu => ?_⟩
  · rw [hcfg] at hj
    by_cases hji : j = i
    · subst hji
      rw [Function.update_self, hhead]
      split
      · rename_i hq
        rw [hq]
        obtain ⟨p, hp, he⟩ := Option.map_eq_some_iff.mp hnew
        exact ⟨rfl, p, hp, he⟩
      · rename_i hq
        obtain ⟨tl, htl⟩ := Option.ne_none_iff_exists'.mp
          (mt List.getLast?_eq_none_iff.mp hq)
        refine chain_snoc hnew (h.chain j hj) (h.nodup j hj) htl (htail tl htl) fun m hm hmt => ?_
        refine hnext m (fun hmn => hfresh j hj (hmn ▸ hm)) fun hlast => hmt ?_
        rw [htl] at hlast; exact (Option.some.inj hlast).symm
    · rw [Function.update_of_ne hji, ho j hji]
      refine chain_congr (fun m hm => ?_) (h.chain j hj)
      refine hnext m (fun hmn => hfresh j hj (hmn ▸ hm)) fun hlast => ?_
      exact h.disjoint i j hi hj (Ne.symm hji) (List.mem_of_getLast? hlast) hm
  · rw [hcfg] at hj
    by_cases hji : j = i
    · subst hji
      rw [Function.update_self]
      exact List.nodup_append.mpr ⟨h.nodup j hj, List.nodup_singleton n, fun a ha b hb => by
        rw [List.mem_singleton] at hb; subst hb; rintro rfl; exact hfresh j hj ha⟩
    · rw [Function.update_of_ne hji]; exact h.nodup j hj
  · rw [hcfg] at hj hk
    intro m hmj hmk
    by_cases hmn : m = n
    · subst hmn
      by_cases hji : j = i
      · rw [Function.update_of_ne (by rintro rfl; exact hjk hji)] at hmk
        exact hfresh k hk hmk
      · rw [Function.update_of_ne hji] at hmj
        exact hfresh j hj hmj
    · exact h.disjoint j k hj hk hjk ((hsub j m hmj).resolve_left hmn)
        ((hsub k m hmk).resolve_left hmn)
  · rw [hcfg] at hj
    by_cases hmn : m = n
    · rw [hmn, hnf]
    · rw [hfree m hmn]; exact h.notFree j hj m ((hsub j m hm).resolve_left hmn)
  · by_cases hmn : m = n
    · exact .inr ⟨i, (hcfg i).trans hi, by simp [hmn]⟩
    · rw [hfree m hmn]
      rcases h.covered m (hl ▸ hm) with hf | ⟨j, hj, hmj⟩
      · exact .inl hf
      · refine .inr ⟨j, (hcfg j).trans hj, ?_⟩
        by_cases hji : j = i
        · subst hji; rw [Function.update_self]; exact List.mem_append_left _ hmj
        · rwa [Function.update_of_ne hji]
  · rw [hcfg] at hj
    by_cases hji : j = i
    · subst hji
      rw [Function.update_self, List.getLast?_append] at hu
      rw [hqt]; simpa using hu
    · rw [Function.update_of_ne hji] at hu
      rw [ho j hji]; exact h.tail j hj u hu

/-- The record of ENQUEUE written to the node that Alloc took. -/
def writtenSegment (s : State) (n : Nat) (nd : Node) : State :=
  { s.takeNode n with pool := s.pool.modify n fun _ => ⟨false, nd⟩ }

theorem modifyNode_takeNode {s : State} {n : Nat} (h : n < s.poolNodes) (nd : Node) :
    (s.takeNode n).modifyNode n (fun _ => nd) = .ok (writtenSegment s n nd) := by
  rw [modifyNode_eq (by simpa using h)]
  simp [writtenSegment, State.takeNode, List.modify_modify_eq, Function.comp_def]

/-- Append of a freshly written node (40_motion_queue.md R82): the queue of `i` gets the new segment at
its tail. Only the new node and the old tail's link are written. -/
theorem append_linked {s : State} {Q} (h : Linked s Q) {i : Nat} (hi : s.configured i = true)
    {n : Nat} (hn : s.isFree n = true) (nd : Node) (hnd : nd.next = none) :
    ∃ t head, append i n (writtenSegment s n nd) = .ok t ∧
      Linked t (Function.update Q i (Q i ++ [n])) ∧ OnlyInstance i s t ∧
      t.outputs = s.outputs ∧ t.reg i = { s.reg i with qhead := head, qtail := some n } ∧
      t.nodeAt n = nd ∧
      (∀ m, m ≠ n → (t.nodeAt m).segment = (s.nodeAt m).segment) ∧
      (∀ m, m ≠ n → (Q i).getLast? ≠ some m → t.pool[m]? = s.pool[m]?) := by
  have hlt := lt_of_configured hi
  have hnl : n < s.poolNodes := isFree_lt hn
  have hnl' : n < s.pool.length := hnl
  let u : State := { s.takeNode n with pool := s.pool.modify n fun _ => ⟨false, nd⟩ }
  have hwrite : (writtenSegment s n nd).modifyNode n (fun nd => { nd with next := none }) =
      .ok u := by
    rw [modifyNode_eq (by simpa [writtenSegment, State.poolNodes] using hnl)]
    simp only [writtenSegment, u, List.modify_modify_eq, Function.comp_def]
    have : ({ nd with next := none } : Node) = nd := by rw [← hnd]
    rw [this]
  have hup : ∀ m, m ≠ n → u.pool[m]? = s.pool[m]? := fun m hm => by
    simp [u, Ne.symm hm]
  have hun : u.pool[n]? = some ⟨false, nd⟩ := by
    simp [u, hnl']
  have hul : u.poolNodes = s.poolNodes := by simp [u, State.poolNodes]
  have hur : ∀ j, u.reg j = s.reg j := fun _ => rfl
  have hui : i < u.nInst := hlt
  rcases hq : Q i with _ | ⟨a, l⟩
  · have hh : (s.reg i).qhead = none := qhead_of_linked_nil h hi hq
    let t := u.setReg i { u.reg i with qhead := some n, qtail := some n }
    have htr : t.reg i = { s.reg i with qhead := some n, qtail := some n } := reg_setReg_self hui _
    have hto : OnlyInstance i s t :=
      ⟨rfl, by simp [t, u, State.nInst], hul, rfl, rfl, rfl, rfl, fun j hj => by simp [t, hj, hur]⟩
    have htc : ∀ j, t.configured j = s.configured j := hto.configured (by
      show (t.reg i).cfg = (s.reg i).cfg; rw [htr])
    refine ⟨t, some n, ?_, ?_, hto, rfl, htr, nodeAt_of_getElem? hun, fun m hm => ?_, fun m hm _ => hup m hm⟩
    · simp only [append, hwrite, bind, Except.bind, hur, hh, pure, Except.pure, t]
    · have := linked_link h hi hn (t := t) htc hto.others hto.poolNodes (by simp [t, hun, hnd])
        (isFree_of_getElem? (s := t) hun) (fun m hm => isFree_congr (hup m hm))
        (fun m hm _ => by rw [show t.pool = u.pool from rfl, hup m hm])
        (fun m hm => by rw [hq] at hm; simp at hm) (by rw [htr, if_pos hq]) (by rw [htr])
      rwa [hq] at this
    · rw [nodeAt_congr (s := s) (t := t) (hup m hm)]
  · have hh : (s.reg i).qhead = some a := (link_of_linked h hi hq).2.2.1
    obtain ⟨tl, htl⟩ := Option.ne_none_iff_exists'.mp
      (mt List.getLast?_eq_none_iff.mp (by rw [hq]; simp : Q i ≠ []))
    have hqt : (s.reg i).qtail = some tl := h.tail i hi tl htl
    have htlm : tl ∈ Q i := List.mem_of_getLast? htl
    have htln : tl ≠ n := by
      rintro rfl; rw [h.notFree i hi tl htlm] at hn; cases hn
    have htll : tl < s.poolNodes := chain_lt (h.chain i hi) tl htlm
    let v : State :=
      { u with pool := u.pool.modify tl fun p => { p with node := { p.node with next := some n } } }
    have hvw : u.modifyNode tl (fun nd => { nd with next := some n }) = .ok v :=
      modifyNode_eq (by rw [hul]; exact htll) _
    have hvp : ∀ m, m ≠ tl → v.pool[m]? = u.pool[m]? := fun m hm => by
      simp [v, Ne.symm hm]
    have hvt : v.pool[tl]? = some ⟨s.isFree tl, { s.nodeAt tl with next := some n }⟩ := by
      simp [v, hup tl htln, getElem?_slot htll]
    let t := v.setReg i { u.reg i with qtail := some n }
    have htr : t.reg i = { s.reg i with qhead := (s.reg i).qhead, qtail := some n } :=
      reg_setReg_self (s := v) hui _
    have hto : OnlyInstance i s t :=
      ⟨rfl, by simp [t, v, u, State.nInst], by
        show v.pool.length = _; rw [← hul]; simp [v, State.poolNodes], rfl, rfl, rfl, rfl,
        fun j hj => by
          show (v.setReg i _).reg j = _
          rw [reg_setReg_ne hj]; rfl⟩
    have htc : ∀ j, t.configured j = s.configured j := hto.configured (by
      show (t.reg i).cfg = (s.reg i).cfg; rw [htr])
    have htn : t.pool[n]? = some ⟨false, nd⟩ := (hvp n (Ne.symm htln)).trans hun
    have hto' : ∀ m, m ≠ n → m ≠ tl → t.pool[m]? = s.pool[m]? := fun m hm hmt =>
      (hvp m hmt).trans (hup m hm)
    refine ⟨t, (s.reg i).qhead, ?_, ?_, hto, rfl, htr, nodeAt_of_getElem? htn, fun m hm => ?_,
      fun m hm hmt => ?_⟩
    · simp only [append, hwrite, bind, Except.bind, hur, hh, hqt, pure, Except.pure, hvw, t]
    · have := linked_link h hi hn (t := t) htc hto.others hto.poolNodes (by simp [htn, hnd])
        (isFree_of_getElem? htn) (fun m hm => ?_) (fun m hm hml => ?_) (fun m hm => ?_)
        (by rw [htr, if_neg (by rw [hq]; simp)]) (by rw [htr])
      · rwa [hq] at this
      · by_cases hmt : m = tl
        · subst hmt; exact isFree_of_getElem? (s := t) hvt
        · exact isFree_congr (hto' m hm hmt)
      · rw [hto' m hm (by rintro rfl; exact hml htl)]
      · rw [htl] at hm
        cases hm
        show v.pool[tl]?.map _ = _
        rw [hvt]; rfl
    · by_cases hmt : m = tl
      · subst hmt
        rw [nodeAt_of_getElem? (s := t) hvt]; rfl
      · rw [nodeAt_congr (hto' m hm hmt)]
    · refine hto' m hm ?_
      rintro rfl
      rw [← hq] at hmt
      exact hmt htl

/-- The body of ENQUEUE on an Active instance (42_producer_commands.md R98): append only. -/
theorem enqueueOn_active {s : State} {Q} (h : Linked s Q) {i : Nat} (hi : s.configured i = true)
    (ha : (s.reg i).active = true) {n : Nat} (hn : s.isFree n = true) (interval : Word)
    (count delta : Half) :
    ∃ t head, enqueueOn i n interval count delta s = .ok t ∧
      Linked t (Function.update Q i (Q i ++ [n])) ∧ OnlyInstance i s t ∧
      t.outputs = s.outputs ∧ t.reg i = { s.reg i with qhead := head, qtail := some n } ∧
      t.nodeAt n = newSegment interval count delta (s.reg i).ndir ∧
      (∀ m, m ≠ n → (t.nodeAt m).segment = (s.nodeAt m).segment) ∧
      (∀ m, m ≠ n → (Q i).getLast? ≠ some m → t.pool[m]? = s.pool[m]?) := by
  obtain ⟨t, head, ht, hl, ho, hout, hr, hnd, hseg, hp⟩ :=
    append_linked h hi hn (newSegment interval count delta (s.reg i).ndir) rfl
  refine ⟨t, head, ?_, hl, ho, hout, hr, hnd, hseg, hp⟩
  have hta : (t.reg i).active = true := by rw [hr]; exact ha
  simp only [enqueueOn, modifyNode_takeNode (isFree_lt hn), bind, Except.bind, ht, hta, if_true]; rfl

/-- The body of ENQUEUE on an Idle instance with an empty queue (R98): the segment appended is loaded at
once, and its node is free again. -/
theorem enqueueOn_idle {s : State} {Q} (h : Linked s Q) {i : Nat} (hi : s.configured i = true)
    (ha : (s.reg i).active = false) (hq : Q i = []) {n : Nat} (hn : s.isFree n = true)
    (interval : Word) (count delta : Half) :
    ∃ t tail, enqueueOn i n interval count delta s = .ok t ∧ Linked t Q ∧ OnlyInstance i s t ∧
      t.outputs = s.outputs ++ [.arm i ((s.reg i).wake + interval)] ∧
      t.reg i = { loadRegisters (s.reg i) (newSegment interval count delta (s.reg i).ndir) with
        qhead := none, qtail := tail, timer := some ((s.reg i).wake + interval) } ∧
      (∀ m, m ≠ n → t.pool[m]? = s.pool[m]?) := by
  obtain ⟨u, head, hu, hul, huo, huout, hur, hund, -, hup⟩ :=
    append_linked h hi hn (newSegment interval count delta (s.reg i).ndir) rfl
  have hui : u.configured i = true := by
    show (u.reg i).cfg = true
    rw [hur]; exact hi
  rw [hq] at hul
  obtain ⟨t, tail, ht, htl, hto, htout, htr, htp⟩ :=
    load_cons hul hui (n := n) (l := []) (by simp)
  have hua : (u.reg i).active = false := by rw [hur]; exact ha
  refine ⟨t, tail, ?_, ?_, huo.trans hto, ?_, ?_, fun m hm => ?_⟩
  · simp only [enqueueOn, modifyNode_takeNode (isFree_lt hn), bind, Except.bind, hu, hua]; exact ht
  · rw [Function.update_idem, ← hq, Function.update_eq_self] at htl; exact htl
  · rw [htout, huout, hund, hur]; rfl
  · rw [htr, hund, hur]; rfl
  · rw [htp m hm, hup m hm (by rw [hq]; simp)]

end Sys2Proof.Machine
end

