-- ==== Sys2Proof/Laws/Step.lean ====
section
/-! SUPPORT. What FIRE, dispatch, CONFIGURE, block reset and the step do. -/

namespace Sys2Proof.Machine

/-! ## FIRE (41_stepping_engine.md R86) -/

/-- FIRE while steps remain: step, advance, rearm. -/
theorem fire_rearm {i : Nat} {s : State} (hi : i < s.nInst) (hc : (s.reg i).cnt - 1 ≠ 0) :
    fire i s = .ok (arm i ((s.reg i).wake + (s.reg i).ivl)
      (s.setReg i (advanceRegisters (takeStep s.fwdBit (s.reg i))))) := by
  have h2 : (s.setReg i (takeStep s.fwdBit (s.reg i))).reg i = takeStep s.fwdBit (s.reg i) :=
    reg_setReg_self hi _
  have h3 : (takeStep s.fwdBit (s.reg i)).cnt = (s.reg i).cnt := rfl
  have h4 : ((s.setReg i (advanceRegisters (takeStep s.fwdBit (s.reg i)))).reg i).wake =
      (s.reg i).wake + (s.reg i).ivl := by rw [reg_setReg_self hi]; rfl
  simp only [fire, h2, h3, ne_eq, hc, not_false_eq_true, if_true, setReg_setReg, h4]

/-- FIRE on the last step of a segment: step, then Load. -/
theorem fire_last {i : Nat} {s : State} (hi : i < s.nInst) (hc : (s.reg i).cnt - 1 = 0) :
    fire i s = load i (s.setReg i (takeStep s.fwdBit (s.reg i))) := by
  have h2 : (s.setReg i (takeStep s.fwdBit (s.reg i))).reg i = takeStep s.fwdBit (s.reg i) :=
    reg_setReg_self hi _
  have h3 : (takeStep s.fwdBit (s.reg i)).cnt = (s.reg i).cnt := rfl
  simp only [fire, h2, h3, ne_eq, hc, not_true, if_false]

/-- FIRE on the last step with the queue empty: the instance goes Idle (R87). -/
theorem fire_last_nil {i : Nat} {s : State} (hi : i < s.nInst) (hc : (s.reg i).cnt - 1 = 0)
    (hq : (s.reg i).qhead = none) :
    fire i s = .ok (s.setReg i { takeStep s.fwdBit (s.reg i) with cnt := 0 }) := by
  rw [fire_last hi hc, load_nil (by rw [reg_setReg_self hi]; exact hq), reg_setReg_self hi,
    setReg_setReg]

/-- FIRE on the last step with a segment queued: step, then that segment is loaded (R88). -/
theorem fire_last_cons {i : Nat} {s : State} {Q} (h : Linked s Q) (hi : s.configured i = true)
    (hc : (s.reg i).cnt - 1 = 0) {n l} (hq : Q i = n :: l) :
    ∃ t tail, fire i s = .ok t ∧ Linked t (Function.update Q i l) ∧ OnlyInstance i s t ∧
      t.outputs = s.outputs ++ [.arm i ((s.reg i).wake + (s.nodeAt n).interval)] ∧
      t.reg i = { loadRegisters (takeStep s.fwdBit (s.reg i)) (s.nodeAt n) with
        qhead := (s.nodeAt n).next, qtail := tail,
        timer := some ((s.reg i).wake + (s.nodeAt n).interval) } ∧
      (∀ m, m ≠ n → t.pool[m]? = s.pool[m]?) := by
  have hlt := lt_of_configured hi
  let u := s.setReg i (takeStep s.fwdBit (s.reg i))
  have hur : u.reg i = takeStep s.fwdBit (s.reg i) := reg_setReg_self hlt _
  have hul : Linked u Q := linked_setReg h ⟨rfl, rfl, rfl⟩
  have hui : u.configured i = true := by
    show (u.reg i).cfg = true
    rw [hur]; exact hi
  obtain ⟨t, tail, ht, htl, hto, htout, htr, htp⟩ := load_cons hul hui hq
  refine ⟨t, tail, by rw [fire_last hlt hc]; exact ht, htl, (onlyInstance_setReg i s _).trans hto, ?_,
    ?_, htp⟩
  · rw [htout, hur]; rfl
  · rw [htr, hur]; rfl

theorem fireEvent_armed {i : Nat} {s : State} (h : s.armed i = true) :
    fireEvent i s = commit (fire i s) := by simp [fireEvent, h]

theorem fireEvent_unarmed {i : Nat} {s : State} (h : s.armed i = false) :
    fireEvent i s = .refused (.fireNotArmed i) := by simp [fireEvent, h]

theorem armed_iff {s : State} {i : Nat} :
    s.armed i = true ↔ s.configured i = true ∧ s.shut = false ∧ (s.reg i).active = true := by
  simp [State.armed, and_assoc]

theorem active_iff {r : Stepper} : r.active = true ↔ r.cnt ≠ 0 := by simp [Stepper.active]

theorem not_active_iff {r : Stepper} : r.active = false ↔ r.cnt = 0 := by simp [Stepper.active]

/-! ## Dispatch (42_producer_commands.md R96) -/

theorem unlessShut_of_shut {s : State} (h : s.shut = true) (body) : unlessShut s body = .next s := by
  simp [unlessShut, h]

theorem unlessShut_of_running {s : State} (h : s.shut = false) (body) :
    unlessShut s body = body := by simp [unlessShut, h]

theorem onInstance_shut {s : State} (h : s.shut = true) (oid body) :
    onInstance oid s body = .next s := by simp [onInstance, unlessShut, h]

theorem onInstance_configured {s : State} {oid : Oid} (h : s.shut = false)
    (hi : s.configured (instanceIndex oid) = true) (body) :
    onInstance oid s body = body (instanceIndex oid) := by simp [onInstance, unlessShut, h, hi]

theorem onInstance_unconfigured {s : State} {oid : Oid} (h : s.shut = false)
    (hi : s.configured (instanceIndex oid) = false) (body) :
    onInstance oid s body = raiseFatal .typeMismatch s := by simp [onInstance, unlessShut, h, hi]

/-- What dispatch can answer: the word is discarded, TypeMismatch is raised, or the body runs. -/
theorem onInstance_cases (oid : Oid) (s : State) (body) :
    (s.shut = true ∧ onInstance oid s body = .next s) ∨
    (s.shut = false ∧ s.configured (instanceIndex oid) = false ∧
      onInstance oid s body = raiseFatal .typeMismatch s) ∨
    (s.shut = false ∧ s.configured (instanceIndex oid) = true ∧
      onInstance oid s body = body (instanceIndex oid)) := by
  rcases hs : s.shut with _ | _
  · rcases hi : s.configured (instanceIndex oid) with _ | _
    · exact .inr (.inl ⟨rfl, rfl, onInstance_unconfigured hs hi body⟩)
    · exact .inr (.inr ⟨rfl, rfl, onInstance_configured hs hi body⟩)
  · exact .inl ⟨rfl, onInstance_shut hs oid body⟩

/-! ## Outcomes -/

@[simp] theorem commit_ok (s : State) : commit (.ok s) = .next s := rfl
@[simp] theorem commit_error (f : Fault) : commit (.error f) = .fault f := rfl

theorem commit_eq_next {r : Result} {t : State} : commit r = .next t ↔ r = .ok t := by
  cases r <;> simp

theorem commit_ne_refused {r : Result} {x : Refusal} : commit r ≠ .refused x := by
  cases r <;> simp

/-! ## The step -/

theorem step_wait {s : State} (h : s.inputs = []) : step s = .next s := by
  simp [step, takeInput, h]

theorem step_event {s : State} {e : Event} {es : List Event} (h : s.inputs = e :: es) :
    step s = handleEvent e { s with inputs := es } := by simp [step, takeInput, h]

theorem executeWord_legal {w : CommandWord} {i : Instr} {s : State} (h : s.shut = false)
    (hd : decode w = .ok i) : executeWord w s = exec i s := by simp [executeWord, unlessShut, h, hd]

theorem executeWord_illegal {w : CommandWord} {s : State} {e} (h : s.shut = false)
    (hd : decode w = .error e) : executeWord w s = raiseFatal .reservedEncoding s := by
  simp [executeWord, unlessShut, h, hd]

theorem executeWord_shut {w : CommandWord} {s : State} (h : s.shut = true) :
    executeWord w s = .next s := by simp [executeWord, unlessShut, h]

/-! ## Runs -/

theorem runEvents_nil (s : State) : runEvents [] s = .next (s.withInputs []) := rfl

theorem run_next {M : Host.Core} {k : Nat} {s t : M.State} (h : M.step s = .next t) :
    M.run (k + 1) s = M.run k t := by
  rw [Host.Core.run, h]

/-- A run on `e` and then `es` is the step on `e`, and from its next state the run on `es`. -/
theorem runEvents_cons {s t : State} {e : Event} {es : List Event}
    (h : handleEvent e (s.withInputs es) = .next t) (ht : t.inputs = es) :
    runEvents (e :: es) s = runEvents es t := by
  have hs : Sys2Proof.core.step (s.withInputs (e :: es)) = .next t := h
  have ht' : t.withInputs es = t := by rw [← ht]; rfl
  unfold runEvents runSteps
  rw [List.length_cons, ht']
  exact run_next hs

/-! ## CONFIGURE and block reset -/

theorem reg_configureInstance_self {i : Nat} {s : State} (h : i < s.nInst) :
    (configureInstance i s).reg i = initRegisters (Config.configurePosition s.resets i)
      (Config.emptyQueueTail s.hiddenDraws) := reg_setReg_self h _

theorem reg_configureInstance_ne {i j : Nat} {s : State} (h : j ≠ i) :
    (configureInstance i s).reg j = s.reg j := reg_setReg_ne h _

/-- Creating an instance on a slot that had none gives it an empty queue and leaves the others' queues
(42_producer_commands.md R97). -/
theorem configureInstance_linked {i : Nat} {s : State} {Q} (h : Linked s Q) (hlt : i < s.nInst)
    (hi : s.configured i = false) :
    Linked (configureInstance i s) (Function.update Q i []) := by
  have hr := reg_configureInstance_self hlt
  have ho : ∀ j, j ≠ i → (configureInstance i s).reg j = s.reg j := fun j => reg_configureInstance_ne
  have hc : ∀ j, j ≠ i → (configureInstance i s).configured j = s.configured j := fun j hj => by
    simp only [State.configured, ho j hj]
  have hf : ∀ n, (configureInstance i s).isFree n = s.isFree n := fun n => rfl
  have hne : ∀ j, s.configured j = true → j ≠ i := by
    rintro j hj rfl; rw [hi] at hj; cases hj
  refine ⟨fun j hj => ?_, fun j hj => ?_, fun j k hj hk hjk => ?_, fun j hj n hn => ?_, fun n hn => ?_,
    fun j hj t ht => ?_⟩
  · by_cases hji : j = i
    · subst hji; rw [Function.update_self, hr]; rfl
    · rw [Function.update_of_ne hji, ho j hji]
      exact h.chain j (by rwa [hc j hji] at hj)
  · by_cases hji : j = i
    · subst hji; simp
    · rw [Function.update_of_ne hji]; exact h.nodup j (by rwa [hc j hji] at hj)
  · by_cases hji : j = i
    · subst hji; simp
    · by_cases hki : k = i
      · subst hki; simp
      · rw [Function.update_of_ne hji, Function.update_of_ne hki]
        exact h.disjoint j k (by rwa [hc j hji] at hj) (by rwa [hc k hki] at hk) hjk
  · by_cases hji : j = i
    · subst hji; simp at hn
    · rw [Function.update_of_ne hji] at hn
      rw [hf]; exact h.notFree j (by rwa [hc j hji] at hj) n hn
  · rw [hf]
    rcases h.covered n hn with hfree | ⟨j, hj, hm⟩
    · exact .inl hfree
    · have hji := hne j hj
      exact .inr ⟨j, by rwa [hc j hji], by rwa [Function.update_of_ne hji]⟩
  · by_cases hji : j = i
    · subst hji; simp at ht
    · rw [Function.update_of_ne hji] at ht
      rw [ho j hji]; exact h.tail j (by rwa [hc j hji] at hj) t ht

@[simp] theorem blockReset_shut (s : State) : (blockReset s).shut = false := rfl
@[simp] theorem blockReset_err (s : State) : (blockReset s).err = 0 := rfl
@[simp] theorem blockReset_outputs (s : State) : (blockReset s).outputs = [] := rfl
@[simp] theorem blockReset_resets (s : State) : (blockReset s).resets = s.resets + 1 := rfl
@[simp] theorem blockReset_hiddenDraws (s : State) :
    (blockReset s).hiddenDraws = s.hiddenDraws := rfl
@[simp] theorem blockReset_inputs (s : State) : (blockReset s).inputs = s.inputs := rfl
@[simp] theorem blockReset_fwdBit (s : State) : (blockReset s).fwdBit = s.fwdBit := rfl
@[simp] theorem blockReset_nInst (s : State) : (blockReset s).nInst = s.nInst := by
  simp [blockReset, State.resetWith, State.params, State.nInst]
@[simp] theorem blockReset_poolNodes (s : State) : (blockReset s).poolNodes = s.poolNodes := by
  simp [blockReset, State.resetWith, State.params, State.poolNodes]

@[simp] theorem reg_resetWith (p : Params) (i : Nat) :
    (State.resetWith p).reg i = Stepper.unconfigured := by
  simp only [State.reg, State.resetWith, List.getD_eq_getElem?_getD, List.getElem?_replicate]
  split <;> rfl

@[simp] theorem reg_blockReset (s : State) (i : Nat) :
    (blockReset s).reg i = Stepper.unconfigured := reg_resetWith s.params i

theorem isFree_resetWith {p : Params} {n : Nat} (h : n < p.poolNodes) :
    (State.resetWith p).isFree n = true := by
  simp [State.isFree, State.resetWith, h, PoolSlot.untouched]

/-- After block reset no queue exists and every node is free (70_reset_and_hazards.md R136). -/
theorem resetWith_linked (p : Params) (Q) : Linked (State.resetWith p) Q := by
  have hc : ∀ i, (State.resetWith p).configured i = false := fun i => by
    simp only [State.configured, reg_resetWith]; rfl
  have absurdCfg : ∀ {i} {P : Prop}, (State.resetWith p).configured i = true → P := by
    intro i P hi; rw [hc] at hi; cases hi
  refine ⟨fun _ => absurdCfg, fun _ => absurdCfg, fun _ _ => absurdCfg, fun _ => absurdCfg,
    fun n hn => .inl (isFree_resetWith ?_), fun _ => absurdCfg⟩
  simpa [State.poolNodes, State.resetWith] using hn

theorem blockReset_linked (s : State) (Q) : Linked (blockReset s) Q :=
  linked_congr (resetWith_linked s.params Q) rfl fun _ => ⟨rfl, rfl, rfl⟩

end Sys2Proof.Machine
end

