-- ==== Sys2Proof/Laws/Invariant.lean ====
section
/-! SUPPORT. From the invariant to linked queues and back, and once what a command and a FIRE do to a
state with the invariant. -/

namespace Sys2Proof.Machine

/-! ## The invariant -/

theorem linked_of_inv {s : State} (h : s.Inv) : Linked s s.chain :=
  linked_of_queuesOk h.2.1 h.2.2.1 h.2.2.2.1

/-- What the invariant says beyond linked queues, instance by instance. -/
structure InstancesOk (s : State) : Prop where
  idleEmpty : ∀ i, s.configured i = true → (s.reg i).active = false → s.chain i = []
  counts : ∀ i, s.configured i = true → ∀ n ∈ s.chain i, (s.nodeAt n).count ≠ 0
  timer : ∀ i, s.configured i = true →
    (s.reg i).timer = if (s.reg i).active then some (s.reg i).wake else none
  timerOff : ∀ i, s.configured i = false → (s.reg i).timer = none
  shutIdle : s.shut = true → ∀ i, s.configured i = true → (s.reg i).active = false

theorem instancesOk_of_inv {s : State} (h : s.Inv) : InstancesOk s := by
  have hl := linked_of_inv h
  obtain ⟨-, -, -, -, hidle, hcount, htimer, hshut, -⟩ := h
  refine ⟨fun i hi ha => (linked_nil_iff hl hi).mpr (hidle i (lt_of_configured hi) hi ha),
    fun i hi n hn => ?_, fun i hi => ?_, fun i hi => ?_,
    fun hs i hi => hshut hs i (lt_of_configured hi) hi⟩
  · exact hcount i (lt_of_configured hi) hi _ (List.mem_map.mpr ⟨n, hn, rfl⟩)
  · simpa [hi] using htimer i (lt_of_configured hi)
  · by_cases hlt : i < s.nInst
    · simpa [hi] using htimer i hlt
    · rw [reg_of_ge (not_lt.mp hlt)]; rfl

theorem inv_of_linked {s : State} {Q} (hp : s.ParamsInRange) (hl : Linked s Q)
    (hidle : ∀ i, s.configured i = true → (s.reg i).active = false → Q i = [])
    (hcount : ∀ i, s.configured i = true → ∀ n ∈ Q i, (s.nodeAt n).count ≠ 0)
    (htimer : ∀ i, s.configured i = true →
      (s.reg i).timer = if (s.reg i).active then some (s.reg i).wake else none)
    (hoff : ∀ i, s.configured i = false → (s.reg i).timer = none)
    (hshut : s.shut = true → ∀ i, s.configured i = true → (s.reg i).active = false)
    (herr : s.ErrMatchesShut) : s.Inv := by
  obtain ⟨he, ho, ht⟩ := queuesOk_of_linked hl
  refine ⟨hp, he, ho, ht, fun i _ hi ha => qhead_of_linked_nil hl hi (hidle i hi ha),
    fun i _ hi g hg => ?_, fun i _ => ?_, fun hs i _ => hshut hs i, herr⟩
  · obtain ⟨n, hn, rfl⟩ := List.mem_map.mp hg
    rw [chain_of_linked hl hi] at hn
    exact hcount i hi n hn
  · rcases hi : s.configured i with _ | _
    · simpa using hoff i hi
    · simpa using htimer i hi

/-- The queue of a configured instance is the segments of its nodes. -/
theorem queue_of_linked {s : State} {Q} (h : Linked s Q) {i : Nat} (hi : s.configured i = true) :
    s.queue i = (Q i).map fun n => (s.nodeAt n).segment := by
  rw [State.queue, chain_of_linked h hi]

theorem mem_ownedNodes {s : State} {n : Nat} :
    n ∈ s.ownedNodes ↔ ∃ i, s.configured i = true ∧ n ∈ s.chain i := by
  simp [State.ownedNodes, List.mem_flatMap, mem_configuredIds]

theorem cancels_eq (s : State) :
    s.configuredIds.flatMap (cancelsOf s) =
      (s.configuredIds.filter fun i => (s.reg i).active).map Output.cancel := by
  induction s.configuredIds with
  | nil => rfl
  | cons i is ih =>
    rw [List.flatMap_cons, ih, cancelsOf]
    rcases h : (s.reg i).active <;> simp [h]

/-- Fatal entry from a state with the invariant (60_exceptions.md R118 to R120). -/
theorem raiseFatal_effect {s : State} (h : s.Inv) (code : ErrorCode) :
    ∃ t, raiseFatal code s = .next t ∧ FatalEffect code s t ∧ Linked t (fun _ => []) := by
  have hok := instancesOk_of_inv h
  obtain ⟨t, ht, htl, h1, h2, h3, h4, h5, h6, h7, h8, h9, h10, h11⟩ :=
    fatalEntry_linked (linked_of_inv h) code
  have hcfg : ∀ i, t.configured i = s.configured i := fun i => by
    rcases hi : s.configured i with _ | _
    · show (t.reg i).cfg = false
      rw [h10 i hi]; exact hi
    · obtain ⟨tl, hr⟩ := h9 i hi
      show (t.reg i).cfg = true
      rw [hr]; exact hi
  refine ⟨t, by rw [raiseFatal, ht]; rfl, ⟨h5, h4, ?_, h6, h7, ?_, fun i hi => ?_, h10, fun n hn => ?_,
    fun n hn => ?_⟩, htl⟩
  · simp only [State.params, h1, h2, h3]
  · rw [h8, cancels_eq]
  · obtain ⟨tl, hr⟩ := h9 i hi
    refine ⟨tl, ?_⟩
    rw [hr]
    have := hok.timer i hi
    rcases ha : (s.reg i).active with _ | _
    · simp [ha] at this
      simp [stoppedRegisters, stopRegisters, ha, this]
    · simp [stoppedRegisters, stopRegisters, ha]
  · rcases htl.covered n (h3 ▸ hn) with hf | ⟨i, _, hm⟩
    · exact hf
    · simp at hm
  · exact h11 n fun i hi hm => hn (mem_ownedNodes.mpr ⟨i, hi, hm⟩)

/-- A node is free exactly when no queue holds it, in terms of the queues before a change. -/
theorem isFree_iff_of_linked {s t : State} {Q} (ht : Linked t Q)
    (hc : ∀ j, t.configured j = s.configured j) (hp : t.poolNodes = s.poolNodes) (m : Nat) :
    t.isFree m = true ↔ m < s.poolNodes ∧ ∀ j, s.configured j = true → m ∉ Q j := by
  constructor
  · refine fun h => ⟨hp ▸ isFree_lt h, fun j hj hm => ?_⟩
    rw [ht.notFree j ((hc j).trans hj) m hm] at h; cases h
  · rintro ⟨h1, h2⟩
    rcases ht.covered m (hp ▸ h1) with h | ⟨j, hj, hm⟩
    · exact h
    · exact absurd hm (h2 j ((hc j).symm.trans hj))

/-- A queue with the same nodes and the same segments in them is the same queue. -/
theorem queue_kept {s t : State} {Q} {j : Nat} (hl : Linked t Q) (hj : t.configured j = true)
    (hq : Q j = s.chain j) (hseg : ∀ n ∈ s.chain j, (t.nodeAt n).segment = (s.nodeAt n).segment) :
    t.queue j = s.queue j := by
  rw [queue_of_linked hl hj, State.queue, hq]
  exact List.map_congr_left hseg

/-- Fatal entry keeps POS and CFG of every slot (60_exceptions.md R120). -/
theorem FatalEffect.kept {code : ErrorCode} {s t : State} (h : FatalEffect code s t) (i : Nat) :
    (t.reg i).pos = (s.reg i).pos ∧ (t.reg i).cfg = (s.reg i).cfg := by
  obtain ⟨-, -, -, -, -, -, h7, h8, -, -⟩ := h
  rcases hc : s.configured i with _ | _
  · rw [h8 i hc]; exact ⟨rfl, rfl⟩
  · obtain ⟨tl, hr⟩ := h7 i hc; rw [hr]; exact ⟨rfl, rfl⟩

/-! ## What a command does -/

/-- The effect of a command on a state with the invariant while `SHUT = 0`, case by case
(42_producer_commands.md R96 to R104). -/
inductive CommandEffect (s : State) : Instr → State → Prop where
  | fatal {c : Instr} {t : State} (code : ErrorCode) (h : FatalEffect code s t)
      (hl : Linked t (fun _ => [])) : CommandEffect s c t
  | configure {oid : Oid} (hlt : oid.toNat < s.nInst) (hc : s.configured oid.toNat = false) :
      CommandEffect s (.configure oid) (configureInstance oid.toNat s)
  | enqueueIdle {oid : Oid} {interval : Word} {count delta : Half} {t : State} {n : Nat} {tail : Link}
      (hc : s.configured oid.toNat = true) (ha : (s.reg oid.toNat).active = false)
      (hcount : count ≠ 0) (hn : s.allocNode (Config.nodeChoice s.hiddenDraws) = some n)
      (hl : Linked t s.chain) (ho : OnlyInstance oid.toNat s t)
      (hout : t.outputs = s.outputs ++ [.arm oid.toNat ((s.reg oid.toNat).wake + interval)])
      (hr : t.reg oid.toNat = { loadRegisters (s.reg oid.toNat)
          (newSegment interval count delta (s.reg oid.toNat).ndir) with
        qhead := none, qtail := tail, timer := some ((s.reg oid.toNat).wake + interval) })
      (hp : ∀ m, m ≠ n → t.pool[m]? = s.pool[m]?) :
      CommandEffect s (.enqueue oid interval count delta) t
  | enqueueActive {oid : Oid} {interval : Word} {count delta : Half} {t : State} {n : Nat} {head : Link}
      (hc : s.configured oid.toNat = true) (ha : (s.reg oid.toNat).active = true)
      (hcount : count ≠ 0) (hn : s.allocNode (Config.nodeChoice s.hiddenDraws) = some n)
      (hl : Linked t (Function.update s.chain oid.toNat (s.chain oid.toNat ++ [n])))
      (ho : OnlyInstance oid.toNat s t) (hout : t.outputs = s.outputs)
      (hr : t.reg oid.toNat = { s.reg oid.toNat with qhead := head, qtail := some n })
      (hnode : t.nodeAt n = newSegment interval count delta (s.reg oid.toNat).ndir)
      (hseg : ∀ m, m ≠ n → (t.nodeAt m).segment = (s.nodeAt m).segment)
      (hp : ∀ m, m ≠ n → (s.chain oid.toNat).getLast? ≠ some m → t.pool[m]? = s.pool[m]?) :
      CommandEffect s (.enqueue oid interval count delta) t
  | setNextDir {oid : Oid} {dir : Bit} (hc : s.configured oid.toNat = true) :
      CommandEffect s (.setNextDir oid dir)
        (s.setReg oid.toNat { s.reg oid.toNat with ndir := dir })
  | resetClock {oid : Oid} {time : Word} (hc : s.configured oid.toNat = true)
      (ha : (s.reg oid.toNat).active = false) :
      CommandEffect s (.resetClock oid time)
        (s.setReg oid.toNat { s.reg oid.toNat with wake := time })
  | getPosition {oid : Oid} (hc : s.configured oid.toNat = true) :
      CommandEffect s (.getPosition oid)
        (s.emit (.report (reportWord oid (s.reg oid.toNat).pos)))
  | setPosition {oid : Oid} {value : Word} (hc : s.configured oid.toNat = true) :
      CommandEffect s (.setPosition oid value)
        (s.setReg oid.toNat { s.reg oid.toNat with pos := value })
  | stop {oid : Oid} {t : State} {tail : Link} (hc : s.configured oid.toNat = true)
      (hl : Linked t (Function.update s.chain oid.toNat [])) (ho : OnlyInstance oid.toNat s t)
      (hout : t.outputs = s.outputs ++ cancelsOf s oid.toNat)
      (hr : t.reg oid.toNat = { stopRegisters (s.reg oid.toNat) with
        qhead := none, qtail := tail, timer := none })
      (hp : ∀ m, m ∉ s.chain oid.toNat → t.pool[m]? = s.pool[m]?) :
      CommandEffect s (.stop oid) t

/-- Once for every command: from a state with the invariant, while `SHUT = 0`, it answers a next state,
and that state is one of the effects. -/
theorem exec_effect {s : State} (h : s.Inv) (hs : s.shut = false) (c : Instr) :
    ∃ t, exec c s = .next t ∧ CommandEffect s c t := by
  have hl := linked_of_inv h
  have hok := instancesOk_of_inv h
  have hfatal : ∀ code, ∃ t, raiseFatal code s = .next t ∧ CommandEffect s c t := fun code => by
    obtain ⟨t, ht, he, htl⟩ := raiseFatal_effect h code
    exact ⟨t, ht, .fatal code he htl⟩
  have hdispatch : ∀ (oid : Oid) (body : Nat → StepOutcome),
      (s.configured oid.toNat = true → ∃ t, body oid.toNat = .next t ∧ CommandEffect s c t) →
      ∃ t, onInstance oid s body = .next t ∧ CommandEffect s c t := fun oid body hb => by
    rcases onInstance_cases oid s body with ⟨h1, _⟩ | ⟨_, _, h3⟩ | ⟨_, h2, h3⟩
    · rw [hs] at h1; cases h1
    · rw [h3]; exact hfatal _
    · rw [h3]; exact hb h2
  cases c with
  | configure oid =>
    show ∃ t, execConfigure oid s = .next t ∧ _
    rw [execConfigure, unlessShut_of_running hs]
    by_cases h1 : s.nInst ≤ instanceIndex oid
    · rw [if_pos h1]; exact hfatal _
    · rw [if_neg h1]
      rcases h2 : s.configured (instanceIndex oid) with _ | _
      · exact ⟨_, rfl, .configure (not_le.mp h1) h2⟩
      · exact hfatal _
  | enqueue oid interval count delta =>
    refine hdispatch oid (fun i =>
      enqueueWith (Config.nodeChoice s.hiddenDraws) i interval count delta s) fun hi => ?_
    simp only [enqueueWith]
    by_cases hcount : count = 0
    · rw [if_pos hcount]; exact hfatal _
    · rw [if_neg hcount]
      rcases hn : s.allocNode (Config.nodeChoice s.hiddenDraws) with _ | n
      · exact hfatal _
      · have hfree := isFree_of_allocNode hn
        rcases ha : (s.reg oid.toNat).active with _ | _
        · obtain ⟨t, tail, ht, htl, hto, htout, htr, htp⟩ :=
            enqueueOn_idle hl hi ha (hok.idleEmpty _ hi ha) hfree interval count delta
          exact ⟨t, by simp only [ht, commit], .enqueueIdle hi ha hcount hn htl hto htout htr htp⟩
        · obtain ⟨t, head, ht, htl, hto, htout, htr, htn, hts, htp⟩ :=
            enqueueOn_active hl hi ha hfree interval count delta
          exact ⟨t, by simp only [ht, commit], .enqueueActive hi ha hcount hn htl hto htout htr htn hts htp⟩
  | setNextDir oid dir => exact hdispatch oid (fun i => .next (s.setReg i { s.reg i with ndir := dir })) fun hi => ⟨_, rfl, .setNextDir hi⟩
  | resetClock oid time =>
    refine hdispatch oid (fun i => if (s.reg i).active then raiseFatal .invalidState s
      else .next (s.setReg i { s.reg i with wake := time })) fun hi => ?_
    rcases ha : (s.reg oid.toNat).active with _ | _
    · exact ⟨_, by simp, .resetClock hi ha⟩
    · simpa [ha] using hfatal _
  | getPosition oid => exact hdispatch oid (fun i => .next (s.emit (.report (reportWord oid (s.reg i).pos)))) fun hi => ⟨_, rfl, .getPosition hi⟩
  | setPosition oid value => exact hdispatch oid (fun i => .next (s.setReg i { s.reg i with pos := value })) fun hi => ⟨_, rfl, .setPosition hi⟩
  | stop oid =>
    refine hdispatch oid (fun i => commit (stopInstance i s)) fun hi => ?_
    obtain ⟨t, tail, ht, htl, hto, htout, htr, htp⟩ := stopInstance_linked hl hi
    refine ⟨t, by rw [ht]; rfl, .stop (tail := tail) hi htl hto htout ?_ htp⟩
    · rw [htr, stoppedRegisters]
      have := hok.timer _ hi
      rcases ha : (s.reg oid.toNat).active with _ | _
      · simp only [ha] at this; simp [this]
      · simp
  | shutdownAll =>
    show ∃ t, execShutdownAll s = .next t ∧ _
    rw [execShutdownAll, unlessShut_of_running hs]
    exact hfatal _

/-! ## What a FIRE does -/

/-- The effect of a FIRE of an armed instance on a state with the invariant (41_stepping_engine.md
R86 to R88). -/
inductive FireEffect (s : State) (i : Nat) : State → Prop where
  | rearm (hc : (s.reg i).cnt ≠ 1) : FireEffect s i
      (arm i ((s.reg i).wake + (s.reg i).ivl)
        (s.setReg i (advanceRegisters (takeStep s.fwdBit (s.reg i)))))
  | goIdle (hc : (s.reg i).cnt = 1) (hq : s.chain i = []) : FireEffect s i
      (s.setReg i { takeStep s.fwdBit (s.reg i) with cnt := 0 })
  | loadNext {t : State} {n : Nat} {l : List Nat} {tail : Link} (hc : (s.reg i).cnt = 1)
      (hq : s.chain i = n :: l) (hl : Linked t (Function.update s.chain i l))
      (ho : OnlyInstance i s t)
      (hout : t.outputs = s.outputs ++ [.arm i ((s.reg i).wake + (s.nodeAt n).interval)])
      (hr : t.reg i = { loadRegisters (takeStep s.fwdBit (s.reg i)) (s.nodeAt n) with
        qhead := (s.nodeAt n).next, qtail := tail,
        timer := some ((s.reg i).wake + (s.nodeAt n).interval) })
      (hp : ∀ m, m ≠ n → t.pool[m]? = s.pool[m]?) : FireEffect s i t

theorem fire_effect {s : State} (h : s.Inv) {i : Nat} (ha : s.armed i = true) :
    ∃ t, fire i s = .ok t ∧ FireEffect s i t := by
  have hl := linked_of_inv h
  obtain ⟨hi, -, -⟩ := armed_iff.mp ha
  have hlt := lt_of_configured hi
  by_cases hc : (s.reg i).cnt = 1
  · have hc' : (s.reg i).cnt - 1 = 0 := by rw [hc]; rfl
    rcases hq : s.chain i with _ | ⟨n, l⟩
    · exact ⟨_, fire_last_nil hlt hc' (qhead_of_linked_nil hl hi hq), .goIdle hc hq⟩
    · obtain ⟨t, tail, ht, htl, hto, htout, htr, htp⟩ := fire_last_cons hl hi hc' hq
      exact ⟨t, ht, .loadNext hc hq htl hto htout htr htp⟩
  · have hc' : (s.reg i).cnt - 1 ≠ 0 := fun h0 => hc (by
      rw [← BitVec.sub_add_cancel (s.reg i).cnt 1, h0]; rfl)
    exact ⟨_, fire_rearm hlt hc', .rearm hc⟩

/-- The registers of the instance that a FIRE rearms. -/
theorem reg_rearm {s : State} {i : Nat} (hi : i < s.nInst) (w : Word) (r : Stepper) :
    (arm i w (s.setReg i r)).reg i = { r with timer := some w } := by
  rw [reg_arm_self (by simpa using hi), reg_setReg_self hi]

/-- A FIRE touches its own instance only and keeps CFG. -/
theorem FireEffect.only {s t : State} {i : Nat} (hi : i < s.nInst) (h : FireEffect s i t) :
    OnlyInstance i s t ∧ (t.reg i).cfg = (s.reg i).cfg := by
  cases h with
  | rearm hc =>
    refine ⟨(onlyInstance_setReg i s _).trans (onlyInstance_arm i _ _), ?_⟩
    rw [reg_rearm hi]; rfl
  | goIdle hc hq => exact ⟨onlyInstance_setReg _ _ _, by rw [reg_setReg_self hi]; rfl⟩
  | loadNext hc hq hl ho hout hr hp => exact ⟨ho, by rw [hr]; rfl⟩

/-! ## What a step does -/

/-- What one step does to a state with the invariant: wait, discard, run a command or fail to decode
it, take a FIRE, or reset. -/
inductive StepEffect (s : State) : State → Prop where
  | wait (h : s.inputs = []) : StepEffect s s
  | discard {w es} (h : s.inputs = .command w :: es) (hs : s.shut = true) :
      StepEffect s { s with inputs := es }
  | illegal {w es t} (h : s.inputs = .command w :: es) (hs : s.shut = false)
      (hd : decode w = .error .reservedEncoding)
      (he : FatalEffect .reservedEncoding { s with inputs := es } t)
      (hl : Linked t (fun _ => [])) : StepEffect s t
  | command {w es c t} (h : s.inputs = .command w :: es) (hs : s.shut = false)
      (hd : decode w = .ok c) (he : CommandEffect { s with inputs := es } c t) : StepEffect s t
  | fire {i es t} (h : s.inputs = .fire i :: es) (ha : s.armed i = true)
      (he : FireEffect { s with inputs := es } i t) : StepEffect s t
  | reset {es} (h : s.inputs = .blockReset :: es) :
      StepEffect s (blockReset { s with inputs := es })

/-- The events to come are no part of the invariant. -/
theorem inv_withInputs {s : State} (h : s.Inv) (es : List Event) : State.Inv { s with inputs := es } := h

theorem decode_error {w : CommandWord} {e} (h : decode w = .error e) : e = .reservedEncoding := by
  unfold decode at h
  split at h
  · cases h
  · exact (Except.error.inj h).symm

/-- Once for the step: from a state with the invariant it answers a next state with one of the effects,
or refuses a FIRE of an instance that is not armed. -/
theorem step_effect {s : State} (h : s.Inv) :
    (∃ t, step s = .next t ∧ StepEffect s t) ∨
    (∃ i es, s.inputs = .fire i :: es ∧ s.armed i = false ∧ step s = .refused (.fireNotArmed i)) := by
  rcases hin : s.inputs with _ | ⟨e, es⟩
  · exact .inl ⟨s, step_wait hin, .wait hin⟩
  · have h' := inv_withInputs h es
    rw [step_event hin]
    cases e with
    | command w =>
      refine .inl ?_
      rcases Bool.eq_false_or_eq_true s.shut with hs | hs
      · exact ⟨_, executeWord_shut (s := { s with inputs := es }) hs, .discard hin hs⟩
      · rcases hd : decode w with e | c
        · have he := decode_error hd
          subst he
          obtain ⟨t, ht, hf, htl⟩ := raiseFatal_effect h' .reservedEncoding
          exact ⟨t, (executeWord_illegal (s := { s with inputs := es }) hs hd).trans ht,
            .illegal hin hs hd hf htl⟩
        · obtain ⟨t, ht, he⟩ := exec_effect h' hs c
          exact ⟨t, (executeWord_legal (s := { s with inputs := es }) hs hd).trans ht,
            .command hin hs hd he⟩
    | fire i =>
      rcases ha : s.armed i with _ | _
      · exact .inr ⟨i, es, rfl, ha, fireEvent_unarmed ha⟩
      · obtain ⟨t, ht, he⟩ := fire_effect h' (i := i) ha
        refine .inl ⟨t, ?_, .fire hin ha he⟩
        show fireEvent i _ = _
        rw [fireEvent_armed (show State.armed { s with inputs := es } i = true from ha), ht]; rfl
    | blockReset => exact .inl ⟨_, rfl, .reset hin⟩

end Sys2Proof.Machine
end

