-- ==== Sys2Proof/Laws/PerInstr.lean ====
section
/-! SUPPORT. One lemma per command: the encoded word selects the row of the command's own mnemonic in
the opcode map (30_encoding.md R69, R70). -/

namespace Sys2Proof.Laws.EncodedWordSelectsRow

/-- The word of `i` selects the row of `i`'s mnemonic. -/
def Statement (i : Instr) : Prop := rowSelects (rowOf (mnemonicOf i)) (encode i) = true

theorem of_fields {m : Mnemonic} {w : CommandWord} (h1 : opField w = opcodeOf m)
    (h2 : rsvField w = 0#15) (h3 : unusedFieldsZero (rowOf m).format w) :
    rowSelects (rowOf m) w = true := by
  refine (row_selects_iff (rowOf_mem m).1 w).mpr ⟨?_, h2, h3⟩
  rw [(rowOf_mem m).2]; exact h1

theorem configure (oid : Oid) : Statement (.configure oid) :=
  of_fields (m := .configure) (by simp [encode, opcodeOf]) (by simp [encode])
    ⟨fun h => absurd h (by decide), by simp [encode], by simp [encode], by simp [encode],
      by simp [encode]⟩

theorem enqueue (oid : Oid) (interval : Word) (count delta : Half) :
    Statement (.enqueue oid interval count delta) :=
  of_fields (m := .enqueue) (by simp [encode, opcodeOf]) (by simp [encode])
    ⟨fun h => absurd h (by decide), by simp [encode], fun h => absurd h (by decide),
      fun h => absurd h (by decide), fun h => absurd h (by decide)⟩

theorem setNextDir (oid : Oid) (dir : Bit) : Statement (.setNextDir oid dir) :=
  of_fields (m := .setNextDir) (by simp [encode, opcodeOf]) (by simp [encode])
    ⟨fun h => absurd h (by decide), fun h => absurd h (by decide), by simp [encode],
      by simp [encode], by simp [encode]⟩

theorem resetClock (oid : Oid) (time : Word) : Statement (.resetClock oid time) :=
  of_fields (m := .resetClock) (by simp [encode, opcodeOf]) (by simp [encode])
    ⟨fun h => absurd h (by decide), by simp [encode], fun h => absurd h (by decide),
      by simp [encode], by simp [encode]⟩

theorem getPosition (oid : Oid) : Statement (.getPosition oid) :=
  of_fields (m := .getPosition) (by simp [encode, opcodeOf]) (by simp [encode])
    ⟨fun h => absurd h (by decide), by simp [encode], by simp [encode], by simp [encode],
      by simp [encode]⟩

theorem setPosition (oid : Oid) (value : Word) : Statement (.setPosition oid value) :=
  of_fields (m := .setPosition) (by simp [encode, opcodeOf]) (by simp [encode])
    ⟨fun h => absurd h (by decide), by simp [encode], fun h => absurd h (by decide),
      by simp [encode], by simp [encode]⟩

theorem stop (oid : Oid) : Statement (.stop oid) :=
  of_fields (m := .stop) (by simp [encode, opcodeOf]) (by simp [encode])
    ⟨fun h => absurd h (by decide), by simp [encode], by simp [encode], by simp [encode],
      by simp [encode]⟩

theorem shutdownAll : Statement .shutdownAll := by
  show rowSelects (rowOf .shutdownAll) (encode .shutdownAll) = true
  decide

end Sys2Proof.Laws.EncodedWordSelectsRow
end

