-- ==== Sys2Proof/Tests/Slice0.lean ====
section
/-! SUPPORT. Tests on the vectors of 95_test_vectors.md, and one witness per statement of
Certificates/Slice0/Obligations.lean that has hypotheses: a concrete state and operands that meet them. -/

namespace Sys2Proof.Tests

open Sys2Proof Sys2Proof.Machine

/-! ## Well-formedness: an ill-formed term for each check -/

theorem test_params_no_slot : Params.wellFormed ⟨0, 8, 1⟩ = false := by decide
theorem test_params_too_many_slots : Params.wellFormed ⟨257, 8, 1⟩ = false := by decide
theorem test_params_no_node : Params.wellFormed ⟨4, 0, 1⟩ = false := by decide
theorem test_params_boundaries :
    Params.wellFormed ⟨1, 1, 0⟩ = true ∧ Params.wellFormed ⟨256, 1, 1⟩ = true := by decide

theorem test_oid_range : oidInRange 255 = true ∧ oidInRange 256 = false ∧ oidInRange (-1) = false := by
  decide
theorem test_dir_range : dirInRange 1 = true ∧ dirInRange 2 = false ∧ dirInRange (-1) = false := by
  decide
theorem test_ticks_range : ticksInRange 0xFFFFFFFF = true ∧ ticksInRange 0x100000000 = false ∧
    ticksInRange (-1) = false := by decide
theorem test_value_range : valueInRange (-0x80000000) = true ∧ valueInRange (-0x80000001) = false ∧
    valueInRange 0xFFFFFFFF = true ∧ valueInRange 0x100000000 = false := by decide
theorem test_count_range : countInRange 65535 = true ∧ countInRange 65536 = false ∧
    countInRange (-1) = false := by decide
theorem test_delta_range : deltaInRange (-32768) = true ∧ deltaInRange (-32769) = false ∧
    deltaInRange 32767 = true ∧ deltaInRange 32768 = false := by decide

/-! ## Decode: words written out field by field from R61's table, {DLT, CNT, A32, RSV, DIR, OID, OP} -/

/-- V-ENC-2. -/
theorem test_decode_configure :
    decode (0x0000#16 ++ 0x0000#16 ++ 0x00000000#32 ++ 0#15 ++ 0#1 ++ 0xFF#8 ++ 0x01#8) =
      .ok (.configure 255) := by decide
/-- V-ENC-4: delta -50 is 0xFFCE. -/
theorem test_decode_enqueue :
    decode (0xFFCE#16 ++ 0x0002#16 ++ 0x000000C8#32 ++ 0#15 ++ 0#1 ++ 0x01#8 ++ 0x02#8) =
      .ok (.enqueue 1 200 2 (-50)) := by decide
/-- V-ENC-7. -/
theorem test_decode_setNextDir :
    decode (0x0000#16 ++ 0x0000#16 ++ 0x00000000#32 ++ 0#15 ++ 1#1 ++ 0x00#8 ++ 0x03#8) =
      .ok (.setNextDir 0 1) := by decide
/-- V-ENC-8. -/
theorem test_decode_resetClock :
    decode (0x0000#16 ++ 0x0000#16 ++ 0x00001388#32 ++ 0#15 ++ 0#1 ++ 0x00#8 ++ 0x04#8) =
      .ok (.resetClock 0 5000) := by decide
/-- P4, line 9. -/
theorem test_decode_getPosition :
    decode (0x0000#16 ++ 0x0000#16 ++ 0x00000000#32 ++ 0#15 ++ 0#1 ++ 0x02#8 ++ 0x05#8) =
      .ok (.getPosition 2) := by decide
/-- P4, line 2. -/
theorem test_decode_setPosition :
    decode (0x0000#16 ++ 0x0000#16 ++ 0xFFFFFFFE#32 ++ 0#15 ++ 0#1 ++ 0x02#8 ++ 0x06#8) =
      .ok (.setPosition 2 0xFFFFFFFE) := by decide
/-- P4, line 10. -/
theorem test_decode_stop :
    decode (0x0000#16 ++ 0x0000#16 ++ 0x00000000#32 ++ 0#15 ++ 0#1 ++ 0x02#8 ++ 0x07#8) =
      .ok (.stop 2) := by decide
/-- V-ENC-12. -/
theorem test_decode_shutdownAll :
    decode (0x0000#16 ++ 0x0000#16 ++ 0x00000000#32 ++ 0#15 ++ 0#1 ++ 0x00#8 ++ 0x08#8) =
      .ok .shutdownAll := by decide

/-- V-ENC-13 to V-ENC-17: an OP of no row, and reserved bits. -/
theorem test_decode_reserved :
    decode 0x000000000000000000000000#96 = .error .reservedEncoding ∧
    decode 0x000000000000000000000009#96 = .error .reservedEncoding ∧
    decode 0x0000000000000000000000FF#96 = .error .reservedEncoding ∧
    decode 0x000000000000000000020007#96 = .error .reservedEncoding ∧
    decode 0x000000000000000080000003#96 = .error .reservedEncoding := by decide
/-- V-ENC-18 to V-ENC-23: a nonzero field that the format does not use. -/
theorem test_decode_unused_field :
    decode 0x000000000000000100010003#96 = .error .reservedEncoding ∧
    decode 0x000000000000000000000108#96 = .error .reservedEncoding ∧
    decode 0x00000003000003E800010002#96 = .error .reservedEncoding ∧
    decode 0x000100000000138800000004#96 = .error .reservedEncoding ∧
    decode 0x000000000000000100000005#96 = .error .reservedEncoding ∧
    decode 0x000000010000000000000006#96 = .error .reservedEncoding := by decide

/-- The encoder's words, against V-ENC-2, V-ENC-5, V-ENC-7, V-ENC-8, V-ENC-9, V-ENC-10, V-ENC-11 and
V-ENC-12. -/
theorem test_encode :
    encode (.configure 255) = 0x00000000000000000000FF01#96 ∧
    encode (.enqueue 3 0xFFFFFFFF 65535 (-32768)) = 0x8000FFFFFFFFFFFF00000302#96 ∧
    encode (.setNextDir 0 1) = 0x000000000000000000010003#96 ∧
    encode (.resetClock 0 5000) = 0x000000000000138800000004#96 ∧
    encode (.getPosition 0) = 0x000000000000000000000005#96 ∧
    encode (.setPosition 0 (-1)) = 0x00000000FFFFFFFF00000006#96 ∧
    encode (.stop 0) = 0x000000000000000000000007#96 ∧
    encode .shutdownAll = 0x000000000000000000000008#96 := by decide

/-- R70's mask column is what R69 and R68 ask of each format. -/
theorem test_masks_follow_formats : ∀ r ∈ opcodeRows, r.mask = formatMask r.format := by decide

/-- R46: V-ENC-3 as a transport's bytes, OP first. -/
theorem test_transport_bytes : commandToBytes 0x00000003000003E800000002#96 =
    [0x02, 0x00, 0x00, 0x00, 0xE8, 0x03, 0x00, 0x00, 0x03, 0x00, 0x00, 0x00] := by decide
theorem test_transport_reads :
    decodeBytes [0x02, 0x00, 0x00, 0x00, 0xE8, 0x03, 0x00, 0x00, 0x03, 0x00, 0x00, 0x00] =
      .ok (.enqueue 0 1000 3 0) := by decide
theorem test_report_bytes : reportToBytes 0x0000000C00000181#64 =
    [0x81, 0x01, 0x00, 0x00, 0x0C, 0x00, 0x00, 0x00] := by decide
theorem test_table_word : decodeTableWord 96 0xFFCE0002000000C800000102 =
    some (.enqueue 1 200 2 (-50)) := by decide

/-- The report words of section 2 of 95_test_vectors.md. -/
theorem test_report_words :
    reportWord 0 3 = 0x0000000300000081#64 ∧ reportWord 2 0 = 0x0000000000000281#64 ∧
    reportWord 1 12 = 0x0000000C00000181#64 ∧ reportWord 0 0xFFFFFFFF = 0xFFFFFFFF00000081#64 := by
  decide

/-- R43: the widths of a node index by hand, `POOL_NODES <= 2^NW - 1`. -/
theorem test_node_index_width : nodeIndexWidth 8 = 4 ∧ nodeIndexWidth 7 = 3 ∧ nodeIndexWidth 1 = 1 := by
  decide
/-- R43: the record of (200, -50, 2, 0) linked to node 5, with `NW = 4`: 4 + 1 + 16 + 16 + 32 bits. -/
theorem test_node_record :
    nodeRecord 4 ⟨200, -50, 2, 0, some 5⟩ = 0x5#4 ++ 0#1 ++ 0x0002#16 ++ 0xFFCE#16 ++ 0x000000C8#32 ∧
    (nodeRecord 4 ⟨200, -50, 2, 0, none⟩).extractLsb' 65 4 = 0xF#4 := by decide

/-! ## The assembler (R77, R78) -/

/-- P2, line 7, with a comment. -/
theorem test_assemble_enqueue : assembleLine 1 "ENQUEUE 1, 200, 2, -50 ; queued".toList =
    .ok (.command (.enqueue 1 200 2 0xFFCE)) := by decide
/-- R78: REV is `1 - FWD_BIT`. -/
theorem test_assemble_rev : assembleLine 0 "SET_NEXT_DIR 1, REV".toList =
    .ok (.command (.setNextDir 1 1)) := by decide
/-- P4, line 3. -/
theorem test_assemble_hex : assembleLine 1 "RESET_CLOCK 2, 0xFFFFFF00".toList =
    .ok (.command (.resetClock 2 0xFFFFFF00)) := by decide
theorem test_assemble_range : assembleLine 1 "STOP 256".toList = .error .outOfRange := by decide
theorem test_assemble_fire : assembleLine 1 "FIRE 2".toList = .ok (.fire 2) := by decide
theorem test_assemble_global : assembleLine 1 "SHUTDOWN_ALL".toList = .ok (.command .shutdownAll) ∧
    assembleLine 1 "SHUTDOWN_ALL 0".toList = .error .wrongOperandCount := by decide

/-! ## Small states -/

/-- A configured instance in the notation of 95_test_vectors.md, armed when its count is not zero. -/
def stepper (pos wake ivl : Word) (dlt cnt : Half) (cdir ndir : Bit) (qhead qtail : Link) : Stepper :=
  { cfg := true, pos := pos, wake := wake, ivl := ivl, dlt := dlt, cnt := cnt, cdir := cdir
    ndir := ndir, qhead := qhead, qtail := qtail, timer := if cnt = 0 then none else some wake }

/-- A queued node. -/
def queued (interval : Word) (delta count : Half) (dir : Bit) (next : Link) : PoolSlot :=
  ⟨false, ⟨interval, delta, count, dir, next⟩⟩

/-- A running block with `FWD_BIT = 1` and the given events to come. -/
def block (steppers : List Stepper) (pool : List PoolSlot) (inputs : List Event) : State :=
  { fwdBit := 1, steppers := steppers, pool := pool, shut := false, err := 0, inputs := inputs
    outputs := [], resets := 0, hiddenDraws := 0 }

/-- One instance and one free node. -/
def one (r : Stepper) : State := block [r] [PoolSlot.untouched] []

/-- One instance whose queue is the segment (200, -50, 2, 0) in node 1, node 0 free. -/
def behind (r : Stepper) : State :=
  block [r] [PoolSlot.untouched, queued 200 (-50) 2 0 none] []

/-- Idle instance 0; Active instance 1 on its last step with two segments queued, in nodes 2 and 0;
Active instance 2 with three steps left; unconfigured slot 3. -/
def mixed : State := block
  [stepper 5 100 0 0 0 0 1 none none, stepper 7 460 140 10 1 1 0 (some 2) (some 0),
    stepper 0xFFFFFFFF 50 5 0 3 1 0 none none, Stepper.unconfigured]
  [queued 10 0 5 1 none, PoolSlot.untouched, queued 200 (-50) 2 0 (some 0), PoolSlot.untouched] []

/-- Instance 2 as in `mixed`, every other slot unconfigured. -/
def alone : State := block
  [Stepper.unconfigured, Stepper.unconfigured, stepper 0xFFFFFFFF 50 5 0 3 1 0 none none,
    Stepper.unconfigured] [PoolSlot.untouched] []

/-- V-ENQ-4: the one node of the pool is in another instance's queue. -/
def exhausted : State := block
  [stepper 0 0 0 0 0 0 0 none none, stepper 7 460 140 10 1 1 0 (some 0) (some 0)]
  [queued 200 (-50) 2 0 none] []

/-- A block after SHUTDOWN_ALL. -/
def halted : State :=
  { one (stepper 12 0 120 10 0 0 0 none none) with shut := true, err := 7 }

/-- What a test reads of a next state: an instance, the outputs, the number of free nodes, the latch and
the error code. -/
def seen (i : Nat) : StepOutcome →
    Option (Option InstanceView × List Output × Nat × Bool × Byte)
  | .next t => some (t.viewOf i, t.outputs, t.freeNodes.length, t.shut, t.err)
  | _ => none

theorem test_mixed_inv : mixed.Inv := by decide
theorem test_exhausted_inv : exhausted.Inv := by decide
theorem test_halted_inv : halted.Inv := by decide

/-! ## Commands -/

/-- V-CFG-1, but for P0: everything InitInstance writes. -/
theorem test_configure : (nextOf (exec (.configure 3) mixed)).map (fun t =>
    ((t.reg 3).cfg, (t.reg 3).wake, (t.reg 3).cnt, (t.reg 3).qhead)) = some (true, 0, 0, none) := by
  decide
/-- V-CFG-3 with `N_INST = 4`: OID 4 has no slot. -/
theorem test_configure_no_slot : (nextOf (exec (.configure 4) mixed)).map (fun t =>
    (t.shut, t.err, t.outputs)) = some (true, 4, [.cancel 1, .cancel 2]) := by decide

/-- V-ENQ-1, at a given draw of Alloc. -/
theorem test_enqueue_idle :
    seen 0 (enqueueWith 0 0 1000 3 0 (one (stepper 0 5000 0 0 0 0 1 none none))) =
      some (some ⟨0, 6000, 1000, 0, 3, 1, 1, [], some 6000⟩, [.arm 0 6000], 1, false, 0) := by decide
/-- V-ENQ-2 behind a queued segment, at a given draw of Alloc. -/
theorem test_enqueue_active :
    seen 0 (enqueueWith 7 0 10 5 1 (behind (stepper 0 6000 1000 0 3 1 0 (some 1) (some 1)))) =
      some (some ⟨0, 6000, 1000, 0, 3, 1, 0, [⟨200, -50, 2, 0⟩, ⟨10, 1, 5, 0⟩], some 6000⟩, [], 0,
        false, 0) := by decide

/-- V-SND-1: the live segment and the queued one keep their directions. -/
theorem test_setNextDir :
    seen 0 (exec (.setNextDir 0 1) (behind (stepper 3 210 120 10 3 1 0 (some 1) (some 1)))) =
      some (some ⟨3, 210, 120, 10, 3, 1, 1, [⟨200, -50, 2, 0⟩], some 210⟩, [], 1, false, 0) := by
  decide
/-- V-DSP-1 for SET_NEXT_DIR: an unconfigured id. -/
theorem test_setNextDir_unconfigured : (nextOf (exec (.setNextDir 3 1) mixed)).map (fun t =>
    (t.shut, t.err, t.outputs)) = some (true, 3, [.cancel 1, .cancel 2]) := by decide

/-- V-RC-1. -/
theorem test_resetClock_idle :
    seen 0 (exec (.resetClock 0 5000) (one (stepper 3 810 100 (-50) 0 0 0 none none))) =
      some (some ⟨3, 5000, 100, -50, 0, 0, 0, [], none⟩, [], 1, false, 0) := by decide
/-- V-RC-2. -/
theorem test_resetClock_active :
    seen 0 (exec (.resetClock 0 5000) (one (stepper 3 210 120 10 3 1 1 none none))) =
      some (some ⟨3, 0, 120, 10, 0, 0, 0, [], none⟩, [.cancel 0], 1, true, 2) := by decide

/-- V-GP-1. -/
theorem test_getPosition :
    seen 0 (exec (.getPosition 0) (one (stepper 3 8000 1000 0 0 1 1 none none))) =
      some (some ⟨3, 8000, 1000, 0, 0, 1, 1, [], none⟩, [.report 0x0000000300000081#64], 1, false, 0) :=
  by decide
/-- V-SP-1. -/
theorem test_setPosition :
    seen 0 (exec (.setPosition 0 100) (one (stepper 3 210 120 10 3 1 1 none none))) =
      some (some ⟨100, 210, 120, 10, 3, 1, 1, [], some 210⟩, [], 1, false, 0) := by decide

/-- V-STOP-1. -/
theorem test_stop_active :
    seen 0 (exec (.stop 0) (behind (stepper 12 1210 120 10 2 1 1 (some 1) (some 1)))) =
      some (some ⟨12, 0, 120, 10, 0, 0, 0, [], none⟩, [.cancel 0], 2, false, 0) := by decide
/-- V-STOP-2: no CANCEL while Idle. -/
theorem test_stop_idle :
    seen 0 (exec (.stop 0) (one (stepper 8 460 140 10 0 1 1 none none))) =
      some (some ⟨8, 0, 140, 10, 0, 0, 0, [], none⟩, [], 1, false, 0) := by decide

/-- V-SHUT-1: CANCELs in increasing order, every node free. -/
theorem test_shutdownAll : seen 1 (exec .shutdownAll mixed) =
    some (some ⟨7, 0, 140, 10, 0, 0, 0, [], none⟩, [.cancel 1, .cancel 2], 4, true, 7) := by decide
/-- V-SHUT-2. -/
theorem test_shutdownAll_discarded : exec .shutdownAll halted = .next halted := rfl

/-! ## Events -/

/-- V-FIRE-1. -/
theorem test_fire_rearms : seen 0 (fireEvent 0 (one (stepper 10 1100 110 10 3 1 1 none none))) =
    some (some ⟨11, 1210, 120, 10, 2, 1, 1, [], some 1210⟩, [.arm 0 1210], 1, false, 0) := by decide
/-- V-FIRE-3: position wraps downwards. -/
theorem test_fire_reverse : seen 0 (fireEvent 0 (one (stepper 0 50 5 0 2 0 0 none none))) =
    some (some ⟨0xFFFFFFFF, 55, 5, 0, 1, 0, 0, [], some 55⟩, [.arm 0 55], 1, false, 0) := by decide
/-- V-FIRE-4: the last step, with nothing queued. -/
theorem test_fire_idle : seen 0 (fireEvent 0 (one (stepper 7 460 140 10 1 1 1 none none))) =
    some (some ⟨8, 460, 140, 10, 0, 1, 1, [], none⟩, [], 1, false, 0) := by decide
/-- V-FIRE-5: the last step in the old direction, then the queued segment. -/
theorem test_fire_loads :
    seen 0 (fireEvent 0 (behind (stepper 7 460 140 10 1 1 0 (some 1) (some 1)))) =
      some (some ⟨8, 660, 150, -50, 2, 0, 0, [], some 660⟩, [.arm 0 660], 2, false, 0) := by decide
/-- V-FIRE-9: the interval wraps below zero. -/
theorem test_fire_underflow : seen 0 (fireEvent 0 (one (stepper 0 100 0 (-1) 3 1 1 none none))) =
    some (some ⟨1, 100, 0xFFFFFFFF, -1, 2, 1, 1, [], some 100⟩, [.arm 0 100], 1, false, 0) := by decide

/-- R71, R114 with V-ENC-20. -/
theorem test_step_illegal :
    (nextOf (step (mixed.withFetchWord 96 0x00000003000003E800010002))).map (fun t =>
      (t.shut, t.err, t.outputs)) = some (true, 5, [.cancel 1, .cancel 2]) := by decide
/-- V-DSP-3: discarded before decode. -/
theorem test_step_discards : step (halted.withFetchWord 96 0) = .next halted := rfl
/-- The first command after reset, placed by `withFetchWord`: no instance is configured yet. -/
theorem test_step_first : (nextOf (step (State.reset.withFetchWord 96 0x5))).map (fun t =>
    (t.shut, t.err, t.inputs)) = some (true, 3, []) := by decide
/-- R136 after a shutdown. -/
theorem test_block_reset : step (halted.withInputs [.blockReset]) =
    .next { State.resetWith ⟨1, 1, 1⟩ with resets := 1 } := rfl

/-! ## Witnesses: states and operands that meet the hypotheses of the statements -/

theorem witness_DecodeOfEncode :
    (Instr.enqueue 0xFF 0xFFFFFFFF 0 0x8000).wellFormed = true ∧
    Instr.shutdownAll.wellFormed = true := by decide

theorem witness_LegalWordsAreEncodings :
    decode 0x8000FFFFFFFFFFFF00000302#96 = .ok (.enqueue 3 0xFFFFFFFF 65535 (-32768)) := by decide

theorem witness_OpcodeRowsDisjoint : (rowOf .stop) ∈ opcodeRows ∧
    rowSelects (rowOf .stop) 0x00000000000000000000FF07#96 = true := by decide

/-- The boundary values of each clause: OP 0, OP 9 and OP 255, RSV bits 17 and 31. -/
theorem witness_ReservedWordsIllegal :
    opField 0x000000000000000000000000#96 = 0 ∧
    9 ≤ (opField 0x000000000000000000000009#96).toNat ∧
    9 ≤ (opField 0x0000000000000000000000FF#96).toNat ∧
    rsvField 0x000000000000000000020007#96 ≠ 0 ∧
    rsvField 0x000000000000000080000003#96 ≠ 0 := by decide

theorem witness_TransportCarriesWords :
    (0 < 12 ∧ 11 < 12) ∧ (0 < 8 ∧ 7 < 8) ∧ ([] : List Byte).length ≠ 12 ∧ (List.replicate 11 (0 : Byte)).length ≠ 12 ∧
    (List.replicate 13 (0 : Byte)).length ≠ 12 := by decide

/-- A link to the last node of a pool of seven, whose `NW` is 3, and NIL in a pool of one. -/
theorem witness_NodeRecordLayout :
    (∀ n, (⟨200, -50, 2, 0, some 6⟩ : Node).next = some n → n < 7) ∧
    (∀ n, (⟨200, -50, 2, 0, none⟩ : Node).next = some n → n < 1) := by simp

/-- The boundary values of each clause. -/
theorem witness_AssembledValueOperand :
    integerOf "0".toList = some 0 ∧ integerOf "4294967295".toList = some 4294967295 ∧
    integerOf "-1".toList = some (-1) ∧ integerOf "-2147483648".toList = some (-2147483648) ∧
    integerOf "-2147483649".toList = some (-2147483649) ∧
    integerOf "0x100000000".toList = some 4294967296 := by decide

theorem witness_StepRunsDecodedCommand :
    mixed.shut = false ∧
    (mixed.withInputs [.command 0x5]).inputs = .command 0x5 :: [] ∧
    decode 0x5 = .ok (.getPosition 0) ∧ (Instr.getPosition 0).wellFormed = true ∧
    decodeTableWord 96 0x5 = some (.getPosition 0) := by decide

theorem witness_EventsAreTakenInOrder :
    (mixed.withInputs [.command 0x5, .fire 1]).Inv ∧
    ∃ t, step (mixed.withInputs [.command 0x5, .fire 1]) = .next t := ⟨by decide, _, rfl⟩

theorem witness_IllegalWordIsFatal :
    (mixed.withInputs [.command 0x9]).Inv ∧ (mixed.withInputs [.command 0x9]).shut = false ∧
    (∀ r ∈ opcodeRows, rowSelects r 0x9#96 = false) :=
  ⟨by decide, by decide⟩

theorem witness_ShutDiscardsCommands : (halted.withInputs [.command 0x5]).shut = true ∧
    (halted.withInputs [.command 0x5]).inputs = .command 0x5 :: [] := by decide

theorem witness_ShutIgnoresEveryStream : halted.shut = true ∧
    (∀ e ∈ [Event.command 0x5, Event.command 0], ∃ w, e = .command w) := by
  refine ⟨rfl, fun e he => ?_⟩
  rcases List.mem_cons.mp he with rfl | he
  · exact ⟨_, rfl⟩
  · exact ⟨0, List.mem_singleton.mp he⟩

/-- Both cases: block reset, and another event. -/
theorem witness_ShutLeavesByResetOnly : halted.shut = true ∧
    (∃ t, step (halted.withInputs [.blockReset]) = .next t) ∧
    (∃ t, step (halted.withInputs [.command 0x5]) = .next t) :=
  ⟨rfl, ⟨_, rfl⟩, ⟨_, rfl⟩⟩

theorem witness_WaitsForEvents : mixed.inputs = [] := rfl

theorem witness_BlockResetEffect :
    (mixed.withInputs [.blockReset, .command 0x1]).inputs = .blockReset :: [.command 0x1] := rfl

/-- The last slot. -/
theorem witness_ConfigureCreatesInstance : mixed.shut = false ∧ (3 : Oid).toNat < mixed.nInst ∧
    mixed.configured (3 : Oid).toNat = false := by decide

theorem witness_ConfigureTwiceIsFatal : mixed.Inv ∧ mixed.shut = false ∧
    mixed.configured (2 : Oid).toNat = true :=
  ⟨by decide, by decide⟩

/-- An Idle instance, an Active one, and the first id without a slot. -/
theorem witness_ExhaustionIsFatal : exhausted.Inv ∧ exhausted.shut = false ∧
    exhausted.configured (0 : Oid).toNat = true ∧ exhausted.configured (1 : Oid).toNat = true ∧
    (1 : Half) ≠ 0 ∧ exhausted.freeNodes = [] ∧ exhausted.nInst ≤ (2 : Oid).toNat :=
  ⟨by decide, by decide⟩

theorem witness_ZeroCountIsFatal : exhausted.Inv ∧ exhausted.shut = false ∧
    exhausted.configured (0 : Oid).toNat = true :=
  ⟨by decide, by decide⟩

theorem witness_EnqueueOnIdle : mixed.Inv ∧ mixed.shut = false ∧
    mixed.configured (0 : Oid).toNat = true ∧ (mixed.reg (0 : Oid).toNat).active = false ∧
    (65535 : Half) ≠ 0 ∧ mixed.freeNodes ≠ [] :=
  ⟨by decide, by decide⟩

/-- On a queue with nodes, and on an empty queue. -/
theorem witness_EnqueueOnActive : mixed.Inv ∧ mixed.shut = false ∧
    (mixed.configured (1 : Oid).toNat = true ∧ (mixed.reg (1 : Oid).toNat).active = true) ∧
    (mixed.configured (2 : Oid).toNat = true ∧ (mixed.reg (2 : Oid).toNat).active = true) ∧
    (1 : Half) ≠ 0 ∧ mixed.freeNodes ≠ [] :=
  ⟨by decide, by decide⟩

theorem witness_SetNextDirWritesLatch : mixed.shut = false ∧
    mixed.configured (1 : Oid).toNat = true := by decide

theorem witness_ResetClockRebasesIdle : mixed.shut = false ∧
    mixed.configured (0 : Oid).toNat = true ∧ (mixed.reg (0 : Oid).toNat).active = false := by decide

theorem witness_ResetClockOnActiveIsFatal : mixed.Inv ∧ mixed.shut = false ∧
    mixed.configured (1 : Oid).toNat = true ∧ (mixed.reg (1 : Oid).toNat).active = true :=
  ⟨by decide, by decide⟩

theorem witness_GetPositionReports : mixed.shut = false ∧
    mixed.configured (2 : Oid).toNat = true := by decide

theorem witness_SetPositionWritesPos : mixed.shut = false ∧
    mixed.configured (2 : Oid).toNat = true := by decide

/-- An Active instance with a queue, and an Idle one. -/
theorem witness_StopStopsInstance : mixed.Inv ∧ mixed.shut = false ∧
    mixed.configured (1 : Oid).toNat = true ∧ mixed.configured (0 : Oid).toNat = true :=
  ⟨by decide, by decide⟩

theorem witness_StopIsIdempotent : mixed.Inv ∧ ∃ t, exec (.stop 0) mixed = .next t :=
  ⟨by decide, _, rfl⟩

theorem witness_ShutdownAllHalts : mixed.Inv ∧ mixed.shut = false :=
  ⟨by decide, by decide⟩

/-- Either reason: an id outside the slots, and an unconfigured slot. -/
theorem witness_UnconfiguredIdIsFatal : mixed.Inv ∧ mixed.shut = false ∧
    lookedUpId (.stop 4) = some 4 ∧ mixed.nInst ≤ (4 : Oid).toNat ∧
    lookedUpId (.enqueue 3 10 0 0) = some 3 ∧ (mixed.reg (3 : Oid).toNat).cfg = false :=
  ⟨by decide, by decide⟩

theorem witness_FireRearms : (mixed.withInputs [.fire 2]).inputs = .fire 2 :: [] ∧
    (mixed.withInputs [.fire 2]).armed 2 = true ∧ ((mixed.withInputs [.fire 2]).reg 2).cnt ≠ 1 := by
  decide

/-- V-FIRE-4. -/
def lastStep : State :=
  (one (stepper 7 460 140 10 1 1 0 none none)).withInputs [.fire 0]

theorem witness_FireGoesIdle : lastStep.inputs = .fire 0 :: [] ∧ lastStep.armed 0 = true ∧
    (lastStep.reg 0).cnt = 1 ∧ (lastStep.reg 0).qhead = none := by decide

theorem witness_FireLoadsNext : (mixed.withInputs [.fire 1]).Inv ∧
    (mixed.withInputs [.fire 1]).inputs = .fire 1 :: [] ∧
    (mixed.withInputs [.fire 1]).armed 1 = true ∧ ((mixed.withInputs [.fire 1]).reg 1).cnt = 1 ∧
    (mixed.withInputs [.fire 1]).queue 1 = ⟨200, -50, 2, 0⟩ :: [⟨10, 0, 5, 1⟩] :=
  ⟨by decide, by decide⟩

/-- An Idle instance, an unconfigured slot and an id without a slot. -/
theorem witness_UnarmedFireRefused : (mixed.withInputs [.fire 0]).inputs = .fire 0 :: [] ∧
    (mixed.withInputs [.fire 0]).armed 0 = false ∧ (mixed.withInputs [.fire 3]).armed 3 = false ∧
    (mixed.withInputs [.fire 4]).armed 4 = false := by decide

/-- With one free node every draw of Alloc takes it. -/
theorem enqueueWith_one_free {s : State} (h : s.freeNodes.length = 1) (draw i : Nat)
    (interval : Word) (count delta : Half) :
    enqueueWith draw i interval count delta s = enqueueWith 0 i interval count delta s := by
  simp only [enqueueWith, State.allocNode, h, Nat.mod_one]

/-- An Idle instance and one free node, with an ENQUEUE to come. -/
def ready : State := one (stepper 0 5000 0 0 0 0 1 none none)

theorem ready_enqueue : ∃ t, exec (.enqueue 0 1000 3 0) ready = .next t ∧ (t.reg 0).active = true ∧
    t.shut = false := by
  have h : exec (.enqueue 0 1000 3 0) ready =
      enqueueWith (Config.nodeChoice ready.hiddenDraws) 0 1000 3 0 ready := rfl
  rw [h, enqueueWith_one_free (by decide)]
  exact ⟨_, rfl, rfl, rfl⟩

/-- The range of `k` runs from the first step, 1, to the last one, 3. -/
theorem witness_TimingLaw : (ready.Inv ∧ ready.shut = false ∧
    ready.configured (0 : Oid).toNat = true ∧ (ready.reg (0 : Oid).toNat).active = false) ∧
    ((3 : Half) ≠ 0 ∧ ready.freeNodes ≠ [] ∧ 1 ≤ 3 ∧ 3 ≤ (3 : Half).toNat) ∧
    ∃ t, exec (.enqueue 0 1000 3 0) ready = .next t :=
  ⟨⟨by decide, by decide⟩, by decide, ready_enqueue.imp fun _ h => h.1⟩

/-- A segment loaded by ENQUEUE, at its first step. -/
theorem witness_TimingLawOverRuns_enqueue : ready.Inv ∧ ready.shut = false ∧
    LoadsSegment ready (.command (encode (.enqueue 0 1000 3 0))) 0 ⟨1000, 0, 3, 1⟩ ∧
    (∀ f ∈ ([] : List Event), ¬ StopsOrResets 0 f) ∧ ([] : List Event).count (.fire 0) + 1 = 1 ∧
    1 ≤ (3 : Half).toNat ∧
    ∃ t, runEvents [.command (encode (.enqueue 0 1000 3 0))] ready = .next t ∧ t.shut = false := by
  have hd : decode (encode (.enqueue 0 1000 3 0)) = .ok (.enqueue 0 1000 3 0) := by decide
  refine ⟨by decide, rfl, .inl ⟨_, 0, rfl, rfl, hd, by decide, by decide, by decide⟩, by simp, by decide,
    by decide, ?_⟩
  obtain ⟨t, ht, -, hs⟩ := ready_enqueue
  refine ⟨t, ?_, hs⟩
  exact run_next (M := Sys2Proof.core) (k := 0) ((executeWord_legal (s := ready) rfl hd).trans ht)

/-- A segment loaded by FIRE, up to its last step, with another instance's FIRE among the events. -/
theorem witness_TimingLawOverRuns_fire : mixed.Inv ∧ mixed.shut = false ∧
    LoadsSegment mixed (.fire 1) 1 ⟨200, -50, 2, 0⟩ ∧
    (∀ f ∈ [Event.fire 2, .fire 1], ¬ StopsOrResets 1 f) ∧
    [Event.fire 2, .fire 1].count (.fire 1) + 1 = 2 ∧ 2 ≤ (2 : Half).toNat ∧
    ∃ t, runEvents [.fire 1, .fire 2, .fire 1] mixed = .next t ∧ t.shut = false :=
  ⟨by decide, rfl, .inr ⟨rfl, by decide, by decide, by decide⟩, by simp [StopsOrResets], by decide,
    by decide, _, rfl, rfl⟩

/-- Instance 1 of `mixed` owes 1 + 2 + 5 steps. -/
theorem witness_StepsAreConserved : mixed.Inv ∧ mixed.shut = false ∧ mixed.configured 1 = true ∧
    mixed.remainingSteps 1 = 8 ∧ 0 < mixed.remainingSteps 1 ∧ 7 < mixed.remainingSteps 1 :=
  ⟨by decide, by decide⟩

/-- Both clauses: a FIRE, and a SET_POSITION, each of which moves POS. -/
theorem witness_PositionLaw : lastStep.Inv ∧
    (∃ t, step lastStep = .next t ∧ (t.reg 0).pos ≠ (lastStep.reg 0).pos) ∧
    (∃ t, step (ready.withInputs [.command 0x000000000000000A00000006#96]) = .next t ∧
      (t.reg 0).pos ≠ (ready.reg 0).pos) :=
  ⟨by decide, ⟨_, rfl, by decide⟩, ⟨_, rfl, by decide⟩⟩

/-- A FIRE that takes the head of a queue, and a STOP. -/
theorem witness_QueuesAreFifo : (mixed.withInputs [.fire 1]).Inv ∧
    (∃ t, step (mixed.withInputs [.fire 1]) = .next t) ∧
    (∃ t, step (mixed.withInputs [.command (encode (.stop 1))]) = .next t) ∧
    Event.fire 1 ≠ .blockReset ∧ mixed.configured 1 = true :=
  ⟨by decide, ⟨_, rfl⟩, ⟨_, rfl⟩, by decide, by decide⟩

/-- Both clauses: an ENQUEUE that starts an instance, and a last FIRE that ends one. -/
theorem witness_EngineTransitions : ready.Inv ∧ ready.configured 0 = true ∧
    (∃ t, step (ready.withInputs [.command (encode (.enqueue 0 1000 3 0))]) = .next t ∧
      (ready.reg 0).active = false ∧ (t.reg 0).active = true) ∧
    lastStep.Inv ∧ lastStep.configured 0 = true ∧
    (∃ t, step lastStep = .next t ∧ (lastStep.reg 0).active = true ∧ (t.reg 0).active = false) := by
  refine ⟨by decide, by decide, ?_, by decide, by decide, ⟨_, rfl, by decide, by decide⟩⟩
  have hd : decode (encode (.enqueue 0 1000 3 0)) = .ok (.enqueue 0 1000 3 0) := by decide
  obtain ⟨t, ht, ha, -⟩ := ready_enqueue
  exact ⟨t, (executeWord_legal (s := ready) rfl hd).trans ht, by decide, ha⟩

/-- A report, an ARM by a FIRE, and a CANCEL. -/
theorem witness_OutputsAreAppended : mixed.Inv ∧
    (∃ t, step (mixed.withInputs [.command 0x5]) = .next t) ∧
    (∃ t, step (mixed.withInputs [.fire 2]) = .next t) ∧
    (∃ t, step (mixed.withInputs [.command (encode (.stop 2))]) = .next t) :=
  ⟨by decide, ⟨_, rfl⟩, ⟨_, rfl⟩, ⟨_, rfl⟩⟩

/-- A configured slot that stays so, and one that CONFIGURE takes. -/
theorem witness_ConfigurationPersists : mixed.Inv ∧
    (∃ t, step (mixed.withInputs [.command 0x0301]) = .next t ∧ mixed.configured 0 = true ∧
      mixed.configured 3 = false ∧ t.configured 3 = true) :=
  ⟨by decide, _, rfl, by decide, by decide, by decide⟩

theorem witness_InstancesAreIndependent : mixed.Inv ∧
    (∃ t, exec (.stop 1) mixed = .next t ∧ t.shut = false) ∧ namedId (.stop 1) = some 1 ∧
    2 ≠ (1 : Oid).toNat :=
  ⟨by decide, ⟨_, rfl, rfl⟩, rfl, by decide⟩

/-- `mixed` and a block whose other instances differ: a STOP that completes, and a SET_NEXT_DIR of an
unconfigured id that is fatal on both. -/
theorem witness_CommandsReadOwnInstance : (mixed.Inv ∧ alone.Inv) ∧
    (mixed.shut = false ∧ alone.shut = false ∧ mixed.nInst = alone.nInst ∧
      mixed.resets = alone.resets) ∧
    (mixed.viewOf (2 : Oid).toNat = alone.viewOf (2 : Oid).toNat ∧
      mixed.viewOf (3 : Oid).toNat = alone.viewOf (3 : Oid).toNat) ∧
    (mixed.freeNodes = [] ↔ alone.freeNodes = []) ∧ namedId (.stop 2) = some 2 ∧
    namedId (.setNextDir 3 1) = some 3 ∧
    (∃ t, exec (.stop 2) mixed = .next t ∧ t.shut = false) ∧ (∃ t, exec (.stop 2) alone = .next t) ∧
    (∃ t, exec (.setNextDir 3 1) mixed = .next t) ∧ (∃ t, exec (.setNextDir 3 1) alone = .next t) :=
  ⟨⟨by decide, by decide⟩, by decide, by decide, by decide, rfl, rfl, ⟨_, rfl, rfl⟩, ⟨_, rfl⟩,
    ⟨_, rfl⟩, ⟨_, rfl⟩⟩

theorem witness_FiresCommuteAcrossInstances : mixed.Inv ∧ 1 ≠ 2 ∧ mixed.armed 1 = true ∧
    mixed.armed 2 = true :=
  ⟨by decide, by decide⟩

/-- Two unconfigured slots. -/
def fresh : State := State.resetWith ⟨2, 1, 1⟩

/-- A STOP and a CONFIGURE, and two CONFIGUREs. -/
theorem witness_CommandsCommuteAcrossInstances :
    (mixed.Inv ∧ mixed.shut = false ∧
      decode 0x0107 = .ok (.stop 1) ∧ decode 0x0301 = .ok (.configure 3) ∧
      namedId (.stop 1) = some 1 ∧ namedId (.configure 3) = some 3 ∧ (1 : Oid) ≠ 3 ∧
      (∃ t, runEvents [.command 0x0107, .command 0x0301] mixed = .next t ∧ t.shut = false) ∧
      (∃ u, runEvents [.command 0x0301, .command 0x0107] mixed = .next u ∧ u.shut = false)) ∧
    (fresh.Inv ∧ fresh.shut = false ∧
      decode 0x0001 = .ok (.configure 0) ∧ decode 0x0101 = .ok (.configure 1) ∧
      namedId (.configure 0) = some 0 ∧ namedId (.configure 1) = some 1 ∧ (0 : Oid) ≠ 1 ∧
      (∃ t, runEvents [.command 0x0001, .command 0x0101] fresh = .next t ∧ t.shut = false) ∧
      (∃ u, runEvents [.command 0x0101, .command 0x0001] fresh = .next u ∧ u.shut = false)) :=
  ⟨⟨by decide, rfl, by decide, by decide, rfl, rfl, by decide, ⟨_, rfl, rfl⟩, ⟨_, rfl, rfl⟩⟩,
    ⟨by decide, rfl, by decide, by decide, rfl, rfl, by decide, ⟨_, rfl, rfl⟩, ⟨_, rfl, rfl⟩⟩⟩

/-- V-RACE-1. -/
theorem witness_HandOffRace : lastStep.Inv ∧ lastStep.armed (0 : Oid).toNat = true ∧
    (lastStep.reg (0 : Oid).toNat).cnt = 1 ∧ (lastStep.reg (0 : Oid).toNat).qhead = none ∧
    lastStep.freeNodes ≠ [] ∧ (2 : Half) ≠ 0 ∧
    decode 0xFFCE0002000000C800000002#96 = .ok (.enqueue 0 200 2 (-50)) :=
  ⟨by decide, by decide⟩

theorem witness_ResetKeepsInvariant : Params.wellFormed ⟨1, 1, 0⟩ = true ∧
    Params.wellFormed ⟨256, 3, 1⟩ = true := by decide

theorem witness_StepKeepsInvariant : (mixed.withInputs [.fire 1]).Inv ∧
    ∃ t, step (mixed.withInputs [.fire 1]) = .next t := ⟨by decide, _, rfl⟩

theorem witness_InvariantExcludesFaults : (mixed.withInputs [.fire 1]).Inv := by decide

theorem witness_OnlyUnarmedFireRefused :
    step (mixed.withInputs [.fire 0]) = .refused (.fireNotArmed 0) := rfl

theorem witness_NodesAreConserved : mixed.Inv ∧ exhausted.Inv := by
  exact ⟨by decide, by decide⟩

/-- `mixed` with its nodes at other places and other hidden draws: the same abstract view. -/
def relabelled : State := { block
  [stepper 5 100 0 0 0 0 1 none (some 7), stepper 7 460 140 10 1 1 0 (some 1) (some 3),
    stepper 0xFFFFFFFF 50 5 0 3 1 0 none none, { Stepper.unconfigured with pos := 9 }]
  [PoolSlot.untouched, queued 200 (-50) 2 0 (some 3), ⟨true, ⟨1, 2, 3, 1, some 0⟩⟩,
    queued 10 0 5 1 none] [] with hiddenDraws := 17 }

theorem witness_HiddenDrawsUnobservable : mixed.Inv ∧ relabelled.Inv ∧ mixed ≠ relabelled ∧
    mixed.view = relabelled.view := by
  exact ⟨by decide, by decide, by decide, by decide⟩

end Sys2Proof.Tests
end

