-- ==== Sys2Proof/Proofs/Scope.lean ====
section
/-! PROOFS. What one step may emit and what it does to the parameters and to CFG
(00_scope.md R7, R16; 10_state.md R33), each read off the effects of Laws/Invariant.lean. -/

namespace Sys2Proof.Machine

/-- The inversion of a step from a state with the invariant. -/
theorem stepEffect_of_next {s t : State} (h : s.Inv) (hst : step s = .next t) : StepEffect s t := by
  rcases step_effect h with ⟨u, hu, he⟩ | ⟨i, es, -, -, hr⟩
  · rw [hst] at hu; cases hu; exact he
  · rw [hst] at hr; cases hr

/-! ## Outputs (00_scope.md R16) -/

/-- What the record `o`, one of the records `new` that the event `e` emits from `s` to `t`, must satisfy
(30_encoding.md R75, R76; 42_producer_commands.md R106; 60_exceptions.md R125). -/
def EmissionOk (s t : State) (e : Event) (new : List Output) : Output → Prop
  | .report r => new = [.report r] ∧ ∃ w oid, e = .command w ∧
      decode w = .ok (.getPosition oid) ∧ r = reportWord oid (s.reg oid.toNat).pos
  | .arm i w => w = (t.reg i).wake ∧ (t.reg i).timer = some w ∧
      ((s.reg i).timer = none ∨ e = .fire i)
  | .cancel i => (s.reg i).timer ≠ none ∧ (t.reg i).timer = none

/-- The event `e` only appends outputs from `s` to `t`, and each new one is as it must be. -/
def AppendsOutputs (s t : State) (e : Event) : Prop :=
  ∃ new, t.outputs = s.outputs ++ new ∧ ∀ o ∈ new, EmissionOk s t e new o

theorem appendsOutputs_none {s t : State} {e : Event} (h : t.outputs = s.outputs) :
    AppendsOutputs s t e :=
  ⟨[], by simp [h], by simp⟩

theorem appendsOutputs_one {s t : State} {e : Event} {o : Output} (h : t.outputs = s.outputs ++ [o])
    (ho : EmissionOk s t e [o] o) : AppendsOutputs s t e :=
  ⟨[o], h, by simpa using ho⟩

/-- An Active instance holds a timer, so a CANCEL for it is owed (10_state.md R30). -/
theorem InstancesOk.timer_ne_none {s : State} (h : InstancesOk s) {i : Nat}
    (hi : s.configured i = true) (ha : (s.reg i).active = true) : (s.reg i).timer ≠ none := by
  simp [h.timer i hi, ha]

/-- An Idle instance holds no timer, so nothing armed is overwritten by its ARM (10_state.md R30). -/
theorem InstancesOk.timer_eq_none {s : State} (h : InstancesOk s) {i : Nat}
    (hi : s.configured i = true) (ha : (s.reg i).active = false) : (s.reg i).timer = none := by
  simp [h.timer i hi, ha]

/-- Fatal entry emits CANCELs only, each for an Active instance (60_exceptions.md R120, R125). -/
theorem FatalEffect.appendsOutputs {code : ErrorCode} {s t : State} (h : FatalEffect code s t)
    (hok : InstancesOk s) (e : Event) : AppendsOutputs s t e := by
  obtain ⟨-, -, -, -, -, hout, hstopped, -⟩ := h
  refine ⟨_, hout, fun o ho => ?_⟩
  obtain ⟨i, hi, rfl⟩ := List.mem_map.mp ho
  obtain ⟨hmem, ha⟩ := List.mem_filter.mp hi
  have hc := mem_configuredIds.mp hmem
  obtain ⟨tail, hr⟩ := hstopped i hc
  exact ⟨hok.timer_ne_none hc ha, by rw [hr]⟩

theorem CommandEffect.appendsOutputs {s t : State} {c : Instr} {w : CommandWord}
    (h : CommandEffect s c t) (hok : InstancesOk s) (hd : decode w = .ok c) :
    AppendsOutputs s t (.command w) := by
  cases h with
  | fatal code hf hl => exact hf.appendsOutputs hok _
  | configure hlt hc => exact appendsOutputs_none (configureInstance_outputs _ _)
  | enqueueIdle hc ha hcount hn hl ho hout hr hp =>
    exact appendsOutputs_one hout ⟨by rw [hr]; rfl, by rw [hr], .inl (hok.timer_eq_none hc ha)⟩
  | enqueueActive hc ha hcount hn hl ho hout hr hnode hseg hp => exact appendsOutputs_none hout
  | setNextDir hc => exact appendsOutputs_none rfl
  | resetClock hc ha => exact appendsOutputs_none rfl
  | getPosition hc => exact appendsOutputs_one rfl ⟨rfl, w, _, rfl, hd, rfl⟩
  | setPosition hc => exact appendsOutputs_none rfl
  | @stop oid _ _ hc hl ho hout hr hp =>
    rcases ha : (s.reg oid.toNat).active with _ | _
    · exact appendsOutputs_none (by simp [hout, cancelsOf, ha])
    · exact appendsOutputs_one (o := .cancel oid.toNat) (by simp [hout, cancelsOf, ha])
        ⟨hok.timer_ne_none hc ha, by rw [hr]⟩

theorem FireEffect.appendsOutputs {s t : State} {i : Nat} (h : FireEffect s i t) (hi : i < s.nInst) :
    AppendsOutputs s t (.fire i) := by
  cases h with
  | rearm hc =>
    have hr := reg_rearm hi ((s.reg i).wake + (s.reg i).ivl)
      (advanceRegisters (takeStep s.fwdBit (s.reg i)))
    exact appendsOutputs_one rfl ⟨by rw [hr]; rfl, by rw [hr], .inr rfl⟩
  | goIdle hc hq => exact appendsOutputs_none rfl
  | loadNext hc hq hl ho hout hr hp =>
    exact appendsOutputs_one hout ⟨by rw [hr]; rfl, by rw [hr], .inr rfl⟩

theorem StepEffect.appendsOutputs {s t : State} {e : Event} {es : List Event} (h : StepEffect s t)
    (hinv : s.Inv) (hin : s.inputs = e :: es) (hne : e ≠ .blockReset) : AppendsOutputs s t e := by
  have hok : ∀ es', InstancesOk { s with inputs := es' } := fun es' =>
    instancesOk_of_inv (inv_withInputs hinv es')
  cases h with
  | wait hw => rw [hin] at hw; cases hw
  | discard hw hs => exact appendsOutputs_none rfl
  | illegal hw hs hd he hl => exact he.appendsOutputs (hok _) e
  | command hw hs hd he =>
    rw [hin] at hw; cases hw
    exact he.appendsOutputs (hok _) hd
  | fire hw ha he =>
    rw [hin] at hw; cases hw
    exact he.appendsOutputs (lt_of_configured (armed_iff.mp ha).1)
  | reset hw => rw [hin] at hw; cases hw; exact absurd rfl hne

/-- Settles O43: every effect of a step short of block reset appends its outputs, and the three clauses
are the three kinds of record. -/
theorem outputsAreAppended : Obligations.OutputsAreAppended := by
  intro s t e es hinv hin hst hne
  obtain ⟨new, hout, hok⟩ := (stepEffect_of_next hinv hst).appendsOutputs hinv hin hne
  exact ⟨new, hout, fun r hr => hok _ hr, fun i w hw => hok _ hw, fun i hi => hok _ hi⟩

/-! ## Parameters and CFG (00_scope.md R7; 10_state.md R33) -/

/-- From `s` to `t` the parameters and every CFG bit are the same. -/
structure SameConfiguration (s t : State) : Prop where
  params : t.params = s.params
  configured : ∀ i, t.configured i = s.configured i

theorem OnlyInstance.params {i : Nat} {s t : State} (h : OnlyInstance i s t) :
    t.params = s.params := by
  simp only [State.params, h.nInst, h.poolNodes, h.fwdBit]

theorem OnlyInstance.sameConfiguration {i : Nat} {s t : State} (h : OnlyInstance i s t)
    (hi : (t.reg i).cfg = (s.reg i).cfg) : SameConfiguration s t :=
  ⟨h.params, h.configured hi⟩

/-- A register write that keeps CFG of its instance keeps the configuration. -/
theorem sameConfiguration_setReg {i : Nat} {s : State} {r : Stepper} (hi : s.configured i = true)
    (hr : r.cfg = (s.reg i).cfg) : SameConfiguration s (s.setReg i r) :=
  (onlyInstance_setReg i s r).sameConfiguration (by rw [reg_setReg_self (lt_of_configured hi), hr])

theorem FatalEffect.sameConfiguration {code : ErrorCode} {s t : State} (h : FatalEffect code s t) :
    SameConfiguration s t := by
  have hcfg : ∀ i, t.configured i = s.configured i := fun i => (h.kept i).2
  obtain ⟨-, -, hparams, -⟩ := h
  exact ⟨hparams, hcfg⟩

theorem FireEffect.sameConfiguration {s t : State} {i : Nat} (h : FireEffect s i t)
    (hi : i < s.nInst) : SameConfiguration s t := by
  obtain ⟨honly, hcfg⟩ := h.only hi
  exact honly.sameConfiguration hcfg

theorem configureInstance_params (i : Nat) (s : State) :
    (configureInstance i s).params = s.params := by
  simp [State.params, State.poolNodes]

theorem configured_configureInstance_self {i : Nat} {s : State} (h : i < s.nInst) :
    (configureInstance i s).configured i = true := by
  simp [State.configured, reg_configureInstance_self h, initRegisters]

theorem configured_configureInstance_ne {i j : Nat} {s : State} (h : j ≠ i) :
    (configureInstance i s).configured j = s.configured j := by
  simp [State.configured, reg_configureInstance_ne h]

/-- Every command keeps the configuration, but a CONFIGURE that creates its instance
(42_producer_commands.md R97). -/
theorem CommandEffect.configuration {s t : State} {c : Instr} (h : CommandEffect s c t) :
    SameConfiguration s t ∨
      ∃ oid, c = .configure oid ∧ oid.toNat < s.nInst ∧ t = configureInstance oid.toNat s := by
  cases h with
  | fatal code hf hl => exact .inl hf.sameConfiguration
  | configure hlt hc => exact .inr ⟨_, rfl, hlt, rfl⟩
  | enqueueIdle hc ha hcount hn hl ho hout hr hp =>
    exact .inl (ho.sameConfiguration (by rw [hr]; rfl))
  | enqueueActive hc ha hcount hn hl ho hout hr hnode hseg hp =>
    exact .inl (ho.sameConfiguration (by rw [hr]))
  | setNextDir hc => exact .inl (sameConfiguration_setReg hc rfl)
  | resetClock hc ha => exact .inl (sameConfiguration_setReg hc rfl)
  | getPosition hc => exact .inl ⟨rfl, fun _ => rfl⟩
  | setPosition hc => exact .inl (sameConfiguration_setReg hc rfl)
  | stop hc hl ho hout hr hp => exact .inl (ho.sameConfiguration (by rw [hr]; rfl))

/-- What a step can do to the configuration: nothing, create one instance by CONFIGURE of it, or clear
it by block reset. -/
theorem StepEffect.configuration {s t : State} {e : Event} {es : List Event} (h : StepEffect s t)
    (hin : s.inputs = e :: es) :
    SameConfiguration s t ∨
    (∃ w oid, e = .command w ∧ decode w = .ok (.configure oid) ∧ oid.toNat < s.nInst ∧
      t = configureInstance oid.toNat { s with inputs := es }) ∨
    (e = .blockReset ∧ t = blockReset { s with inputs := es }) := by
  cases h with
  | wait hw => exact .inl ⟨rfl, fun _ => rfl⟩
  | discard hw hs => exact .inl ⟨rfl, fun _ => rfl⟩
  | illegal hw hs hd he hl =>
    obtain ⟨hp, hc⟩ := he.sameConfiguration
    exact .inl ⟨hp, hc⟩
  | command hw hs hd he =>
    rw [hin] at hw; cases hw
    rcases he.configuration with ⟨hp, hc⟩ | ⟨oid, rfl, hlt, rfl⟩
    · exact .inl ⟨hp, hc⟩
    · exact .inr (.inl ⟨_, oid, rfl, hd, hlt, rfl⟩)
  | fire hw ha he =>
    obtain ⟨hp, hc⟩ := he.sameConfiguration (lt_of_configured (armed_iff.mp ha).1)
    exact .inl ⟨hp, hc⟩
  | reset hw => rw [hin] at hw; cases hw; exact .inr (.inr ⟨rfl, rfl⟩)

/-- Block reset keeps the parameters (70_reset_and_hazards.md R136; entry 15). -/
theorem blockReset_params (s : State) : (blockReset s).params = s.params := by
  simp [State.params]

theorem configured_blockReset (s : State) (i : Nat) : (blockReset s).configured i = false := by
  simp [State.configured, Stepper.unconfigured]

/-- Settles O44, over what a step can do to the configuration. -/
theorem configurationPersists : Obligations.ConfigurationPersists := by
  intro s t e es i hinv hin hst
  rcases (stepEffect_of_next hinv hst).configuration hin with
    ⟨hp, hc⟩ | ⟨w, oid, rfl, hd, hlt, rfl⟩ | ⟨rfl, rfl⟩
  · refine ⟨hp, fun hi _ => (hc i).trans hi, fun hi ht => ?_⟩
    rw [hc i, hi] at ht; cases ht
  · refine ⟨configureInstance_params _ _, fun hi _ => ?_, fun hi ht => ⟨w, oid, rfl, ?_, hd⟩⟩
    · by_cases hio : i = oid.toNat
      · subst hio; exact configured_configureInstance_self hlt
      · exact (configured_configureInstance_ne hio).trans hi
    · by_contra hio
      rw [configured_configureInstance_ne (Ne.symm hio)] at ht
      exact Bool.false_ne_true (hi.symm.trans ht)
  · refine ⟨blockReset_params _, fun _ hne => absurd rfl hne, fun _ ht => ?_⟩
    rw [configured_blockReset] at ht; cases ht

end Sys2Proof.Machine
end

/-! PROOFS. What CONFIGURE of a free slot writes (10_state.md R28), and that every step keeps the
invariant (10_state.md R27, R30 to R35; 20_memory.md R45), read off the effects of
Laws/Invariant.lean. -/

namespace Sys2Proof.Machine

/-! ## CONFIGURE of a free slot (10_state.md R28; 42_producer_commands.md R97) -/

theorem execConfigure_free {s : State} {oid : Oid} (hs : s.shut = false) (hlt : oid.toNat < s.nInst)
    (hc : s.configured oid.toNat = false) :
    execConfigure oid s = .next (configureInstance oid.toNat s) := by
  have hslot : ¬ s.nInst ≤ instanceIndex oid := not_le.mpr hlt
  have hfree : ¬ s.configured (instanceIndex oid) = true := Bool.not_eq_true _ ▸ hc
  rw [execConfigure, unlessShut_of_running hs, if_neg hslot, if_neg hfree, instanceIndex]

/-- Settles O19: no check of CONFIGURE fails, and the state it answers is the written one with the two
drawn values. -/
theorem configureCreatesInstance : Obligations.ConfigureCreatesInstance := fun s oid hs hlt hc =>
  ⟨Config.configurePosition s.resets oid.toNat, Config.emptyQueueTail s.hiddenDraws,
    s.hiddenDraws + 1, execConfigure_free hs hlt hc⟩

/-! ## The invariant of one instance -/

/-- What the invariant says of a configured instance with the registers `r` and the queue nodes `q`,
beyond linked queues (10_state.md R30, R31, R32). -/
structure InstanceOk (s : State) (r : Stepper) (q : List Nat) : Prop where
  idleEmpty : r.active = false → q = []
  counts : ∀ n ∈ q, (s.nodeAt n).count ≠ 0
  timer : r.timer = if r.active then some r.wake else none

theorem InstancesOk.instanceOk {s : State} (h : InstancesOk s) {i : Nat}
    (hi : s.configured i = true) : InstanceOk s (s.reg i) (s.chain i) :=
  ⟨h.idleEmpty i hi, h.counts i hi, h.timer i hi⟩

/-- An instance that has just been stopped or created is in order: nothing is queued, nothing is
armed. -/
theorem instanceOk_idle {s : State} {r : Stepper} (hc : r.cnt = 0) (ht : r.timer = none) :
    InstanceOk s r [] :=
  ⟨fun _ => rfl, by simp, by simp [ht, not_active_iff.mpr hc]⟩

/-- An Active instance, armed at its wake time, may have any queue of nonzero counts. -/
theorem instanceOk_active {s : State} {r : Stepper} {q : List Nat} (hc : r.cnt ≠ 0)
    (ht : r.timer = some r.wake) (hq : ∀ n ∈ q, (s.nodeAt n).count ≠ 0) : InstanceOk s r q := by
  have ha : r.active = true := active_iff.mpr hc
  exact ⟨fun hidle => absurd ha (Bool.not_eq_true _ ▸ hidle), hq, by simp [ht, ha]⟩

/-! ## A transition on one instance keeps the invariant -/

/-- A transition while `SHUT = 0` that touches only instance `i` keeps the invariant if it leaves the
queues linked, the queued segments of the others as they were, and instance `i` itself in order. -/
theorem inv_of_onlyInstance {s t : State} {i : Nat} {q : List Nat} (h : s.Inv) (hs : s.shut = false)
    (ho : OnlyInstance i s t) (hi : t.configured i = true)
    (hl : Linked t (Function.update s.chain i q))
    (hseg : ∀ j, j ≠ i → s.configured j = true → ∀ n ∈ s.chain j,
      (t.nodeAt n).segment = (s.nodeAt n).segment)
    (hok : InstanceOk t (t.reg i) q) : t.Inv := by
  have hall := instancesOk_of_inv h
  have hcfg : ∀ j, j ≠ i → t.configured j = s.configured j := fun j hj => by
    simp only [State.configured, ho.others j hj]
  have hone : ∀ j, t.configured j = true →
      InstanceOk t (t.reg j) (Function.update s.chain i q j) := fun j hj => by
    by_cases hji : j = i
    · subst hji; rwa [Function.update_self]
    · have hjs : s.configured j = true := (hcfg j hji).symm.trans hj
      obtain ⟨hidle, hcounts, htimer⟩ := hall.instanceOk hjs
      rw [Function.update_of_ne hji, ho.others j hji]
      refine ⟨hidle, fun n hn => ?_, htimer⟩
      have hcount : (t.nodeAt n).count = (s.nodeAt n).count :=
        congrArg Segment.count (hseg j hji hjs n hn)
      rw [hcount]; exact hcounts n hn
  obtain ⟨hparams, -, -, -, -, -, -, -, herr⟩ := h
  refine inv_of_linked ?_ hl (fun j hj => (hone j hj).idleEmpty) (fun j hj => (hone j hj).counts)
    (fun j hj => (hone j hj).timer) (fun j hj => ?_) (fun ht => ?_) ?_
  · rw [State.ParamsInRange, ho.params]; exact hparams
  · have hji : j ≠ i := by rintro rfl; rw [hi] at hj; cases hj
    rw [ho.others j hji]
    exact hall.timerOff j ((hcfg j hji).symm.trans hj)
  · rw [ho.shut, hs] at ht; cases ht
  · rw [State.ErrMatchesShut, ho.shut, ho.err]; exact herr

/-- The same for a transition that writes no node and keeps the queue of its configured instance. -/
theorem inv_of_samePool {s t : State} {i : Nat} (h : s.Inv) (hs : s.shut = false)
    (ho : OnlyInstance i s t) (hi : t.configured i = true) (hl : Linked t s.chain)
    (hp : t.pool = s.pool) (hok : InstanceOk t (t.reg i) (s.chain i)) : t.Inv :=
  inv_of_onlyInstance h hs ho hi (by rwa [Function.update_eq_self])
    (fun _ _ _ n _ => by rw [nodeAt_congr (s := s) (t := t) (by rw [hp])]) hok

/-- A write of registers that keeps CFG and the links and leaves the instance in order keeps the
invariant. -/
theorem inv_setReg {s : State} {i : Nat} {r : Stepper} (h : s.Inv) (hs : s.shut = false)
    (hi : s.configured i = true)
    (hr : r.cfg = (s.reg i).cfg ∧ r.qhead = (s.reg i).qhead ∧ r.qtail = (s.reg i).qtail)
    (hok : InstanceOk s r (s.chain i)) : (s.setReg i r).Inv := by
  have hreg : (s.setReg i r).reg i = r := reg_setReg_self (lt_of_configured hi) r
  refine inv_of_samePool h hs (onlyInstance_setReg i s r) ?_
    (linked_setReg (linked_of_inv h) hr) rfl ?_
  · rw [State.configured, hreg, hr.1]; exact hi
  · rw [hreg]; exact ⟨hok.idleEmpty, hok.counts, hok.timer⟩

/-! ## The nodes of the other queues -/

/-- A node that Alloc may take is in no queue. -/
theorem ne_of_mem_chain {s : State} (h : s.Inv) {j n m : Nat} (hj : s.configured j = true)
    (hn : s.isFree n = true) (hm : m ∈ s.chain j) : m ≠ n := by
  rintro rfl
  rw [(linked_of_inv h).notFree j hj m hm] at hn; cases hn

/-- A queued node of one instance is in no queue of another. -/
theorem not_mem_chain_of_ne {s : State} (h : s.Inv) {i j m : Nat} (hi : s.configured i = true)
    (hj : s.configured j = true) (hji : j ≠ i) (hm : m ∈ s.chain j) : m ∉ s.chain i :=
  (linked_of_inv h).disjoint j i hj hi hji hm

/-! ## Fatal entry and block reset -/

/-- Every code of the table is in 1..7 (60_exceptions.md R109). -/
theorem code_mem_table (code : ErrorCode) : 1 ≤ code.code.toNat ∧ code.code.toNat ≤ 7 := by
  cases code <;> decide

theorem FatalEffect.inv {code : ErrorCode} {s t : State} (he : FatalEffect code s t) (h : s.Inv)
    (hl : Linked t (fun _ => [])) : t.Inv := by
  have hall := instancesOk_of_inv h
  have hcfg := he.sameConfiguration.configured
  obtain ⟨herr, hshut, hparams, -, -, -, hstopped, hothers, -, -⟩ := he
  have hidle : ∀ i, t.configured i = true → (t.reg i).active = false ∧ (t.reg i).timer = none :=
    fun i hi => by
      obtain ⟨tail, hr⟩ := hstopped i ((hcfg i).symm.trans hi)
      rw [hr]; exact ⟨rfl, rfl⟩
  refine inv_of_linked ?_ hl (fun _ _ _ => rfl) (by simp) (fun i hi => ?_) (fun i hi => ?_)
    (fun _ i hi => (hidle i hi).1) ?_
  · rw [State.ParamsInRange, hparams]; exact h.1
  · obtain ⟨ha, ht⟩ := hidle i hi
    simp [ha, ht]
  · have his : s.configured i = false := (hcfg i).symm.trans hi
    rw [hothers i his]; exact hall.timerOff i his
  · rw [State.ErrMatchesShut, hshut, herr]; exact code_mem_table code

theorem inv_blockReset {s : State} (h : s.Inv) : (blockReset s).Inv := by
  have hoff : ∀ {i} {P : Prop}, (blockReset s).configured i = true → P := fun hi => by
    rw [configured_blockReset] at hi; cases hi
  refine inv_of_linked ?_ (blockReset_linked s fun _ => []) (fun _ => hoff) (fun _ => hoff)
    (fun _ => hoff) (fun i _ => by rw [reg_blockReset]; rfl) (fun hs => by cases hs) rfl
  rw [State.ParamsInRange, blockReset_params]; exact h.1

/-! ## Commands -/

theorem onlyInstance_configureInstance (i : Nat) (s : State) :
    OnlyInstance i s (configureInstance i s) :=
  ⟨rfl, by simp, rfl, rfl, rfl, rfl, rfl, fun _ hj => reg_configureInstance_ne hj⟩

theorem inv_configureInstance {s : State} {i : Nat} (h : s.Inv) (hs : s.shut = false)
    (hlt : i < s.nInst) (hc : s.configured i = false) : (configureInstance i s).Inv :=
  inv_of_onlyInstance h hs (onlyInstance_configureInstance i s)
    (configured_configureInstance_self hlt) (configureInstance_linked (linked_of_inv h) hlt hc)
    (fun _ _ _ _ _ => rfl) (by
      rw [reg_configureInstance_self hlt]; exact instanceOk_idle rfl rfl)

/-- Every command keeps the invariant while `SHUT = 0` (42_producer_commands.md R97 to R104). -/
theorem CommandEffect.inv {s t : State} {c : Instr} (he : CommandEffect s c t) (h : s.Inv)
    (hs : s.shut = false) : t.Inv := by
  have hall := instancesOk_of_inv h
  cases he with
  | fatal code hf hl => exact hf.inv h hl
  | configure hlt hc => exact inv_configureInstance h hs hlt hc
  | @enqueueIdle oid interval count delta t n tail hc ha hcount hn hl ho hout hr hp =>
    have hq : s.chain oid.toNat = [] := hall.idleEmpty _ hc ha
    refine inv_of_onlyInstance h hs ho (by rw [State.configured, hr]; exact hc)
      (q := []) (by rwa [← hq, Function.update_eq_self]) (fun j _ hj m hm => ?_) ?_
    · rw [nodeAt_congr (hp m (ne_of_mem_chain h hj (isFree_of_allocNode hn) hm))]
    · rw [hr]; exact instanceOk_active hcount rfl (by simp)
  | @enqueueActive oid interval count delta t n head hc ha hcount hn hl ho hout hr hnode hseg hp =>
    have hne : ∀ j, s.configured j = true → ∀ m ∈ s.chain j, m ≠ n := fun j hj m =>
      ne_of_mem_chain h hj (isFree_of_allocNode hn)
    refine inv_of_onlyInstance h hs ho (by rw [State.configured, hr]; exact hc) hl
      (fun j _ hj m hm => hseg m (hne j hj m hm)) ?_
    rw [hr]
    refine instanceOk_active (active_iff.mp ha) (by simpa [ha] using hall.timer _ hc) fun m hm => ?_
    rcases List.mem_append.mp hm with hm | hm
    · have hcount' : (t.nodeAt m).count = (s.nodeAt m).count :=
        congrArg Segment.count (hseg m (hne _ hc m hm))
      rw [hcount']; exact hall.counts _ hc m hm
    · rw [List.mem_singleton.mp hm, hnode]; exact hcount
  | setNextDir hc =>
    obtain ⟨hidle, hcounts, htimer⟩ := hall.instanceOk hc
    exact inv_setReg h hs hc ⟨rfl, rfl, rfl⟩ ⟨hidle, hcounts, htimer⟩
  | @resetClock oid time hc ha =>
    refine inv_setReg h hs hc ⟨rfl, rfl, rfl⟩ ?_
    rw [hall.idleEmpty _ hc ha]
    exact instanceOk_idle (not_active_iff.mp ha) (hall.timer_eq_none hc ha)
  | getPosition hc => exact h
  | setPosition hc =>
    obtain ⟨hidle, hcounts, htimer⟩ := hall.instanceOk hc
    exact inv_setReg h hs hc ⟨rfl, rfl, rfl⟩ ⟨hidle, hcounts, htimer⟩
  | stop hc hl ho hout hr hp =>
    refine inv_of_onlyInstance h hs ho (by rw [State.configured, hr]; exact hc) hl
      (fun j hji hj m hm => ?_) (by rw [hr]; exact instanceOk_idle rfl rfl)
    rw [nodeAt_congr (hp m (not_mem_chain_of_ne h hc hj hji hm))]

/-! ## FIRE -/

/-- A FIRE of an armed instance keeps the invariant (41_stepping_engine.md R86 to R88). -/
theorem FireEffect.inv {s t : State} {i : Nat} (he : FireEffect s i t) (h : s.Inv)
    (ha : s.armed i = true) : t.Inv := by
  obtain ⟨hi, hs, -⟩ := armed_iff.mp ha
  have hall := instancesOk_of_inv h
  have hl := linked_of_inv h
  have hlt := lt_of_configured hi
  obtain ⟨honly, hcfg⟩ := he.only hlt
  have hti : t.configured i = true := hcfg.trans hi
  cases he with
  | rearm hc =>
    have hleft : (s.reg i).cnt - 1 ≠ 0 := sub_ne_zero.mpr hc
    have hl' : Linked (s.setReg i (advanceRegisters (takeStep s.fwdBit (s.reg i)))) s.chain :=
      linked_setReg hl ⟨rfl, rfl, rfl⟩
    refine inv_of_samePool h hs honly hti (linked_arm hl' i _) rfl ?_
    rw [reg_rearm hlt]
    exact instanceOk_active hleft rfl (hall.counts i hi)
  | goIdle hc hq =>
    refine inv_setReg h hs hi ⟨rfl, rfl, rfl⟩ ?_
    rw [hq]; exact instanceOk_idle rfl rfl
  | @loadNext t n l tail hc hq hl' ho hout hr hp =>
    have hn : n ∈ s.chain i := by simp [hq]
    have hnl : n ∉ l := (List.nodup_cons.mp (hq ▸ hl.nodup i hi)).1
    refine inv_of_onlyInstance h hs ho hti hl' (fun j hji hj m hm => ?_) ?_
    · have hmn : m ≠ n := by rintro rfl; exact not_mem_chain_of_ne h hi hj hji hm hn
      rw [nodeAt_congr (hp m hmn)]
    · rw [hr]
      refine instanceOk_active (hall.counts i hi n hn) rfl fun m hm => ?_
      rw [nodeAt_congr (hp m (by rintro rfl; exact hnl hm))]
      exact hall.counts i hi m (by simp [hq, hm])

/-! ## The step -/

/-- Settles O50, over the effects of a step: a waiting or discarding block changes nothing of the
invariant, and each other effect keeps it. -/
theorem stepKeepsInvariant : Obligations.StepKeepsInvariant := by
  intro s t h hst
  cases stepEffect_of_next h hst with
  | wait hin => exact h
  | discard hin hs => exact inv_withInputs h _
  | illegal hin hs hd he hl => exact he.inv (inv_withInputs h _) hl
  | command hin hs hd he => exact he.inv (inv_withInputs h _) hs
  | fire hin ha he => exact he.inv (inv_withInputs h _) ha
  | reset hin => exact inv_blockReset (inv_withInputs h _)

end Sys2Proof.Machine

/-! PROOFS. The layouts of 20_memory.md: the little-endian bytes of a transport (R46, R47) and the record
of a node (R43). -/

namespace Sys2Proof

/-! ## Bytes of a transport (20_memory.md R46, R47) -/

theorem natOfBytes_append (bs cs : List Byte) :
    natOfBytes (bs ++ cs) = natOfBytes bs + 256 ^ bs.length * natOfBytes cs := by
  induction bs with
  | nil => simp [natOfBytes]
  | cons b bs ih =>
    rw [List.cons_append, natOfBytes, natOfBytes, ih, List.length_cons, pow_succ]
    ring

theorem toNat_byteOf {n : Nat} (v : BitVec n) (k : Nat) :
    (byteOf v k).toNat = v.toNat / 256 ^ k % 256 := by
  rw [byteOf, BitVec.extractLsb'_toNat, Nat.shiftRight_eq_div_pow, Nat.pow_mul]

/-- The first `k` bytes of a value stand for its value modulo `256 ^ k`. -/
theorem natOfBytes_byteOf {n : Nat} (v : BitVec n) (k : Nat) :
    natOfBytes ((List.range k).map (byteOf v)) = v.toNat % 256 ^ k := by
  induction k with
  | zero => simp [natOfBytes, Nat.mod_one]
  | succ k ih =>
    rw [List.range_succ, List.map_append, natOfBytes_append, ih, List.map_singleton, natOfBytes,
      natOfBytes, toNat_byteOf, List.length_map, List.length_range, pow_succ, Nat.mod_mul]
    simp

theorem getElem?_bytes {n : Nat} (v : BitVec n) {m k : Nat} (h : k < m) :
    ((List.range m).map (byteOf v))[k]? = some (v.extractLsb' (8 * k) 8) := by
  rw [List.getElem?_map, List.getElem?_range h]; rfl

theorem commandOfBytes_commandToBytes (w : CommandWord) :
    commandOfBytes (commandToBytes w) = .ok w := by
  have hlen : (commandToBytes w).length = 12 := by simp [commandToBytes]
  have hw : w.toNat % 256 ^ 12 = w.toNat := Nat.mod_eq_of_lt w.isLt
  rw [commandOfBytes, if_pos hlen, commandToBytes, natOfBytes_byteOf, hw, BitVec.ofNat_toNat,
    BitVec.setWidth_eq]

theorem decodeBytes_of_length_ne {bs : List Byte} (h : bs.length ≠ 12) :
    decodeBytes bs = .error .partialWord := by
  rw [decodeBytes, commandOfBytes, if_neg h]

/-- Settles O6: the bytes are digits to the base 256, so twelve of them give back the word. -/
theorem transportCarriesWords : Obligations.TransportCarriesWords :=
  ⟨commandOfBytes_commandToBytes, fun w _ => getElem?_bytes w,
    fun w => getElem?_bytes w (k := 0) (by decide), fun w _ => getElem?_bytes w,
    fun _ => decodeBytes_of_length_ne⟩

end Sys2Proof

namespace Sys2Proof.Machine

/-! ## The record of a node (20_memory.md R43) -/

/-- `NW` is wide enough, and no smaller width is. -/
theorem nodeIndexWidth_spec (poolNodes : Nat) :
    poolNodes ≤ 2 ^ nodeIndexWidth poolNodes - 1 ∧
      ∀ w, w < nodeIndexWidth poolNodes → ¬ poolNodes ≤ 2 ^ w - 1 := by
  have hwide : poolNodes ≤ 2 ^ poolNodes - 1 := Nat.le_sub_one_of_lt Nat.lt_two_pow_self
  rcases hf : (List.range (poolNodes + 1)).find? fun nw => decide (poolNodes ≤ 2 ^ nw - 1) with _ | nw
  · have hnone := List.find?_eq_none.mp hf poolNodes (List.mem_range.mpr (Nat.lt_succ_self _))
    simp [hwide] at hnone
  · have hw : nodeIndexWidth poolNodes = nw := by rw [nodeIndexWidth, hf]; rfl
    obtain ⟨hnw, -, hmin⟩ := List.find?_range_eq_some.mp hf
    rw [hw]
    exact ⟨by simpa using hnw, fun w hlt => by simpa using hmin w hlt⟩

theorem linkBits_nil (nw : Nat) : linkBits nw none = BitVec.allOnes nw := by
  apply BitVec.eq_of_toNat_eq
  simp [linkBits, nilIndex]

/-- A link that is NIL or names a node of the pool reads back from its bits. -/
theorem linkOfBits_linkBits {nw poolNodes : Nat} (hnw : poolNodes ≤ 2 ^ nw - 1) {l : Link}
    (hl : ∀ n, l = some n → n < poolNodes) : linkOfBits (linkBits nw l) = l := by
  cases l with
  | none => rw [linkBits_nil, linkOfBits, if_pos (by simp [nilIndex])]
  | some n =>
    have hn : n < 2 ^ nw - 1 := lt_of_lt_of_le (hl n rfl) hnw
    have hval : (linkBits nw (some n)).toNat = n :=
      Nat.mod_eq_of_lt (lt_of_lt_of_le hn (Nat.sub_le _ _))
    rw [linkOfBits, hval, if_neg (by rw [nilIndex]; omega)]

section
variable (nd : Node) (nw : Nat)

theorem nodePayload_nodeRecord : (nodeRecord nw nd).extractLsb' 0 65 = nodePayload nd :=
  BitVec.extractLsb'_append_eq_right

theorem next_nodeRecord : (nodeRecord nw nd).extractLsb' 65 nw = linkBits nw nd.next :=
  BitVec.extractLsb'_append_eq_left

/-- A field of the payload stands at the same place in the record. -/
theorem extractLsb'_nodeRecord {start len : Nat} (h : start + len ≤ 65) :
    (nodeRecord nw nd).extractLsb' start len = (nodePayload nd).extractLsb' start len :=
  BitVec.extractLsb'_append_eq_of_add_le h

theorem interval_nodePayload : (nodePayload nd).extractLsb' 0 32 = nd.interval :=
  BitVec.extractLsb'_append_eq_right

theorem delta_nodePayload : (nodePayload nd).extractLsb' 32 16 = nd.delta := by
  rw [nodePayload, BitVec.extractLsb'_append_eq_of_le (by omega), BitVec.extractLsb'_append_eq_right]

theorem count_nodePayload : (nodePayload nd).extractLsb' 48 16 = nd.count := by
  rw [nodePayload, BitVec.extractLsb'_append_eq_of_le (by omega),
    BitVec.extractLsb'_append_eq_of_le (by omega), BitVec.extractLsb'_append_eq_right]

theorem dir_nodePayload : (nodePayload nd).extractLsb' 64 1 = nd.dir := by
  rw [nodePayload, BitVec.extractLsb'_append_eq_of_le (by omega),
    BitVec.extractLsb'_append_eq_of_le (by omega), BitVec.extractLsb'_append_eq_left]

theorem nodeOfPayload_nodePayload (next : Link) :
    nodeOfPayload (nodePayload nd) next = { nd with next := next } := by
  rw [nodeOfPayload, interval_nodePayload, delta_nodePayload, count_nodePayload, dir_nodePayload]

end

/-- Settles O8: the width, then the record field by field, then the way back. -/
theorem nodeRecordLayout : Obligations.NodeRecordLayout := by
  intro poolNodes nd hnext
  obtain ⟨hwide, hmin⟩ := nodeIndexWidth_spec poolNodes
  refine ⟨hwide, hmin, ?_, ?_, ?_, ?_, ?_, ?_⟩
  · rw [extractLsb'_nodeRecord _ _ (by omega), interval_nodePayload]
  · rw [extractLsb'_nodeRecord _ _ (by omega), delta_nodePayload]
  · rw [extractLsb'_nodeRecord _ _ (by omega), count_nodePayload]
  · rw [extractLsb'_nodeRecord _ _ (by omega), dir_nodePayload]
  · rw [next_nodeRecord]
    rcases nd.next with _ | n
    · exact linkBits_nil _
    · rfl
  · rw [nodeOfRecord, nodePayload_nodeRecord, next_nodeRecord, linkOfBits_linkBits hwide hnext,
      nodeOfPayload_nodePayload]

end Sys2Proof.Machine

/-! PROOFS. The abstract view of the block as a machine of its own (20_memory.md R44;
40_motion_queue.md R79): which fatal condition a command raises, and what every transition does to the
views of the instances and to the outputs, are functions of the views and of the number of free nodes;
and that number is what the queues leave over (20_memory.md R45). Hence no node index and no hidden draw
can be observed (R80, R81). -/

namespace Sys2Proof.Machine

/-! ## Reading the abstract view -/

/-- The registers `r` and the queue `q` as one instance of the abstract view. -/
def Stepper.withQueue (r : Stepper) (q : List Segment) : InstanceView :=
  ⟨r.pos, r.wake, r.ivl, r.dlt, r.cnt, r.cdir, r.ndir, q, r.timer⟩

theorem viewOf_configured {s : State} {i : Nat} (h : s.configured i = true) :
    s.viewOf i = some ((s.reg i).withQueue (s.queue i)) := if_pos h

theorem viewOf_unconfigured {s : State} {i : Nat} (h : s.configured i = false) :
    s.viewOf i = none := by
  rw [State.configured] at h; simp [State.viewOf, h]

@[simp] theorem isSome_viewOf (s : State) (i : Nat) : (s.viewOf i).isSome = s.configured i := by
  rcases h : s.configured i with _ | _
  · rw [viewOf_unconfigured h]; rfl
  · rw [viewOf_configured h]; rfl

/-- The abstract views of the instances, by id. -/
abbrev Views := Nat → Option InstanceView

/-- The views with the one of a configured instance `i` changed by `f`. -/
def Views.modify (v : Views) (i : Nat) (f : InstanceView → InstanceView) : Views :=
  Function.update v i ((v i).map f)

@[simp] theorem Views.modify_self (v : Views) (i : Nat) (f) : v.modify i f i = (v i).map f :=
  Function.update_self ..

@[simp] theorem Views.modify_ne (v : Views) {i j : Nat} (h : j ≠ i) (f) : v.modify i f j = v j :=
  Function.update_of_ne h ..

theorem Views.modify_comm (v : Views) {i j : Nat} (h : i ≠ j) (f g) :
    (v.modify i f).modify j g = (v.modify j g).modify i f := by
  have hi : v.modify j g i = v i := Views.modify_ne v h g
  have hj : v.modify i f j = v j := Views.modify_ne v h.symm f
  rw [Views.modify, hj, Views.modify, Views.modify, hi]
  exact Function.update_comm h _ _ v

/-! ## The transitions of the abstract machine -/

namespace InstanceView

/-- Load of the segment `g` (41_stepping_engine.md R88). -/
def load (a : InstanceView) (g : Segment) : InstanceView :=
  { a with
    wake := a.wake + g.interval, ivl := advanceInterval g.interval g.delta, dlt := g.delta
    cnt := g.count, cdir := g.dir, timer := some (a.wake + g.interval) }

/-- ENQUEUE of the segment `g`: loaded at once on an Idle instance, else put behind the queue
(42_producer_commands.md R98). -/
def enqueue (a : InstanceView) (g : Segment) : InstanceView :=
  if a.cnt = 0 then a.load g else { a with queue := a.queue ++ [g] }

/-- StopInstance (41_stepping_engine.md R90). -/
def stop (a : InstanceView) : InstanceView :=
  { a with wake := 0, cnt := 0, cdir := 0, ndir := 0, queue := [], timer := none }

/-- Part 1 of FIRE: one step in the current direction (41_stepping_engine.md R86). -/
def takeStep (fwdBit : Bit) (a : InstanceView) : InstanceView :=
  { a with pos := a.pos + dirStep fwdBit a.cdir, timer := none }

/-- The instance is armed again for the next step of its segment (R86). -/
def rearm (a : InstanceView) : InstanceView :=
  { a with
    cnt := a.cnt - 1, wake := a.wake + a.ivl, ivl := advanceInterval a.ivl a.dlt
    timer := some (a.wake + a.ivl) }

/-- Load from the queue, or the way to Idle (41_stepping_engine.md R87, R88). -/
def loadNext (a : InstanceView) : InstanceView :=
  match a.queue with
  | [] => { a with cnt := 0 }
  | g :: gs => { a.load g with queue := gs }

/-- FIRE (41_stepping_engine.md R86 to R88). -/
def fire (fwdBit : Bit) (a : InstanceView) : InstanceView :=
  if a.cnt = 1 then (a.takeStep fwdBit).loadNext else (a.takeStep fwdBit).rearm

/-- An instance that CONFIGURE has just created (10_state.md R28). -/
def created (p0 : Word) : InstanceView := ⟨p0, 0, 0, 0, 0, 0, 0, [], none⟩

end InstanceView

/-- What a command that raises no fatal condition does to the views (42_producer_commands.md R97 to
R103); SHUTDOWN_ALL always raises one. -/
def viewsAfter (resets : Nat) (v : Views) : Instr → Views
  | .configure oid => Function.update v oid.toNat
      (some (.created (Config.configurePosition resets oid.toNat)))
  | .enqueue oid interval count delta =>
    v.modify oid.toNat fun a => a.enqueue ⟨interval, delta, count, a.ndir⟩
  | .setNextDir oid dir => v.modify oid.toNat fun a => { a with ndir := dir }
  | .resetClock oid time => v.modify oid.toNat fun a => { a with wake := time }
  | .getPosition _ => v
  | .setPosition oid value => v.modify oid.toNat fun a => { a with pos := value }
  | .stop oid => v.modify oid.toNat InstanceView.stop
  | .shutdownAll => v

/-- The records such a command emits on the view of its instance (R98, R101, R103). -/
def InstanceView.records (a : InstanceView) : Instr → List Output
  | .enqueue oid interval _ _ => if a.cnt = 0 then [.arm oid.toNat (a.wake + interval)] else []
  | .getPosition oid => [.report (reportWord oid a.pos)]
  | .stop oid => if a.cnt = 0 then [] else [.cancel oid.toNat]
  | _ => []

/-- The records such a command emits. -/
def recordsOf (v : Views) (c : Instr) : List Output :=
  ((namedId c).bind fun oid => (v oid.toNat).map fun a => a.records c).getD []

/-- The records of a FIRE: one ARM if the instance is armed again (41_stepping_engine.md R86, R88). -/
def fireRecords (fwdBit : Bit) (v : Views) (i : Nat) : List Output :=
  (((v i).bind fun a => (a.fire fwdBit).timer).map (Output.arm i)).toList

/-- The fatal condition that a command raises while `SHUT = 0`, from the views, the number of slots and
the number of free nodes (42_producer_commands.md R96 to R104; 60_exceptions.md R110 to R116, R121). -/
def raisedCode (nInst free : Nat) (v : Views) : Instr → Option ErrorCode
  | .configure oid =>
    if nInst ≤ oid.toNat then some .allocExhausted
    else if (v oid.toNat).isSome then some .alreadyConfigured else none
  | .enqueue oid _ count _ =>
    if (v oid.toNat).isSome then
      if count = 0 then some .invalidArgument
      else if free = 0 then some .allocExhausted else none
    else some .typeMismatch
  | .resetClock oid _ =>
    (v oid.toNat).elim (some .typeMismatch) fun a =>
      if a.cnt = 0 then none else some .invalidState
  | .setNextDir oid _ | .getPosition oid | .setPosition oid _ | .stop oid =>
    if (v oid.toNat).isSome then none else some .typeMismatch
  | .shutdownAll => some .externalShutdown

/-! ## The views after a transition of one instance -/

/-- A transition that touches only instance `i` changes the view of `i` alone. -/
theorem viewOf_of_onlyInstance {s t : State} {i : Nat} {q : List Nat}
    (ho : OnlyInstance i s t) (hi : t.configured i = true)
    (hl : Linked t (Function.update s.chain i q))
    (hseg : ∀ j, j ≠ i → s.configured j = true → ∀ n ∈ s.chain j,
      (t.nodeAt n).segment = (s.nodeAt n).segment) :
    t.viewOf = Function.update s.viewOf i
      (some ((t.reg i).withQueue (q.map fun n => (t.nodeAt n).segment))) := by
  funext j
  by_cases hji : j = i
  · subst hji
    rw [Function.update_self, viewOf_configured hi, queue_of_linked hl hi, Function.update_self]
  · have hreg := ho.others j hji
    have hcfg : t.configured j = s.configured j := by simp only [State.configured, hreg]
    rw [Function.update_of_ne hji]
    rcases hj : s.configured j with _ | _
    · rw [viewOf_unconfigured hj, viewOf_unconfigured (hcfg.trans hj)]
    · rw [viewOf_configured hj, viewOf_configured (hcfg.trans hj), hreg,
        queue_kept hl (hcfg.trans hj) (Function.update_of_ne hji ..) (hseg j hji hj)]

/-- The same, as a change of the view of a configured instance. -/
theorem viewOf_eq_modify {s t : State} {i : Nat} {q : List Nat} {f : InstanceView → InstanceView}
    (ho : OnlyInstance i s t) (hi : s.configured i = true)
    (hcfg : (t.reg i).cfg = (s.reg i).cfg)
    (hl : Linked t (Function.update s.chain i q))
    (hseg : ∀ j, j ≠ i → s.configured j = true → ∀ n ∈ s.chain j,
      (t.nodeAt n).segment = (s.nodeAt n).segment)
    (hf : (t.reg i).withQueue (q.map fun n => (t.nodeAt n).segment) =
      f ((s.reg i).withQueue (s.queue i))) :
    t.viewOf = Views.modify s.viewOf i f := by
  rw [viewOf_of_onlyInstance ho (hcfg.trans hi) hl hseg, hf, Views.modify, viewOf_configured hi]
  rfl

/-- A transition that writes no node and keeps the links changes registers of its instance only. -/
theorem viewOf_of_samePool {s t : State} {i : Nat} {f : InstanceView → InstanceView} (h : s.Inv)
    (ho : OnlyInstance i s t) (hi : s.configured i = true) (hp : t.pool = s.pool)
    (hr : (t.reg i).cfg = (s.reg i).cfg ∧ (t.reg i).qhead = (s.reg i).qhead ∧
      (t.reg i).qtail = (s.reg i).qtail)
    (hf : (t.reg i).withQueue (s.queue i) = f ((s.reg i).withQueue (s.queue i))) :
    t.viewOf = Views.modify s.viewOf i f := by
  have hnode : ∀ n, t.nodeAt n = s.nodeAt n := fun n => nodeAt_congr (by rw [hp])
  have hl : Linked t s.chain := linked_congr (linked_of_inv h) hp fun j => by
    by_cases hji : j = i
    · rw [hji]; exact hr
    · rw [ho.others j hji]; exact ⟨rfl, rfl, rfl⟩
  refine viewOf_eq_modify (q := s.chain i) ho hi hr.1 (by rwa [Function.update_eq_self])
    (fun _ _ _ n _ => by rw [hnode]) ?_
  simp only [hnode]; exact hf

theorem viewOf_setReg {s : State} {i : Nat} {r : Stepper} {f : InstanceView → InstanceView}
    (h : s.Inv) (hi : s.configured i = true)
    (hr : r.cfg = (s.reg i).cfg ∧ r.qhead = (s.reg i).qhead ∧ r.qtail = (s.reg i).qtail)
    (hf : r.withQueue (s.queue i) = f ((s.reg i).withQueue (s.queue i))) :
    (s.setReg i r).viewOf = Views.modify s.viewOf i f := by
  have hreg : (s.setReg i r).reg i = r := reg_setReg_self (lt_of_configured hi) r
  refine viewOf_of_samePool h (onlyInstance_setReg i s r) hi rfl ?_ ?_
  · rw [hreg]; exact hr
  · rw [hreg]; exact hf

/-! ## FIRE -/

/-- The segments of a queue, with its head node taken apart. -/
theorem queue_cons {s : State} {i n : Nat} {l : List Nat} (h : s.chain i = n :: l) :
    s.queue i = (s.nodeAt n).segment :: l.map fun m => (s.nodeAt m).segment := by
  rw [State.queue, h]; rfl

theorem queue_nil {s : State} {i : Nat} (h : s.chain i = []) : s.queue i = [] := by
  rw [State.queue, h]; rfl

/-- FIRE of an instance with the registers `r` and the queue `q`, while steps remain. -/
theorem fire_withQueue_rearm {fwdBit : Bit} {r : Stepper} (h : r.cnt ≠ 1) (q : List Segment) :
    (r.withQueue q).fire fwdBit =
      { advanceRegisters (takeStep fwdBit r) with
        timer := some (r.wake + r.ivl) : Stepper }.withQueue q := if_neg h

theorem fire_withQueue_nil {fwdBit : Bit} {r : Stepper} (h : r.cnt = 1) :
    (r.withQueue []).fire fwdBit = { takeStep fwdBit r with cnt := 0 : Stepper }.withQueue [] :=
  if_pos h

theorem fire_withQueue_cons {fwdBit : Bit} {r : Stepper} (h : r.cnt = 1) (nd : Node)
    (q : List Segment) :
    (r.withQueue (nd.segment :: q)).fire fwdBit =
      { loadRegisters (takeStep fwdBit r) nd with
        timer := some (r.wake + nd.interval) : Stepper }.withQueue q := if_pos h

/-- A FIRE is the FIRE of the abstract machine (41_stepping_engine.md R86 to R88). -/
theorem FireEffect.viewOf {s t : State} {i : Nat} (he : FireEffect s i t) (h : s.Inv)
    (hi : s.configured i = true) :
    t.viewOf = Views.modify s.viewOf i (InstanceView.fire s.fwdBit) := by
  have hlt := lt_of_configured hi
  have hl := linked_of_inv h
  obtain ⟨ho, hcfg⟩ := he.only hlt
  cases he with
  | rearm hc =>
    refine viewOf_of_samePool h ho hi rfl ?_ ?_
    · rw [reg_rearm hlt]; exact ⟨rfl, rfl, rfl⟩
    · rw [reg_rearm hlt, fire_withQueue_rearm hc]
  | goIdle hc hq =>
    refine viewOf_setReg h hi ⟨rfl, rfl, rfl⟩ ?_
    rw [queue_nil hq, fire_withQueue_nil hc]
  | @loadNext t n l tail hc hq hl' ho' hout hr hp =>
    have hn : n ∈ s.chain i := by simp [hq]
    have hnl : n ∉ l := (List.nodup_cons.mp (hq ▸ hl.nodup i hi)).1
    have hseg : ∀ m, m ≠ n → (t.nodeAt m).segment = (s.nodeAt m).segment := fun m hm => by
      rw [nodeAt_congr (hp m hm)]
    have hrest : (l.map fun m => (t.nodeAt m).segment) = l.map fun m => (s.nodeAt m).segment :=
      List.map_congr_left fun m hm => hseg m (by rintro rfl; exact hnl hm)
    refine viewOf_eq_modify ho hi hcfg hl' (fun j hji hj m hm => hseg m ?_) ?_
    · rintro rfl; exact not_mem_chain_of_ne h hi hj hji hm hn
    · rw [hr, hrest, queue_cons hq, fire_withQueue_cons hc]; rfl

/-- The records of a FIRE are those of the abstract machine. -/
theorem FireEffect.outputs {s t : State} {i : Nat} (he : FireEffect s i t)
    (hi : s.configured i = true) :
    t.outputs = s.outputs ++ fireRecords s.fwdBit s.viewOf i := by
  rw [fireRecords, viewOf_configured hi, Option.bind_some]
  cases he with
  | rearm hc => rw [fire_withQueue_rearm hc]; rfl
  | goIdle hc hq => rw [queue_nil hq, fire_withQueue_nil hc]; exact (List.append_nil _).symm
  | loadNext hc hq hl' ho hout hr hp => rw [hout, queue_cons hq, fire_withQueue_cons hc]; rfl

/-! ## Commands -/

/-- A transition that writes no segment but that of a free node keeps every queued segment. -/
theorem segment_of_free_written {s t : State} {n : Nat} (h : s.Inv) (hn : s.isFree n = true)
    (hseg : ∀ m, m ≠ n → (t.nodeAt m).segment = (s.nodeAt m).segment) {j : Nat}
    (hj : s.configured j = true) : ∀ m ∈ s.chain j, (t.nodeAt m).segment = (s.nodeAt m).segment :=
  fun m hm => hseg m (ne_of_mem_chain h hj hn hm)

theorem enqueue_withQueue_idle {r : Stepper} (h : r.active = false) (interval : Word)
    (count delta : Half) (q : List Segment) :
    (r.withQueue q).enqueue ⟨interval, delta, count, r.ndir⟩ =
      { loadRegisters r (newSegment interval count delta r.ndir) with
        timer := some (r.wake + interval) : Stepper }.withQueue q := if_pos (not_active_iff.mp h)

theorem enqueue_withQueue_active {r : Stepper} (h : r.active = true) (g : Segment)
    (q : List Segment) : (r.withQueue q).enqueue g = r.withQueue (q ++ [g]) :=
  if_neg (active_iff.mp h)

theorem FatalEffect.shut {code : ErrorCode} {s t : State} (h : FatalEffect code s t) :
    t.shut = true := by
  obtain ⟨-, hshut, -⟩ := h
  exact hshut

/-- A command that raises no fatal condition is the command of the abstract machine
(42_producer_commands.md R97 to R103). -/
theorem CommandEffect.viewOf {s t : State} {c : Instr} (he : CommandEffect s c t) (h : s.Inv)
    (ht : t.shut = false) : t.viewOf = viewsAfter s.resets s.viewOf c := by
  have hall := instancesOk_of_inv h
  cases he with
  | fatal code hf hl => cases ht.symm.trans hf.shut
  | configure hlt hc =>
    rw [viewOf_of_onlyInstance (onlyInstance_configureInstance _ s)
      (configured_configureInstance_self hlt) (configureInstance_linked (linked_of_inv h) hlt hc)
      (fun _ _ _ _ _ => rfl), reg_configureInstance_self hlt]
    rfl
  | @enqueueIdle oid interval count delta t n tail hc ha hcount hn hl ho hout hr hp =>
    have hq : s.chain oid.toNat = [] := hall.idleEmpty _ hc ha
    refine viewOf_eq_modify (q := []) ho hc (by rw [hr]; rfl)
      (by rwa [← hq, Function.update_eq_self])
      (fun j _ hj => segment_of_free_written h (isFree_of_allocNode hn)
        (fun m hm => by rw [nodeAt_congr (hp m hm)]) hj) ?_
    rw [hr, queue_nil hq]
    exact (enqueue_withQueue_idle ha interval count delta []).symm
  | @enqueueActive oid interval count delta t n head hc ha hcount hn hl ho hout hr hnode hseg hp =>
    have hkept : ∀ j, s.configured j = true → ∀ m ∈ s.chain j,
        (t.nodeAt m).segment = (s.nodeAt m).segment := fun j =>
      segment_of_free_written h (isFree_of_allocNode hn) hseg
    refine viewOf_eq_modify ho hc (by rw [hr]) hl (fun j _ => hkept j) ?_
    have hnew : (t.nodeAt n).segment = ⟨interval, delta, count, (s.reg oid.toNat).ndir⟩ := by
      rw [hnode]; rfl
    rw [hr, List.map_append, List.map_congr_left (hkept _ hc), List.map_singleton, hnew]
    exact (enqueue_withQueue_active ha _ _).symm
  | setNextDir hc => exact viewOf_setReg h hc ⟨rfl, rfl, rfl⟩ rfl
  | resetClock hc ha => exact viewOf_setReg h hc ⟨rfl, rfl, rfl⟩ rfl
  | getPosition hc => rfl
  | setPosition hc => exact viewOf_setReg h hc ⟨rfl, rfl, rfl⟩ rfl
  | @stop oid t tail hc hl ho hout hr hp =>
    refine viewOf_eq_modify (q := []) ho hc (by rw [hr]; rfl) hl (fun j hji hj m hm => ?_)
      (by rw [hr]; rfl)
    rw [nodeAt_congr (hp m (not_mem_chain_of_ne h hc hj hji hm))]

theorem recordsOf_configured {s : State} {c : Instr} {oid : Oid} (hn : namedId c = some oid)
    (hi : s.configured oid.toNat = true) :
    recordsOf s.viewOf c =
      ((s.reg oid.toNat).withQueue (s.queue oid.toNat)).records c := by
  simp [recordsOf, hn, viewOf_configured hi]

/-- The records of such a command are those of the abstract machine. -/
theorem CommandEffect.outputs {s t : State} {c : Instr} (he : CommandEffect s c t)
    (ht : t.shut = false) : t.outputs = s.outputs ++ recordsOf s.viewOf c := by
  have silent : ∀ {l : List Output}, l = [] → s.outputs = s.outputs ++ l := by
    rintro _ rfl; exact (List.append_nil _).symm
  cases he with
  | fatal code hf hl => cases ht.symm.trans hf.shut
  | @configure oid hlt hc =>
    refine silent ?_
    simp [recordsOf, namedId, viewOf_unconfigured hc]
  | enqueueIdle hc ha hcount hn hl ho hout hr hp =>
    rw [recordsOf_configured rfl hc, hout]
    exact congrArg _ (if_pos (not_active_iff.mp ha)).symm
  | enqueueActive hc ha hcount hn hl ho hout hr hnode hseg hp =>
    rw [recordsOf_configured rfl hc, hout]
    exact silent (if_neg (active_iff.mp ha))
  | setNextDir hc => rw [recordsOf_configured rfl hc]; exact silent rfl
  | resetClock hc ha => rw [recordsOf_configured rfl hc]; exact silent rfl
  | getPosition hc => rw [recordsOf_configured rfl hc]; rfl
  | setPosition hc => rw [recordsOf_configured rfl hc]; exact silent rfl
  | @stop oid t tail hc hl ho hout hr hp =>
    rw [recordsOf_configured rfl hc, hout, cancelsOf]
    rcases ha : (s.reg oid.toNat).active with _ | _
    · exact congrArg _ (if_pos (not_active_iff.mp ha)).symm
    · exact congrArg _ (if_neg (active_iff.mp ha)).symm

/-- A command ends in fatal entry, or keeps the global state; and a CONFIGURE that does not raise found
its slot free (R97). -/
theorem CommandEffect.fatal_or_globals {s t : State} {c : Instr} (he : CommandEffect s c t) :
    (∃ code, FatalEffect code s t ∧ Linked t fun _ => []) ∨
    (SameGlobals s t ∧ ∀ oid, c = .configure oid → s.configured oid.toNat = false) := by
  cases he with
  | fatal code hf hl => exact .inl ⟨code, hf, hl⟩
  | configure hlt hc =>
    exact .inr ⟨(onlyInstance_configureInstance _ s).globals, fun _ h => by cases h; exact hc⟩
  | enqueueIdle hc ha hcount hn hl ho hout hr hp => exact .inr ⟨ho.globals, nofun⟩
  | enqueueActive hc ha hcount hn hl ho hout hr hnode hseg hp => exact .inr ⟨ho.globals, nofun⟩
  | setNextDir hc => exact .inr ⟨(onlyInstance_setReg _ s _).globals, nofun⟩
  | resetClock hc ha => exact .inr ⟨(onlyInstance_setReg _ s _).globals, nofun⟩
  | getPosition hc => exact .inr ⟨⟨rfl, rfl, rfl, rfl, rfl, rfl, rfl⟩, nofun⟩
  | setPosition hc => exact .inr ⟨(onlyInstance_setReg _ s _).globals, nofun⟩
  | stop hc hl ho hout hr hp => exact .inr ⟨ho.globals, nofun⟩

/-! ## Fatal entry -/

/-- Fatal entry stops every instance of the abstract machine (60_exceptions.md R118 to R120). -/
theorem FatalEffect.viewOf {code : ErrorCode} {s t : State} (he : FatalEffect code s t)
    (hl : Linked t fun _ => []) : t.viewOf = fun i => (s.viewOf i).map InstanceView.stop := by
  have hcfg := he.sameConfiguration.configured
  obtain ⟨-, -, -, -, -, -, hstopped, -⟩ := he
  funext i
  rcases hi : s.configured i with _ | _
  · rw [viewOf_unconfigured hi, viewOf_unconfigured ((hcfg i).trans hi)]; rfl
  · obtain ⟨tail, hr⟩ := hstopped i hi
    rw [viewOf_configured hi, viewOf_configured ((hcfg i).trans hi), hr,
      queue_of_linked hl ((hcfg i).trans hi)]
    rfl

/-! ## Which fatal condition a command raises -/

section
variable {s : State} {oid : Oid}

/-- A command that looks up an id that is no configured instance raises TypeMismatch
(60_exceptions.md R112). -/
theorem exec_unconfigured {c : Instr} (hc : lookedUpId c = some oid) (hs : s.shut = false)
    (hi : s.configured oid.toNat = false) : exec c s = raiseFatal .typeMismatch s := by
  cases c <;> cases hc <;>
    simp only [exec, execEnqueue, execSetNextDir, execResetClock, execGetPosition, execSetPosition,
      execStop, onInstance_unconfigured hs hi]

/-! Each command's own rule, which runs on a configured instance while `SHUT = 0`. -/

theorem exec_enqueue_eq (hs : s.shut = false) (hi : s.configured oid.toNat = true)
    (interval : Word) (count delta : Half) :
    exec (.enqueue oid interval count delta) s =
      enqueueWith (Config.nodeChoice s.hiddenDraws) oid.toNat interval count delta s := by
  simp only [exec, execEnqueue, onInstance_configured hs hi, instanceIndex]

theorem exec_setNextDir_eq (hs : s.shut = false) (hi : s.configured oid.toNat = true) (dir : Bit) :
    exec (.setNextDir oid dir) s =
      .next (s.setReg oid.toNat { s.reg oid.toNat with ndir := dir }) := by
  simp only [exec, execSetNextDir, onInstance_configured hs hi, instanceIndex]

theorem exec_resetClock_eq (hs : s.shut = false) (hi : s.configured oid.toNat = true) (time : Word) :
    exec (.resetClock oid time) s =
      if (s.reg oid.toNat).active then raiseFatal .invalidState s
      else .next (s.setReg oid.toNat { s.reg oid.toNat with wake := time }) := by
  rw [exec, execResetClock]; exact onInstance_configured hs hi _

theorem exec_getPosition_eq (hs : s.shut = false) (hi : s.configured oid.toNat = true) :
    exec (.getPosition oid) s = .next (s.emit (.report (reportWord oid (s.reg oid.toNat).pos))) := by
  simp only [exec, execGetPosition, onInstance_configured hs hi, instanceIndex]

theorem exec_setPosition_eq (hs : s.shut = false) (hi : s.configured oid.toNat = true)
    (value : Word) :
    exec (.setPosition oid value) s =
      .next (s.setReg oid.toNat { s.reg oid.toNat with pos := value }) := by
  simp only [exec, execSetPosition, onInstance_configured hs hi, instanceIndex]

theorem exec_stop_eq (hs : s.shut = false) (hi : s.configured oid.toNat = true) :
    exec (.stop oid) s = commit (stopInstance oid.toNat s) := by
  simp only [exec, execStop, onInstance_configured hs hi, instanceIndex]

theorem exec_configure_eq (hs : s.shut = false) :
    exec (.configure oid) s =
      if s.nInst ≤ oid.toNat then raiseFatal .allocExhausted s
      else if s.configured oid.toNat then raiseFatal .alreadyConfigured s
      else .next (configureInstance oid.toNat s) := unlessShut_of_running hs _

theorem exec_shutdownAll_eq (hs : s.shut = false) :
    exec .shutdownAll s = raiseFatal .externalShutdown s := unlessShut_of_running hs _

end

/-- What the abstract machine says is raised, is raised. -/
theorem exec_eq_raiseFatal {s : State} {c : Instr} {code : ErrorCode} (hs : s.shut = false)
    (h : raisedCode s.nInst s.freeNodes.length s.viewOf c = some code) :
    exec c s = raiseFatal code s := by
  cases c with
  | configure oid =>
    rw [exec_configure_eq hs]
    simp only [raisedCode, isSome_viewOf] at h
    split_ifs at h with hlt hc
    · cases h; rw [if_pos hlt]
    · cases h; rw [if_neg hlt, if_pos hc]
  | enqueue oid interval count delta =>
    simp only [raisedCode, isSome_viewOf] at h
    split_ifs at h with hi hcount hfree
    · cases h; rw [exec_enqueue_eq hs hi, enqueueWith, if_pos hcount]
    · cases h
      rw [exec_enqueue_eq hs hi, enqueueWith, if_neg hcount,
        (allocNode_eq_none _).mpr (List.length_eq_zero_iff.mp hfree)]
    · cases h; exact exec_unconfigured rfl hs (Bool.not_eq_true _ ▸ hi)
  | resetClock oid time =>
    rcases hi : s.configured oid.toNat with _ | _
    · rw [raisedCode, viewOf_unconfigured hi] at h
      cases h; exact exec_unconfigured rfl hs hi
    · rw [raisedCode, viewOf_configured hi, Option.elim_some] at h
      split_ifs at h with hcnt
      cases h
      rw [exec_resetClock_eq hs hi, if_pos (active_iff.mpr hcnt)]
  | setNextDir oid _ | getPosition oid | setPosition oid _ | stop oid =>
    simp only [raisedCode, isSome_viewOf] at h
    split_ifs at h with hi
    cases h; exact exec_unconfigured rfl hs (Bool.not_eq_true _ ▸ hi)
  | shutdownAll => cases h; exact exec_shutdownAll_eq hs

/-- Where the abstract machine raises nothing, the block goes on running. -/
theorem exec_keeps_running {s : State} {c : Instr} (hinv : s.Inv) (hs : s.shut = false)
    (h : raisedCode s.nInst s.freeNodes.length s.viewOf c = none) :
    ∃ t, exec c s = .next t ∧ t.shut = false := by
  have hl := linked_of_inv hinv
  cases c with
  | configure oid =>
    simp only [raisedCode, isSome_viewOf] at h
    split_ifs at h with hlt hc
    exact ⟨configureInstance oid.toNat s, by rw [exec_configure_eq hs, if_neg hlt, if_neg hc], hs⟩
  | enqueue oid interval count delta =>
    simp only [raisedCode, isSome_viewOf] at h
    split_ifs at h with hi hcount hfree
    obtain ⟨n, hn⟩ := Option.ne_none_iff_exists'.mp fun hnone =>
      hfree (List.length_eq_zero_iff.mpr
        ((allocNode_eq_none (Config.nodeChoice s.hiddenDraws)).mp hnone))
    simp only [exec_enqueue_eq hs hi, enqueueWith, if_neg hcount, hn]
    rcases ha : (s.reg oid.toNat).active with _ | _
    · have hq := (instancesOk_of_inv hinv).idleEmpty _ hi ha
      obtain ⟨t, tail, ht, -, ho, -⟩ :=
        enqueueOn_idle hl hi ha hq (isFree_of_allocNode hn) interval count delta
      exact ⟨t, by rw [ht]; rfl, ho.shut.trans hs⟩
    · obtain ⟨t, head, ht, -, ho, -⟩ :=
        enqueueOn_active hl hi ha (isFree_of_allocNode hn) interval count delta
      exact ⟨t, by rw [ht]; rfl, ho.shut.trans hs⟩
  | setNextDir oid dir =>
    simp only [raisedCode, isSome_viewOf] at h
    split_ifs at h with hi
    exact ⟨_, exec_setNextDir_eq hs hi dir, hs⟩
  | resetClock oid time =>
    rcases hi : s.configured oid.toNat with _ | _
    · rw [raisedCode, viewOf_unconfigured hi] at h; cases h
    · rw [raisedCode, viewOf_configured hi, Option.elim_some] at h
      split_ifs at h with hcnt
      have ha : ¬ (s.reg oid.toNat).active = true := fun ha => active_iff.mp ha hcnt
      exact ⟨_, (exec_resetClock_eq hs hi time).trans (if_neg ha), hs⟩
  | getPosition oid =>
    simp only [raisedCode, isSome_viewOf] at h
    split_ifs at h with hi
    exact ⟨_, exec_getPosition_eq hs hi, hs⟩
  | setPosition oid value =>
    simp only [raisedCode, isSome_viewOf] at h
    split_ifs at h with hi
    exact ⟨_, exec_setPosition_eq hs hi value, hs⟩
  | stop oid =>
    simp only [raisedCode, isSome_viewOf] at h
    split_ifs at h with hi
    obtain ⟨t, tail, ht, -, ho, -⟩ := stopInstance_linked hl hi
    exact ⟨t, by rw [exec_stop_eq hs hi, ht]; rfl, ho.shut.trans hs⟩
  | shutdownAll => cases h

/-- A command that raises nothing, as the command of the abstract machine. -/
theorem exec_of_not_raised {s : State} {c : Instr} (hinv : s.Inv) (hs : s.shut = false)
    (h : raisedCode s.nInst s.freeNodes.length s.viewOf c = none) :
    ∃ t, exec c s = .next t ∧ SameGlobals s t ∧ t.viewOf = viewsAfter s.resets s.viewOf c ∧
      t.outputs = s.outputs ++ recordsOf s.viewOf c := by
  obtain ⟨t, ht, hrun⟩ := exec_keeps_running hinv hs h
  obtain ⟨u, hu, he⟩ := exec_effect hinv hs c
  rw [ht] at hu; cases hu
  refine ⟨t, ht, ?_, he.viewOf hinv hrun, he.outputs hrun⟩
  rcases he.fatal_or_globals with ⟨code, hf, -⟩ | ⟨hg, -⟩
  · cases hrun.symm.trans hf.shut
  · exact hg

/-! ## The pool keeps its nodes (20_memory.md R45, R60) -/

theorem length_queue (s : State) (i : Nat) : (s.queue i).length = (s.chain i).length :=
  List.length_map ..

/-- Settles O53: by the ownership rule the owned nodes and FREE are a rearrangement of all nodes. -/
theorem nodesAreConserved : Obligations.NodesAreConserved := by
  rintro s ⟨-, -, howned, -⟩
  calc (s.configuredIds.map fun i => (s.queue i).length).sum + s.freeNodes.length
      = s.ownedNodes.length + s.freeNodes.length := by
        simp only [State.ownedNodes, List.length_flatMap, length_queue]
    _ = s.poolNodes := by
        rw [← List.length_append, howned.length_eq, List.length_range]

/-! ## States that look alike -/

theorem SameGlobals.symm {s t : State} (h : SameGlobals s t) : SameGlobals t s :=
  ⟨h.1.symm, h.2.symm, h.3.symm, h.4.symm, h.5.symm, h.6.symm, h.7.symm⟩

/-- The two states look alike, the number of free nodes left out: that follows (`Alike.freeNodes`). -/
structure Alike (s t : State) : Prop where
  globals : SameGlobals s t
  views : t.viewOf = s.viewOf
  outputs : t.outputs = s.outputs

theorem configured_congr {s t : State} (h : t.viewOf = s.viewOf) (i : Nat) :
    t.configured i = s.configured i := by
  rw [← isSome_viewOf, ← isSome_viewOf, h]

theorem withQueue_congr {s t : State} (h : t.viewOf = s.viewOf) {i : Nat}
    (hi : s.configured i = true) :
    (t.reg i).withQueue (t.queue i) = (s.reg i).withQueue (s.queue i) := by
  have hv := congrFun h i
  rw [viewOf_configured hi, viewOf_configured ((configured_congr h i).trans hi)] at hv
  exact Option.some.inj hv

theorem active_congr {s t : State} (h : t.viewOf = s.viewOf) {i : Nat}
    (hi : s.configured i = true) : (t.reg i).active = (s.reg i).active := by
  have hcnt : (t.reg i).cnt = (s.reg i).cnt :=
    congrArg InstanceView.cnt (withQueue_congr h hi)
  rw [Stepper.active, Stepper.active, hcnt]

theorem queue_congr {s t : State} (h : t.viewOf = s.viewOf) {i : Nat}
    (hi : s.configured i = true) : t.queue i = s.queue i :=
  congrArg InstanceView.queue (withQueue_congr h hi)

theorem configuredIds_congr {s t : State} (hn : t.nInst = s.nInst) (h : t.viewOf = s.viewOf) :
    t.configuredIds = s.configuredIds := by
  rw [State.configuredIds, State.configuredIds, hn]
  exact List.filter_congr fun i _ => configured_congr h i

/-- The number of free nodes is what the queues leave over (20_memory.md R45). -/
theorem length_freeNodes_congr {s t : State} (hs : s.Inv) (ht : t.Inv) (hg : SameGlobals s t)
    (hv : t.viewOf = s.viewOf) : t.freeNodes.length = s.freeNodes.length := by
  have hqueues : (t.configuredIds.map fun i => (t.queue i).length) =
      s.configuredIds.map fun i => (s.queue i).length := by
    rw [configuredIds_congr hg.nInst hv]
    exact List.map_congr_left fun i hi => by rw [queue_congr hv (mem_configuredIds.mp hi)]
  have hconserved := nodesAreConserved t ht
  rw [hqueues, hg.poolNodes, ← nodesAreConserved s hs] at hconserved
  exact Nat.add_left_cancel hconserved

/-- Equal abstract views are states that look alike. -/
theorem alike_of_view_eq {s t : State} (h : s.view = t.view) : Alike s t := by
  simp only [State.view, View.mk.injEq] at h
  obtain ⟨hfwd, hmap, hpool, -, hshut, herr, hin, hout, hresets⟩ := h
  have hn : t.nInst = s.nInst := by simpa using (congrArg List.length hmap).symm
  refine ⟨⟨hfwd.symm, hn, hpool.symm, hshut.symm, herr.symm, hin.symm, hresets.symm⟩, ?_, hout.symm⟩
  funext i
  by_cases hi : i < s.nInst
  · rw [hn] at hmap
    exact (List.map_inj_left.mp hmap i (List.mem_range.mpr hi)).symm
  · have hoff : ∀ u : State, u.nInst = s.nInst → u.viewOf i = none := fun u hu =>
      viewOf_unconfigured (Bool.not_eq_true _ ▸ fun hc => hi (hu ▸ lt_of_configured hc))
    rw [hoff s rfl, hoff t hn]

/-- And back, under the invariant. -/
theorem Alike.view_eq {s t : State} (h : Alike s t) (hs : s.Inv) (ht : t.Inv) :
    s.view = t.view := by
  obtain ⟨hg, hv, hout⟩ := h
  rw [State.view, State.view, length_freeNodes_congr hs ht hg hv, hv, hout, hg.fwdBit, hg.nInst,
    hg.poolNodes, hg.shut, hg.err, hg.inputs, hg.resets]

/-- Two transitions that do the same to the views and to the outputs keep states alike. -/
theorem Alike.of_globals {s s' t t' : State} (h : Alike s s') (hg : SameGlobals s t)
    (hg' : SameGlobals s' t') (hv : t'.viewOf = t.viewOf) {new : List Output}
    (hout : t.outputs = s.outputs ++ new) (hout' : t'.outputs = s'.outputs ++ new) : Alike t t' :=
  ⟨(hg.symm.trans h.globals).trans hg', hv, by rw [hout, hout', h.outputs]⟩

theorem Alike.freeNodes {s t : State} (h : Alike s t) (hs : s.Inv) (ht : t.Inv) :
    t.freeNodes.length = s.freeNodes.length := length_freeNodes_congr hs ht h.globals h.views

/-! ## Transitions from states that look alike -/

/-- Two outcomes that look alike. -/
def AlikeOutcomes : StepOutcome → StepOutcome → Prop
  | .next t, .next t' => Alike t t'
  | .refused r, .refused r' => r = r'
  | _, _ => False

/-- Fatal entry from states that look alike (60_exceptions.md R118). -/
theorem Alike.fatal {s s' t t' : State} {code : ErrorCode} (h : Alike s s')
    (he : FatalEffect code s t) (hl : Linked t fun _ => []) (he' : FatalEffect code s' t')
    (hl' : Linked t' fun _ => []) : Alike t t' := by
  have hv : t'.viewOf = t.viewOf := by rw [he.viewOf hl, he'.viewOf hl', h.views]
  obtain ⟨herr, hshut, hparams, hin, hresets, hout, -⟩ := he
  obtain ⟨herr', hshut', hparams', hin', hresets', hout', -⟩ := he'
  obtain ⟨hg, hviews, houts⟩ := h
  have hcancels : (s'.configuredIds.filter fun i => (s'.reg i).active) =
      s.configuredIds.filter fun i => (s.reg i).active := by
    rw [configuredIds_congr hg.nInst hviews]
    exact List.filter_congr fun i hi => active_congr hviews (mem_configuredIds.mp hi)
  have hp : t'.params = t.params := by
    rw [hparams, hparams', State.params, State.params, hg.nInst, hg.poolNodes, hg.fwdBit]
  simp only [State.params, Params.mk.injEq] at hp
  obtain ⟨hn, hpool, hfwd⟩ := hp
  exact ⟨⟨hfwd, hn, hpool, hshut'.trans hshut.symm, herr'.trans herr.symm,
      by rw [hin', hin, hg.inputs], by rw [hresets', hresets, hg.resets]⟩, hv,
    by rw [hout', hout, hcancels, houts]⟩

theorem Alike.raiseFatal {s s' : State} (h : Alike s s') (hs : s.Inv) (hs' : s'.Inv)
    (code : ErrorCode) : AlikeOutcomes (raiseFatal code s) (raiseFatal code s') := by
  obtain ⟨t, ht, he, hl⟩ := raiseFatal_effect hs code
  obtain ⟨t', ht', he', hl'⟩ := raiseFatal_effect hs' code
  rw [ht, ht']
  exact h.fatal he hl he' hl'

/-- A command answers alike from states that look alike: what it raises, writes and emits is a function
of the views. -/
theorem Alike.exec {s s' : State} (h : Alike s s') (hs : s.Inv) (hs' : s'.Inv)
    (hrun : s.shut = false) (c : Instr) : AlikeOutcomes (exec c s) (exec c s') := by
  have hrun' : s'.shut = false := h.globals.shut.trans hrun
  have hsame : raisedCode s'.nInst s'.freeNodes.length s'.viewOf c =
      raisedCode s.nInst s.freeNodes.length s.viewOf c := by
    rw [h.globals.nInst, h.freeNodes hs hs', h.views]
  rcases hr : raisedCode s.nInst s.freeNodes.length s.viewOf c with _ | code
  · obtain ⟨t, ht, hg, hv, hout⟩ := exec_of_not_raised hs hrun hr
    obtain ⟨t', ht', hg', hv', hout'⟩ := exec_of_not_raised hs' hrun' (hsame.trans hr)
    rw [ht, ht']
    refine h.of_globals hg hg' ?_ hout (by rw [hout', h.views])
    rw [hv, hv', h.views, h.globals.resets]
  · rw [exec_eq_raiseFatal hrun hr, exec_eq_raiseFatal hrun' (hsame.trans hr)]
    exact h.raiseFatal hs hs' code

theorem Alike.executeWord {s s' : State} (h : Alike s s') (hs : s.Inv) (hs' : s'.Inv)
    (w : CommandWord) : AlikeOutcomes (executeWord w s) (executeWord w s') := by
  rcases hrun : s.shut with _ | _
  · have hrun' : s'.shut = false := h.globals.shut.trans hrun
    rcases hd : decode w with e | c
    · rw [executeWord_illegal hrun hd, executeWord_illegal hrun' hd]
      exact h.raiseFatal hs hs' _
    · rw [executeWord_legal hrun hd, executeWord_legal hrun' hd]
      exact h.exec hs hs' hrun c
  · rw [executeWord_shut hrun, executeWord_shut (h.globals.shut.trans hrun)]
    exact h

theorem Alike.armed {s s' : State} (h : Alike s s') (i : Nat) : s'.armed i = s.armed i := by
  rcases hi : s.configured i with _ | _
  · simp [State.armed, hi, configured_congr h.views i]
  · simp [State.armed, hi, configured_congr h.views i, h.globals.shut, active_congr h.views hi]

/-- FIRE of an armed instance, as the FIRE of the abstract machine. -/
theorem fireEvent_views {s : State} {i : Nat} (h : s.Inv) (ha : s.armed i = true) :
    ∃ t, fireEvent i s = .next t ∧ t.Inv ∧ SameGlobals s t ∧
      t.viewOf = Views.modify s.viewOf i (InstanceView.fire s.fwdBit) ∧
      t.outputs = s.outputs ++ fireRecords s.fwdBit s.viewOf i := by
  obtain ⟨hi, -, -⟩ := armed_iff.mp ha
  obtain ⟨t, ht, he⟩ := fire_effect h ha
  obtain ⟨ho, -⟩ := he.only (lt_of_configured hi)
  exact ⟨t, by rw [fireEvent_armed ha, ht]; rfl, he.inv h ha, ho.globals, he.viewOf h hi,
    he.outputs hi⟩

theorem Alike.fireEvent {s s' : State} (h : Alike s s') (hs : s.Inv) (hs' : s'.Inv) (i : Nat) :
    AlikeOutcomes (fireEvent i s) (fireEvent i s') := by
  rcases ha : s.armed i with _ | _
  · rw [fireEvent_unarmed ha, fireEvent_unarmed ((h.armed i).trans ha)]; rfl
  · obtain ⟨t, ht, -, hg, hv, hout⟩ := fireEvent_views hs ha
    obtain ⟨t', ht', -, hg', hv', hout'⟩ := fireEvent_views hs' ((h.armed i).trans ha)
    rw [ht, ht']
    refine h.of_globals hg hg' ?_ hout (by rw [hout', h.views, h.globals.fwdBit])
    rw [hv, hv', h.views, h.globals.fwdBit]

theorem viewOf_blockReset (s : State) : (blockReset s).viewOf = fun _ => none := by
  funext i
  exact viewOf_unconfigured (configured_blockReset s i)

theorem Alike.blockReset {s s' : State} (h : Alike s s') : Alike (blockReset s) (blockReset s') := by
  obtain ⟨hg, -, -⟩ := h
  exact ⟨⟨hg.fwdBit, by simpa using hg.nInst, by simpa using hg.poolNodes, rfl, rfl, hg.inputs,
    congrArg (· + 1) hg.resets⟩, by rw [viewOf_blockReset, viewOf_blockReset], rfl⟩

/-- States that look alike still do with their events to come replaced by the same ones. -/
theorem Alike.withInputs {s s' : State} (h : Alike s s') (es : List Event) :
    Alike (s.withInputs es) (s'.withInputs es) := by
  obtain ⟨hg, hv, hout⟩ := h
  exact ⟨⟨hg.fwdBit, hg.nInst, hg.poolNodes, hg.shut, hg.err, rfl, hg.resets⟩, hv, hout⟩

/-- One step from states that look alike, event by event (20_memory.md R44, R49). -/
theorem Alike.step {s s' : State} (h : Alike s s') (hs : s.Inv) (hs' : s'.Inv) :
    AlikeOutcomes (step s) (step s') := by
  rcases hin : s.inputs with _ | ⟨e, es⟩
  · rw [step_wait hin, step_wait (h.globals.inputs.trans hin)]; exact h
  · rw [step_event hin, step_event (h.globals.inputs.trans hin)]
    have h1 := h.withInputs es
    have hs1 := inv_withInputs hs es
    have hs1' := inv_withInputs hs' es
    cases e with
    | command w => exact h1.executeWord hs1 hs1' w
    | fire i => exact h1.fireEvent hs1 hs1' i
    | blockReset => exact h1.blockReset

/-- Settles O54: states with equal views look alike, so their steps do, and the invariant that the step
keeps gives the views back. -/
theorem hiddenDrawsUnobservable : Obligations.HiddenDrawsUnobservable := by
  intro s s' hs hs' hview
  have halike := (alike_of_view_eq hview).step hs hs'
  rcases ht : step s with t | f | r <;> rcases ht' : step s' with t' | f' | r' <;>
    rw [ht, ht'] at halike
  · exact Alike.view_eq halike (stepKeepsInvariant s t hs ht) (stepKeepsInvariant s' t' hs' ht')
  all_goals exact halike

end Sys2Proof.Machine

/-! PROOFS. What 20_memory.md says of steps and queues, read off the effects of Laws/Invariant.lean and off
the abstract machine: no step faults (R45), each step takes the first event (R49, R50), queues are first in,
first out (R52, R56), and FIREs of different instances commute (R53). -/

namespace Sys2Proof.Machine

/-- Settles O51: the inversion of the step knows a next state and a refusal only. -/
theorem invariantExcludesFaults : Obligations.InvariantExcludesFaults := by
  intro s f h hf
  rcases step_effect h with ⟨t, ht, -⟩ | ⟨i, es, -, -, hr⟩
  · rw [hf] at ht; cases ht
  · rw [hf] at hr; cases hr

/-! ## Events (20_memory.md R49, R50) -/

theorem FatalEffect.inputs {code : ErrorCode} {s t : State} (h : FatalEffect code s t) :
    t.inputs = s.inputs := by
  obtain ⟨-, -, -, hin, -⟩ := h
  exact hin

theorem CommandEffect.inputs {s t : State} {c : Instr} (h : CommandEffect s c t) :
    t.inputs = s.inputs := by
  rcases h.fatal_or_globals with ⟨code, hf, -⟩ | ⟨hg, -⟩
  · exact hf.inputs
  · exact hg.inputs

/-- Settles O11: every effect of a step is that of the state that no longer holds the event, and none
touches the later events. -/
theorem eventsAreTakenInOrder : Obligations.EventsAreTakenInOrder := by
  intro s t e es h hin hst
  cases stepEffect_of_next h hst with
  | wait hw => rw [hin] at hw; cases hw
  | discard hw hs => rw [hin] at hw; cases hw; rfl
  | illegal hw hs hd he hl => rw [hin] at hw; cases hw; exact he.inputs
  | command hw hs hd he => rw [hin] at hw; cases hw; exact he.inputs
  | fire hw ha he =>
    rw [hin] at hw; cases hw
    obtain ⟨hi, -, -⟩ := armed_iff.mp ha
    obtain ⟨ho, -⟩ := he.only (lt_of_configured (s := { s with inputs := es }) hi)
    exact ho.inputs
  | reset hw => rw [hin] at hw; cases hw; rfl

/-! ## Queues (20_memory.md R52, R56; 40_motion_queue.md R82 to R84) -/

theorem queue_of_viewOf {s : State} {i : Nat} {a : InstanceView} (h : s.viewOf i = some a) :
    s.queue i = a.queue := by
  have hi : s.configured i = true := by rw [← isSome_viewOf, h]; rfl
  rw [viewOf_configured hi] at h
  cases h; rfl

/-- A FIRE of the abstract machine keeps the queue or takes its head. -/
theorem InstanceView.queue_fire (fwdBit : Bit) (a : InstanceView) :
    (a.fire fwdBit).queue = a.queue ∨ ∃ g, a.queue = g :: (a.fire fwdBit).queue := by
  rw [InstanceView.fire]
  split_ifs
  · rcases hq : a.queue with _ | ⟨g, gs⟩
    · left; simp [InstanceView.loadNext, InstanceView.takeStep, hq]
    · right; exact ⟨g, by simp [InstanceView.loadNext, InstanceView.takeStep, hq]⟩
  · exact .inl rfl

/-- An ENQUEUE of the abstract machine keeps the queue or puts its segment behind it. -/
theorem InstanceView.queue_enqueue (a : InstanceView) (g : Segment) :
    (a.enqueue g).queue = a.queue ∨ (a.enqueue g).queue = a.queue ++ [g] := by
  rw [InstanceView.enqueue]
  split_ifs
  · exact .inl rfl
  · exact .inr rfl

/-- The view of an instance that exists, after a change of the view of `j`. -/
theorem Views.modify_some (v : Views) {i : Nat} {a : InstanceView} (h : v i = some a) (j : Nat) (f) :
    v.modify j f i = some (if i = j then f a else a) := by
  by_cases hij : i = j
  · subst hij; rw [Views.modify_self, h, if_pos rfl]; rfl
  · rw [Views.modify_ne v hij, h, if_neg hij]

/-- What a command of the abstract machine does to the queue of an instance that exists: nothing, or the
append of ENQUEUE of it, or the emptying by STOP of it. -/
theorem queue_viewsAfter {resets : Nat} {v : Views} {c : Instr} {i : Nat} {a : InstanceView}
    (h : v i = some a) (hc : ∀ oid, c = .configure oid → i ≠ oid.toNat) :
    ∃ b, viewsAfter resets v c i = some b ∧ (b.queue = a.queue ∨
      (∃ oid interval count delta, oid.toNat = i ∧ c = .enqueue oid interval count delta ∧
        b.queue = a.queue ++ [⟨interval, delta, count, a.ndir⟩]) ∨
      (b.queue = [] ∧ ∃ oid, oid.toNat = i ∧ c = .stop oid)) := by
  cases c with
  | configure oid =>
    exact ⟨a, (Function.update_of_ne (hc oid rfl) ..).trans h, .inl rfl⟩
  | enqueue oid interval count delta =>
    refine ⟨_, v.modify_some h oid.toNat _, ?_⟩
    split_ifs with hi
    · rcases a.queue_enqueue ⟨interval, delta, count, a.ndir⟩ with hq | hq
      · exact .inl hq
      · exact .inr (.inl ⟨oid, interval, count, delta, hi.symm, rfl, hq⟩)
    · exact .inl rfl
  | setNextDir oid _ | resetClock oid _ | setPosition oid _ =>
    refine ⟨_, v.modify_some h oid.toNat _, .inl ?_⟩
    split_ifs <;> rfl
  | getPosition oid => exact ⟨a, h, .inl rfl⟩
  | stop oid =>
    refine ⟨_, v.modify_some h oid.toNat _, ?_⟩
    split_ifs with hi
    · exact .inr (.inr ⟨rfl, oid, hi.symm, rfl⟩)
    · exact .inl rfl
  | shutdownAll => exact ⟨a, h, .inl rfl⟩

theorem FatalEffect.queue_nil {code : ErrorCode} {s t : State} {i : Nat} (h : FatalEffect code s t)
    (hl : Linked t fun _ => []) (hi : s.configured i = true) : t.queue i = [] := by
  rw [queue_of_linked hl ((h.sameConfiguration.configured i).trans hi)]; rfl

/-- Settles O41: a fatal condition empties the queue, and every other effect is the abstract machine's. -/
theorem queuesAreFifo : Obligations.QueuesAreFifo := by
  intro s t e es i h hin hst hne hi
  have hview := viewOf_configured hi
  cases stepEffect_of_next h hst with
  | wait hw => rw [hin] at hw; cases hw
  | discard hw hs => exact .inl rfl
  | illegal hw hs hd he hl =>
    exact .inr (.inr (.inr ⟨he.queue_nil hl hi, .inr ⟨hs, he.shut⟩⟩))
  | @command w es' c t hw hs hd he =>
    rw [hin] at hw; cases hw
    rcases he.fatal_or_globals with ⟨code, hf, hl⟩ | ⟨hg, hfresh⟩
    · exact .inr (.inr (.inr ⟨hf.queue_nil hl hi, .inr ⟨hs, hf.shut⟩⟩))
    · have hc : ∀ oid, c = .configure oid → i ≠ oid.toNat := by
        rintro oid hc rfl
        exact Bool.false_ne_true ((hfresh oid hc).symm.trans hi)
      obtain ⟨b, hb, hq⟩ := queue_viewsAfter (resets := s.resets) hview hc
      have htb : t.viewOf i = some b :=
        (congrFun (he.viewOf (inv_withInputs h es) (hg.shut.trans hs)) i).trans hb
      rw [queue_of_viewOf htb]
      rcases hq with hq | ⟨oid, interval, count, delta, ho, rfl, hq⟩ | ⟨hq, oid, ho, rfl⟩
      · exact .inl hq
      · exact .inr (.inl ⟨w, oid, interval, count, delta, rfl, ho, hd, hq⟩)
      · exact .inr (.inr (.inr ⟨hq, .inl ⟨w, oid, rfl, ho, hd⟩⟩))
  | @fire j es' t hw ha he =>
    rw [hin] at hw; cases hw
    obtain ⟨hj, -, -⟩ := armed_iff.mp ha
    have htb : t.viewOf i = Views.modify s.viewOf j (InstanceView.fire s.fwdBit) i :=
      congrFun (he.viewOf (inv_withInputs h es) hj) i
    rw [Views.modify_some _ hview] at htb
    rw [queue_of_viewOf htb]
    split_ifs with hij
    · rcases InstanceView.queue_fire s.fwdBit ((s.reg i).withQueue (s.queue i)) with hq | hq
      · exact .inl hq
      · exact .inr (.inr (.inl ⟨by rw [hij], hq⟩))
    · exact .inl rfl
  | reset hw => rw [hin] at hw; cases hw; exact absurd rfl hne

/-! ## FIREs of different instances (20_memory.md R53; 60_exceptions.md R126) -/

/-- A FIRE of one instance leaves another one armed. -/
theorem armed_of_views {s t : State} {i j : Nat} {f : InstanceView → InstanceView} (hij : j ≠ i)
    (hg : SameGlobals s t) (hv : t.viewOf = Views.modify s.viewOf i f) (ha : s.armed j = true) :
    t.armed j = true := by
  obtain ⟨hj, hs, hact⟩ := armed_iff.mp ha
  have hview : t.viewOf j = s.viewOf j := by rw [hv, Views.modify_ne _ hij]
  have htj : t.configured j = true := by rw [← isSome_viewOf, hview, isSome_viewOf, hj]
  rw [viewOf_configured hj, viewOf_configured htj] at hview
  have hcnt : (t.reg j).cnt = (s.reg j).cnt := congrArg InstanceView.cnt (Option.some.inj hview)
  exact armed_iff.mpr ⟨htj, hg.shut.trans hs, active_iff.mpr (hcnt ▸ active_iff.mp hact)⟩

/-- A run that begins with the FIRE of an armed instance goes on from the state after it. -/
theorem runEvents_fire {s : State} {i : Nat} (h : s.Inv) (ha : s.armed i = true) (es : List Event) :
    ∃ u, runEvents (.fire i :: es) s = runEvents es u ∧ u.Inv ∧ SameGlobals (s.withInputs es) u ∧
      u.viewOf = Views.modify s.viewOf i (InstanceView.fire s.fwdBit) ∧
      u.outputs = s.outputs ++ fireRecords s.fwdBit s.viewOf i := by
  obtain ⟨u, hu, hui, hg, hv, hout⟩ :=
    fireEvent_views (s := s.withInputs es) (inv_withInputs h es) ha
  exact ⟨u, runEvents_cons (e := .fire i) hu hg.inputs, hui, hg, hv, hout⟩

/-- Two FIREs of different armed instances, one after the other, in terms of the views before both. -/
theorem runEvents_two_fires {s : State} {i j : Nat} (h : s.Inv) (hij : i ≠ j)
    (hi : s.armed i = true) (hj : s.armed j = true) :
    ∃ t, runEvents [.fire i, .fire j] s = .next t ∧ t.Inv ∧ SameGlobals (s.withInputs []) t ∧
      t.viewOf = Views.modify (Views.modify s.viewOf i (InstanceView.fire s.fwdBit)) j
        (InstanceView.fire s.fwdBit) ∧
      t.outputs = s.outputs ++
        (fireRecords s.fwdBit s.viewOf i ++ fireRecords s.fwdBit s.viewOf j) := by
  obtain ⟨u, hu, hui, hug, huv, huout⟩ := runEvents_fire h hi [.fire j]
  have huj : u.armed j = true := armed_of_views hij.symm hug huv hj
  obtain ⟨t, ht, hti, htg, htv, htout⟩ := runEvents_fire hui huj []
  have hfwd : u.fwdBit = s.fwdBit := hug.fwdBit
  have hrec : fireRecords u.fwdBit u.viewOf j = fireRecords s.fwdBit s.viewOf j := by
    rw [fireRecords, fireRecords, hfwd, huv, Views.modify_ne _ hij.symm]
  have hwait : t.withInputs [] = t := by
    have hin : t.inputs = [] := htg.inputs
    rw [State.withInputs, ← hin]
  have hg : SameGlobals (s.withInputs []) (u.withInputs []) :=
    ⟨hug.fwdBit, hug.nInst, hug.poolNodes, hug.shut, hug.err, rfl, hug.resets⟩
  refine ⟨t, ?_, hti, hg.trans htg, ?_, ?_⟩
  · rw [hu, ht, runEvents_nil, hwait]
  · rw [htv, huv, hfwd]
  · rw [htout, huout, hrec, List.append_assoc]

/-- Settles O46: in both orders the views are changed at two different ids by the same FIREs, so the
free nodes agree by conservation, and the records of the two FIREs trade places. -/
theorem firesCommuteAcrossInstances : Obligations.FiresCommuteAcrossInstances := by
  intro s i j h hij hi hj
  obtain ⟨t, ht, hti, htg, htv, htout⟩ := runEvents_two_fires h hij hi hj
  obtain ⟨u, hu, hui, hug, huv, huout⟩ := runEvents_two_fires h hij.symm hj hi
  have hviews : t.viewOf = u.viewOf := by rw [htv, huv, Views.modify_comm _ hij]
  have hg : SameGlobals t u := htg.symm.trans hug
  refine ⟨t, u, ht, hu, congrFun hviews, (length_freeNodes_congr hti hui hg hviews.symm).symm, ?_, ?_⟩
  · rw [htout, huout]
    exact List.perm_append_comm.append_left _
  · refine ⟨?_, hg.shut, hg.err, hg.inputs, hg.resets⟩
    rw [State.params, State.params, hg.nInst, hg.poolNodes, hg.fwdBit]

end Sys2Proof.Machine

/-! PROOFS. The encoding of 30_encoding.md: the opcode map as a bijection between commands and legal words
(R61 to R72), the report word (R76), the assembler's reading of a position (R77), and which events the block
refuses (R74, R86). -/

namespace Sys2Proof

/-! ## Encode, then decode (30_encoding.md R69 to R72) -/

/-- The word of a command selects the row of the command's own mnemonic. -/
theorem encode_selects (i : Instr) : Laws.EncodedWordSelectsRow.Statement i := by
  cases i with
  | configure oid => exact Laws.EncodedWordSelectsRow.configure oid
  | enqueue oid interval count delta =>
    exact Laws.EncodedWordSelectsRow.enqueue oid interval count delta
  | setNextDir oid dir => exact Laws.EncodedWordSelectsRow.setNextDir oid dir
  | resetClock oid time => exact Laws.EncodedWordSelectsRow.resetClock oid time
  | getPosition oid => exact Laws.EncodedWordSelectsRow.getPosition oid
  | setPosition oid value => exact Laws.EncodedWordSelectsRow.setPosition oid value
  | stop oid => exact Laws.EncodedWordSelectsRow.stop oid
  | shutdownAll => exact Laws.EncodedWordSelectsRow.shutdownAll

/-- Each operand is read back from the field it was written to. -/
theorem operandsOf_encode (i : Instr) : operandsOf (encode i) (mnemonicOf i) = i := by
  cases i <;> simp [operandsOf, encode, mnemonicOf]

theorem decode_encode (i : Instr) : decode (encode i) = .ok i := by
  rw [decode_of_selects (encode_selects i), operandsOf_encode]

/-- Settles O1: the word of a command selects its mnemonic's row, and its fields hold the operands. -/
theorem decodeOfEncode : Obligations.DecodeOfEncode := fun i _ => decode_encode i

/-! ## Decode, then encode (30_encoding.md R68, R69, R71) -/

/-- What selecting the row of a mnemonic says of the word's fields. -/
theorem rowOf_selects_iff (m : Mnemonic) (w : CommandWord) :
    rowSelects (rowOf m) w = true ↔
      opField w = opcodeOf m ∧ rsvField w = 0#15 ∧ unusedFieldsZero (rowOf m).format w := by
  rw [row_selects_iff (rowOf_mem m).1, (rowOf_mem m).2]

@[simp] theorem mnemonicOf_operandsOf (w : CommandWord) (m : Mnemonic) :
    mnemonicOf (operandsOf w m) = m := by cases m <;> rfl

/-- The fields that a format uses are the same in both words (R69). -/
def UsedFieldsAgree (f : Format) (w v : CommandWord) : Prop :=
  (usesOid f = true → oidField w = oidField v) ∧ (usesDir f = true → dirField w = dirField v) ∧
    (usesA32 f = true → a32Field w = a32Field v) ∧ (usesCount f = true → cntField w = cntField v) ∧
    (usesDelta f = true → dltField w = dltField v)

/-- The operands of a mnemonic are the fields that its format uses (R72). -/
theorem operandsOf_eq_iff (w v : CommandWord) (m : Mnemonic) :
    operandsOf w m = operandsOf v m ↔ UsedFieldsAgree (rowOf m).format w v := by
  cases m <;> simp [operandsOf, UsedFieldsAgree, rowOf, opcodeRows, usesOid, usesDir, usesA32,
    usesCount, usesDelta]

theorem eq_of_used_or_zero {n : Nat} {x y : BitVec n} {used : Bool} (hx : used = false → x = 0#n)
    (hy : used = false → y = 0#n) (h : used = true → x = y) : x = y := by
  cases used with
  | false => rw [hx rfl, hy rfl]
  | true => exact h rfl

/-- A word that selects a mnemonic's row is fixed by its operands: the row fixes OP, RSV and the fields
its format does not use. -/
theorem word_eq_of_operandsOf_eq {w v : CommandWord} {m : Mnemonic}
    (hw : rowSelects (rowOf m) w = true) (hv : rowSelects (rowOf m) v = true)
    (h : operandsOf w m = operandsOf v m) : w = v := by
  obtain ⟨hop, hrsv, hoid, hdir, ha32, hcnt, hdlt⟩ := (rowOf_selects_iff m w).mp hw
  obtain ⟨hop', hrsv', hoid', hdir', ha32', hcnt', hdlt'⟩ := (rowOf_selects_iff m v).mp hv
  obtain ⟨hoidEq, hdirEq, ha32Eq, hcntEq, hdltEq⟩ := (operandsOf_eq_iff w v m).mp h
  exact word_ext (hop.trans hop'.symm) (eq_of_used_or_zero hoid hoid' hoidEq)
    (eq_of_used_or_zero hdir hdir' hdirEq) (hrsv.trans hrsv'.symm)
    (eq_of_used_or_zero ha32 ha32' ha32Eq) (eq_of_used_or_zero hcnt hcnt' hcntEq)
    (eq_of_used_or_zero hdlt hdlt' hdltEq)

theorem encode_operandsOf {w : CommandWord} {m : Mnemonic} (h : rowSelects (rowOf m) w = true) :
    encode (operandsOf w m) = w := by
  have hsel := encode_selects (operandsOf w m)
  have hops := operandsOf_encode (operandsOf w m)
  rw [Laws.EncodedWordSelectsRow.Statement, mnemonicOf_operandsOf] at hsel
  rw [mnemonicOf_operandsOf] at hops
  exact word_eq_of_operandsOf_eq hsel h hops

/-- Settles O2: a legal word selects the row of the mnemonic it decodes to. -/
theorem legalWordsAreEncodings : Obligations.LegalWordsAreEncodings := by
  intro w i h
  obtain ⟨m, hsel, rfl⟩ := selects_of_decode h
  exact encode_operandsOf hsel

/-! ## Illegal words (30_encoding.md R62, R68, R71) -/

/-- A word is illegal exactly when it selects no row of the map. -/
theorem decode_eq_reserved_iff (w : CommandWord) :
    decode w = .error .reservedEncoding ↔ ∀ r ∈ opcodeRows, rowSelects r w = false := by
  rcases hf : opcodeRows.find? (fun r => rowSelects r w) with _ | r
  · have hnone := List.find?_eq_none.mp hf
    simp only [decode, hf, true_iff]
    exact fun r hr => Bool.eq_false_iff.mpr (hnone r hr)
  · have hmem := List.mem_of_find?_eq_some hf
    have hsel := List.find?_some (p := fun r => rowSelects r w) hf
    simp only [decode, hf, reduceCtorEq, false_iff]
    exact fun h => absurd (h r hmem) (by simp [hsel])

/-- The defined OP values are 0x01 to 0x08 (R62). -/
theorem opcodeOf_range (m : Mnemonic) : 1 ≤ (opcodeOf m).toNat ∧ (opcodeOf m).toNat ≤ 8 := by
  cases m <;> decide

/-- Settles O4: a word that selects a row has a defined OP and zero in RSV. -/
theorem reservedWordsIllegal : Obligations.ReservedWordsIllegal := by
  intro w h
  refine (decode_eq_reserved_iff w).mpr fun r hr => Bool.eq_false_iff.mpr fun hsel => ?_
  obtain ⟨hop, hrsv, -⟩ := (row_selects_iff hr w).mp hsel
  obtain ⟨hlow, hhigh⟩ := opcodeOf_range r.mnemonic
  rw [← hop] at hlow hhigh
  rcases h with hzero | hbig | hnonzero
  · rw [hzero] at hlow; exact absurd hlow (by decide)
  · omega
  · exact hnonzero hrsv

/-- Settles O3: both rows ask for the word's OP, and a row of the map is fixed by its OP. -/
theorem opcodeRowsDisjoint : Obligations.OpcodeRowsDisjoint := by
  intro w r r' hr hr' hsel hsel'
  have hop := ((row_selects_iff hr w).mp hsel).1
  have hop' := ((row_selects_iff hr' w).mp hsel').1
  have hm : r.mnemonic = r'.mnemonic := opcodeOf_injective (hop.symm.trans hop')
  rw [← rowOf_mnemonic hr, ← rowOf_mnemonic hr', hm]

/-! ## Words of the test vectors (95_test_vectors.md section 2) -/

theorem decode_of_encode_eq {i : Instr} {w : CommandWord} (h : encode i = w) : decode w = .ok i :=
  h ▸ decode_encode i

/-- Settles O5: nine of the words are the encodings of their commands, and the tenth selects no row,
for the ENQUEUE of V-ENC-20 has DIR set. -/
theorem vectorWordsDecode : Obligations.VectorWordsDecode := by
  refine ⟨decode_of_encode_eq ?_, decode_of_encode_eq ?_, decode_of_encode_eq ?_,
    decode_of_encode_eq ?_, decode_of_encode_eq ?_, decode_of_encode_eq ?_, decode_of_encode_eq ?_,
    decode_of_encode_eq ?_, decode_of_encode_eq ?_, (decode_eq_reserved_iff _).mpr ?_⟩ <;> decide

end Sys2Proof

namespace Sys2Proof.Machine

/-! ## The report word (30_encoding.md R76) -/

/-- Settles O7: each field is the part of the concatenation that starts at its lowest bit. -/
theorem reportWordFields : Obligations.ReportWordFields := by
  intro oid pos
  refine ⟨BitVec.extractLsb'_append_eq_right, ?_, ?_, ?_⟩ <;> unfold reportWord
  · rw [BitVec.extractLsb'_append_eq_of_le (by omega), BitVec.extractLsb'_append_eq_right]
  · rw [BitVec.extractLsb'_append_eq_of_le (by omega), BitVec.extractLsb'_append_eq_of_le (by omega),
      BitVec.extractLsb'_append_eq_right]
  · rw [BitVec.extractLsb'_append_eq_of_le (by omega), BitVec.extractLsb'_append_eq_of_le (by omega),
      BitVec.extractLsb'_append_eq_left]

/-! ## The operand of SET_POSITION (30_encoding.md R65, R77) -/

theorem operand_of_inRange {n : Nat} {inRange : Int → Bool} {cs : List Char} {v : Int}
    (hv : integerOf cs = some v) (h : inRange v = true) :
    operand n inRange cs = .ok (BitVec.ofInt n v) := by simp [operand, hv, h]

theorem operand_outOfRange {n : Nat} {inRange : Int → Bool} {cs : List Char} {v : Int}
    (hv : integerOf cs = some v) (h : inRange v = false) :
    operand n inRange cs = .error .outOfRange := by simp [operand, hv, h]

theorem valueInRange_iff (v : Int) : valueInRange v = true ↔ -(2 ^ 31) ≤ v ∧ v < 2 ^ 32 := by
  simp [valueInRange]

theorem ofInt_eq_ofNat_toNat {v u : Int} (hu : 0 ≤ u) (h : v % 2 ^ 32 = u % 2 ^ 32) :
    BitVec.ofInt 32 v = BitVec.ofNat 32 u.toNat := by
  apply BitVec.eq_of_toNat_eq
  rw [BitVec.toNat_ofInt, BitVec.toNat_ofNat]
  omega

/-- Settles O9: in range the operand is the number modulo 2^32, to which adding 2^32 changes nothing. -/
theorem assembledValueOperand : Obligations.AssembledValueOperand := by
  intro cs v hv
  refine ⟨fun hlow hhigh => ?_, fun hlow hneg => ?_, fun hout => operand_outOfRange hv ?_⟩
  · rw [operand_of_inRange hv ((valueInRange_iff v).mpr ⟨by omega, hhigh⟩),
      ofInt_eq_ofNat_toNat hlow rfl]
  · rw [operand_of_inRange hv ((valueInRange_iff v).mpr ⟨hlow, by omega⟩),
      ofInt_eq_ofNat_toNat (u := v + 2 ^ 32) (by omega) (Int.add_emod_right v _).symm]
  · rw [Bool.eq_false_iff, ne_eq, valueInRange_iff]
    omega

/-! ## Refusals (30_encoding.md R74; 41_stepping_engine.md R86) -/

theorem next_ne_refused {s : State} {x : Refusal} : (.next s : StepOutcome) ≠ .refused x := by simp

theorem raiseFatal_ne_refused {code : ErrorCode} {s : State} {x : Refusal} :
    raiseFatal code s ≠ .refused x := commit_ne_refused

theorem unlessShut_ne_refused {s : State} {body : StepOutcome} {x : Refusal} (h : body ≠ .refused x) :
    unlessShut s body ≠ .refused x := by
  unfold unlessShut
  split
  · exact next_ne_refused
  · exact h

theorem onInstance_ne_refused {oid : Oid} {s : State} {body : Nat → StepOutcome} {x : Refusal}
    (h : ∀ i, body i ≠ .refused x) : onInstance oid s body ≠ .refused x := by
  refine unlessShut_ne_refused ?_
  split
  · exact h _
  · exact raiseFatal_ne_refused

theorem enqueueWith_ne_refused {draw i : Nat} {interval : Word} {count delta : Half} {s : State}
    {x : Refusal} : enqueueWith draw i interval count delta s ≠ .refused x := by
  unfold enqueueWith
  split
  · exact raiseFatal_ne_refused
  · split
    · exact raiseFatal_ne_refused
    · exact commit_ne_refused

theorem execConfigure_ne_refused {oid : Oid} {s : State} {x : Refusal} :
    execConfigure oid s ≠ .refused x := by
  refine unlessShut_ne_refused ?_
  split
  · exact raiseFatal_ne_refused
  · split
    · exact raiseFatal_ne_refused
    · exact next_ne_refused

theorem execResetClock_ne_refused {oid : Oid} {time : Word} {s : State} {x : Refusal} :
    execResetClock oid time s ≠ .refused x := by
  refine onInstance_ne_refused fun i => ?_
  split
  · exact raiseFatal_ne_refused
  · exact next_ne_refused

/-- A command is discarded, ends in fatal entry or runs; none of them is a refusal. -/
theorem exec_ne_refused (c : Instr) (s : State) (x : Refusal) : exec c s ≠ .refused x := by
  cases c with
  | configure oid => exact execConfigure_ne_refused
  | enqueue oid interval count delta => exact onInstance_ne_refused fun _ => enqueueWith_ne_refused
  | setNextDir oid dir =>
    unfold exec execSetNextDir
    exact onInstance_ne_refused fun _ => next_ne_refused
  | resetClock oid time => exact execResetClock_ne_refused
  | getPosition oid =>
    unfold exec execGetPosition
    exact onInstance_ne_refused fun _ => next_ne_refused
  | setPosition oid value =>
    unfold exec execSetPosition
    exact onInstance_ne_refused fun _ => next_ne_refused
  | stop oid => exact onInstance_ne_refused fun _ => commit_ne_refused
  | shutdownAll => exact unlessShut_ne_refused raiseFatal_ne_refused

theorem executeWord_ne_refused {w : CommandWord} {s : State} {x : Refusal} :
    executeWord w s ≠ .refused x := by
  refine unlessShut_ne_refused ?_
  split
  · exact exec_ne_refused _ s x
  · exact raiseFatal_ne_refused

/-- FIRE is refused by name, and only while the instance is not armed. -/
theorem fireEvent_eq_refused {i : Nat} {s : State} {x : Refusal} (h : fireEvent i s = .refused x) :
    s.armed i = false ∧ x = .fireNotArmed i := by
  rcases ha : s.armed i with _ | _
  · rw [fireEvent_unarmed ha] at h
    exact ⟨rfl, (Host.Outcome.refused.inj h).symm⟩
  · rw [fireEvent_armed ha] at h
    exact absurd h commit_ne_refused

/-- Settles O52: of waiting and the three events, FIRE alone can be refused. -/
theorem onlyUnarmedFireRefused : Obligations.OnlyUnarmedFireRefused := by
  refine ⟨fun s x hx => ?_, exec_ne_refused⟩
  rcases hin : s.inputs with _ | ⟨e, es⟩
  · rw [step_wait hin] at hx; cases hx
  · rw [step_event hin] at hx
    cases e with
    | command w => exact absurd hx executeWord_ne_refused
    | fire i =>
      obtain ⟨harmed, hname⟩ := fireEvent_eq_refused hx
      exact ⟨i, es, rfl, harmed, hname⟩
    | blockReset => cases hx

end Sys2Proof.Machine

/-! PROOFS. The stepping engine (41_stepping_engine.md): what a FIRE does (R86 to R88), that STOP twice is
STOP once (R90), what moves an instance's position and its engine state (R85, R92), that steps are
conserved (R93, R94), and when the steps of a segment are due (R91). -/

namespace Sys2Proof.Machine

/-! ## FIRE (41_stepping_engine.md R86 to R88) -/

/-- The step on a FIRE is refused or runs it, as its instance is armed or not (R86). -/
theorem step_fire_unarmed {s : State} {i : Nat} {es : List Event} (hin : s.inputs = .fire i :: es)
    (ha : s.armed i = false) : step s = .refused (.fireNotArmed i) :=
  (step_event hin).trans (fireEvent_unarmed (s := s.withInputs es) ha)

theorem step_fire_armed {s : State} {i : Nat} {es : List Event} (hin : s.inputs = .fire i :: es)
    (ha : s.armed i = true) : step s = commit (fire i (s.withInputs es)) :=
  (step_event hin).trans (fireEvent_armed (s := s.withInputs es) ha)

/-- Settles O37: the guard of FIRE fails. -/
theorem unarmedFireRefused : Obligations.UnarmedFireRefused :=
  fun _ _ _ hin ha => step_fire_unarmed hin ha

theorem arm_setReg {s : State} {i : Nat} (hi : i < s.nInst) (w : Word) (r : Stepper) :
    arm i w (s.setReg i r) = (s.setReg i { r with timer := some w }).emit (.arm i w) := by
  rw [arm, reg_setReg_self hi, setReg_setReg]

/-- Settles O34: FIRE with steps remaining is one write of the instance's registers and one ARM. -/
theorem fireRearms : Obligations.FireRearms := by
  intro s i es hin ha hc
  obtain ⟨hi, -, -⟩ := armed_iff.mp ha
  have hlt : i < (s.withInputs es).nInst := lt_of_configured hi
  have hleft : (s.reg i).cnt - 1 ≠ 0 := sub_ne_zero.mpr hc
  rw [step_fire_armed hin ha, fire_rearm hlt hleft, arm_setReg hlt]
  rfl

/-- Settles O35: FIRE on the last step with nothing queued is one write of the instance's registers. -/
theorem fireGoesIdle : Obligations.FireGoesIdle := by
  intro s i es hin ha hc hq
  obtain ⟨hi, -, -⟩ := armed_iff.mp ha
  have hlt : i < (s.withInputs es).nInst := lt_of_configured hi
  have hlast : (s.reg i).cnt - 1 = 0 := sub_eq_zero.mpr hc
  rw [step_fire_armed hin ha, fire_last_nil hlt hlast hq]
  rfl

/-- The link to a chain names its first node. -/
theorem link_eq_head? {pool : List PoolSlot} {h : Link} {l : List Nat} (hc : Chain pool h l) :
    h = l.head? := by
  cases l with
  | nil => exact hc
  | cons n l => obtain ⟨rfl, -⟩ := hc; rfl

/-- The head node that Load takes off the queue of `i` is the one node that becomes free
(40_motion_queue.md R81, R83). -/
theorem isFree_unlinked {s t : State} {i n : Nat} {l : List Nat} (h : s.Inv)
    (hi : s.configured i = true) (hq : s.chain i = n :: l) (ho : OnlyInstance i s t)
    (hcfg : (t.reg i).cfg = (s.reg i).cfg) (hl : Linked t (Function.update s.chain i l))
    (hp : ∀ m, m ≠ n → t.pool[m]? = s.pool[m]?) (m : Nat) :
    t.isFree m = (s.isFree m || m == n) := by
  by_cases hm : m = n
  · subst hm
    have hchain : m ∈ s.chain i := by simp [hq]
    have hml : m ∉ l := (List.nodup_cons.mp (hq ▸ (linked_of_inv h).nodup i hi)).1
    have hfree : t.isFree m = true :=
      (isFree_iff_of_linked hl (ho.configured hcfg) ho.poolNodes m).mpr
        ⟨chain_lt ((linked_of_inv h).chain i hi) m hchain, fun j hj hmj => by
          by_cases hji : j = i
          · subst hji; rw [Function.update_self] at hmj; exact hml hmj
          · rw [Function.update_of_ne hji] at hmj
            exact not_mem_chain_of_ne h hi hj hji hmj hchain⟩
    simp [hfree]
  · simp [isFree_congr (hp m hm), hm]

theorem OnlyInstance.sameGlobalState {i : Nat} {s t : State} (h : OnlyInstance i s t) :
    SameGlobalState s t :=
  ⟨h.params, h.shut, h.err, h.inputs, h.resets⟩

/-- Settles O36: of the effects of a FIRE only the one that loads the head segment has `CNT = 1` and a
queue. -/
theorem fireLoadsNext : Obligations.FireLoadsNext := by
  intro s i es g gs h hin ha hc hqueue
  obtain ⟨hi, -, -⟩ := armed_iff.mp ha
  have h' : (s.withInputs es).Inv := inv_withInputs h es
  have hi' : (s.withInputs es).configured i = true := hi
  obtain ⟨t, ht, he⟩ := fire_effect h' ha
  have hstep : step s = .next t := by rw [step_fire_armed hin ha, ht]; rfl
  obtain ⟨ho, hcfg⟩ := he.only (lt_of_configured hi')
  have hview : t.viewOf i = some (((s.reg i).withQueue (s.queue i)).fire s.fwdBit) := by
    rw [he.viewOf h' hi', Views.modify_some _ (viewOf_configured hi'), if_pos rfl]; rfl
  rw [hqueue] at hview
  cases he with
  | rearm hc' => exact absurd hc hc'
  | goIdle _ hnil => exact absurd (hqueue.symm.trans (queue_nil (s := s) hnil)) (by simp)
  | @loadNext t n l tail _ hchain hl _ hout hr hp =>
    obtain ⟨rfl, rfl⟩ := List.cons.inj (hqueue.symm.trans (queue_cons (s := s) hchain))
    rw [fire_withQueue_cons hc] at hview
    obtain ⟨-, -, -, hrest⟩ := link_of_linked (linked_of_inv h) hi hchain
    have hnext : (s.nodeAt n).next = l.head? := link_eq_head? hrest
    refine ⟨t, n, l, tail, hstep, hchain, ?_, queue_of_viewOf hview, ?_, hout, ho.sameGlobalState,
      ho.others, isFree_unlinked (s := s.withInputs es) h' hi' hchain ho hcfg hl hp, hp⟩
    · rw [chain_of_linked hl (hcfg.trans hi'), Function.update_self]
    · rw [hr, ← hnext]; rfl

/-! ## STOP (41_stepping_engine.md R90) -/

/-- The inversion of a command from a state with the invariant while `SHUT = 0`. -/
theorem commandEffect_of_next {s t : State} {c : Instr} (h : s.Inv) (hs : s.shut = false)
    (hst : exec c s = .next t) : CommandEffect s c t := by
  obtain ⟨u, hu, he⟩ := exec_effect h hs c
  rw [hst] at hu; cases hu; exact he

theorem exec_stop_shut {s : State} (h : s.shut = true) (oid : Oid) :
    exec (.stop oid) s = .next s := by
  rw [exec, execStop, onInstance_shut h]

/-- StopInstance on an Idle instance with an empty queue whose registers are zeroed already does
nothing (R90). -/
theorem stopInstance_of_stopped {i : Nat} {s : State} (ha : (s.reg i).active = false)
    (hr : stopRegisters (s.reg i) = s.reg i) (hq : (s.reg i).qhead = none) :
    stopInstance i s = .ok s := by
  simp only [stopInstance, ha, Bool.false_eq_true, if_false, hr, setReg_reg]
  exact drainAll_of_empty hq

/-- Settles O31: after a STOP the block is shut, and discards the second one, or the instance is stopped,
and there is nothing left to do. -/
theorem stopIsIdempotent : Obligations.StopIsIdempotent := by
  intro s t oid h hst
  rcases hs : s.shut with _ | _
  · cases commandEffect_of_next h hs hst with
    | fatal code hf hl => exact exec_stop_shut hf.shut oid
    | stop hc hl ho hout hr hp =>
      have hti : t.configured oid.toNat = true := by rw [State.configured, hr]; exact hc
      have hstopped : stopInstance oid.toNat t = .ok t :=
        stopInstance_of_stopped (by rw [hr]; rfl) (by rw [hr]; rfl) (by rw [hr])
      rw [exec_stop_eq (ho.shut.trans hs) hti, hstopped, commit_ok]
  · have hdiscard := exec_stop_shut hs oid
    rw [hdiscard] at hst; cases hst; exact hdiscard

/-! ## What moves an instance's position (41_stepping_engine.md R92) -/

theorem OnlyInstance.pos {i : Nat} {s t : State} (h : OnlyInstance i s t)
    (hi : (t.reg i).pos = (s.reg i).pos) (j : Nat) : (t.reg j).pos = (s.reg j).pos := by
  by_cases hj : j = i
  · rw [hj, hi]
  · rw [h.others j hj]

/-- A write of one instance's registers that keeps POS keeps it everywhere. -/
theorem pos_setReg {s : State} {i : Nat} {r : Stepper} (hi : s.configured i = true)
    (hr : r.pos = (s.reg i).pos) (j : Nat) : ((s.setReg i r).reg j).pos = (s.reg j).pos :=
  (onlyInstance_setReg i s r).pos (by rw [reg_setReg_self (lt_of_configured hi), hr]) j

/-- A FIRE moves POS of its own instance by one in the current direction (R86). -/
theorem FireEffect.pos {s t : State} {i : Nat} (he : FireEffect s i t) (hi : i < s.nInst) :
    (t.reg i).pos = (s.reg i).pos + dirStep s.fwdBit (s.reg i).cdir := by
  cases he with
  | rearm hc => rw [reg_rearm hi]; rfl
  | goIdle hc hq => rw [reg_setReg_self hi]; rfl
  | loadNext hc hq hl ho hout hr hp => rw [hr]; rfl

/-- A command that changes POS of `i` is a CONFIGURE of `i`, or a SET_POSITION of `i` to the new
position. -/
theorem CommandEffect.pos {s t : State} {c : Instr} (he : CommandEffect s c t) (i : Nat) :
    (t.reg i).pos = (s.reg i).pos ∨
      ∃ oid, oid.toNat = i ∧ (c = .configure oid ∨ c = .setPosition oid (t.reg i).pos) := by
  cases he with
  | fatal code hf hl => exact .inl (hf.kept i).1
  | @configure oid hlt hc =>
    by_cases hi : i = oid.toNat
    · exact .inr ⟨oid, hi.symm, .inl rfl⟩
    · left; rw [reg_configureInstance_ne hi]
  | enqueueIdle hc ha hcount hn hl ho hout hr hp => exact .inl (ho.pos (by rw [hr]; rfl) i)
  | enqueueActive hc ha hcount hn hl ho hout hr hnode hseg hp =>
    exact .inl (ho.pos (by rw [hr]) i)
  | setNextDir hc => exact .inl (pos_setReg hc (by rfl) i)
  | resetClock hc ha => exact .inl (pos_setReg hc (by rfl) i)
  | getPosition hc => exact .inl rfl
  | @setPosition oid value hc =>
    by_cases hi : i = oid.toNat
    · subst hi
      exact .inr ⟨oid, rfl, .inr (by rw [reg_setReg_self (lt_of_configured hc)])⟩
    · left; rw [reg_setReg_ne hi]
  | stop hc hl ho hout hr hp => exact .inl (ho.pos (by rw [hr]; rfl) i)

/-- What a step does to POS of `i`: its FIRE moves it by one, and every other event keeps it but
CONFIGURE of `i`, SET_POSITION of `i` and block reset. -/
theorem StepEffect.pos {s t : State} {e : Event} {es : List Event} (h : StepEffect s t)
    (hin : s.inputs = e :: es) (i : Nat) :
    (e = .fire i ∧ (t.reg i).pos = (s.reg i).pos + dirStep s.fwdBit (s.reg i).cdir) ∨
    (e ≠ .fire i ∧ ((t.reg i).pos = (s.reg i).pos ∨ e = .blockReset ∨
      ∃ w oid, e = .command w ∧ oid.toNat = i ∧
        (decode w = .ok (.configure oid) ∨ decode w = .ok (.setPosition oid (t.reg i).pos)))) := by
  cases h with
  | wait hw => rw [hin] at hw; cases hw
  | discard hw hs => rw [hin] at hw; cases hw; exact .inr ⟨nofun, .inl rfl⟩
  | illegal hw hs hd he hl =>
    rw [hin] at hw; cases hw; exact .inr ⟨nofun, .inl (he.kept i).1⟩
  | @command w es c t hw hs hd he =>
    rw [hin] at hw; cases hw
    refine .inr ⟨nofun, (he.pos i).imp_right ?_⟩
    rintro ⟨oid, ho, rfl | rfl⟩
    · exact .inr ⟨w, oid, rfl, ho, .inl hd⟩
    · exact .inr ⟨w, oid, rfl, ho, .inr hd⟩
  | @fire j es t hw ha he =>
    rw [hin] at hw; cases hw
    have hj : j < State.nInst { s with inputs := es } := lt_of_configured (armed_iff.mp ha).1
    by_cases hij : i = j
    · subst hij; exact .inl ⟨rfl, he.pos hj⟩
    · refine .inr ⟨fun heq => hij (Event.fire.inj heq).symm, .inl ?_⟩
      rw [(he.only hj).1.others i hij]; rfl
  | reset hw => rw [hin] at hw; cases hw; exact .inr ⟨nofun, .inr (.inl rfl)⟩

/-- Settles O40, from what a step does to one position. -/
theorem positionLaw : Obligations.PositionLaw := by
  intro s t e es i h hin hst
  rcases (stepEffect_of_next h hst).pos hin i with ⟨he, hpos⟩ | ⟨hne, hpos⟩
  · exact ⟨fun _ => hpos, fun _ => .inl he⟩
  · exact ⟨fun he => absurd he hne, fun hmoved => .inr (hpos.resolve_left hmoved)⟩

/-! ## What an event does to one instance (41_stepping_engine.md R85) -/

/-- What the event `e`, short of block reset, can do to the view `a` of a configured instance `i`;
`raised` says that it raises a fatal condition. -/
inductive InstanceStep (fwdBit : Bit) (raised : Prop) (i : Nat) (a : InstanceView) :
    Event → InstanceView → Prop where
  | kept {e : Event} (he : e ≠ .fire i) : InstanceStep fwdBit raised i a e a
  | fire (ha : a.cnt ≠ 0) : InstanceStep fwdBit raised i a (.fire i) (a.fire fwdBit)
  | enqueue {w : CommandWord} {oid : Oid} {interval : Word} {count delta : Half}
      (ho : oid.toNat = i) (hd : decode w = .ok (.enqueue oid interval count delta))
      (hcount : count ≠ 0) :
      InstanceStep fwdBit raised i a (.command w) (a.enqueue ⟨interval, delta, count, a.ndir⟩)
  | setNextDir {w : CommandWord} (dir : Bit) :
      InstanceStep fwdBit raised i a (.command w) { a with ndir := dir }
  | resetClock {w : CommandWord} (time : Word) (ha : a.cnt = 0) :
      InstanceStep fwdBit raised i a (.command w) { a with wake := time }
  | setPosition {w : CommandWord} (value : Word) :
      InstanceStep fwdBit raised i a (.command w) { a with pos := value }
  | stop {w : CommandWord} {oid : Oid} (ho : oid.toNat = i) (hd : decode w = .ok (.stop oid)) :
      InstanceStep fwdBit raised i a (.command w) a.stop
  | fatal {w : CommandWord} (h : raised) : InstanceStep fwdBit raised i a (.command w) a.stop

/-- Instance `i`, whose view in `s` is `a`, is configured in `t` too, and its view there is one that the
event `e` can make of `a`. -/
def TakesInstance (s t : State) (i : Nat) (a : InstanceView) (e : Event) : Prop :=
  ∃ b, t.viewOf i = some b ∧
    InstanceStep s.fwdBit (s.shut = false ∧ t.shut = true) i a e b

/-- An event that changes the view of one instance `j` by `f`. -/
theorem takesInstance_of_modify {s t : State} {e : Event} {i j : Nat} {a : InstanceView}
    {f : InstanceView → InstanceView} (ha : s.viewOf i = some a)
    (hv : t.viewOf i = Views.modify s.viewOf j f i) (hkept : j ≠ i → e ≠ .fire i)
    (hf : j = i → InstanceStep s.fwdBit (s.shut = false ∧ t.shut = true) i a e (f a)) :
    TakesInstance s t i a e := by
  rw [Views.modify_some _ ha] at hv
  refine ⟨_, hv, ?_⟩
  split_ifs with hij
  · exact hf hij.symm
  · exact .kept (hkept (Ne.symm hij))

theorem eq_withQueue_of_viewOf {s : State} {i : Nat} {a : InstanceView} (h : s.viewOf i = some a) :
    a = (s.reg i).withQueue (s.queue i) := by
  have hi : s.configured i = true := by rw [← isSome_viewOf, h]; rfl
  exact Option.some.inj (h.symm.trans (viewOf_configured hi))

theorem FatalEffect.takesInstance {code : ErrorCode} {s t : State} {w : CommandWord} {i : Nat}
    {a : InstanceView} (hf : FatalEffect code s t) (hl : Linked t fun _ => []) (hs : s.shut = false)
    (ha : s.viewOf i = some a) : TakesInstance s t i a (.command w) :=
  ⟨a.stop, by simp [hf.viewOf hl, ha], .fatal ⟨hs, hf.shut⟩⟩

theorem CommandEffect.takesInstance {s t : State} {c : Instr} {w : CommandWord} {i : Nat}
    {a : InstanceView} (he : CommandEffect s c t) (h : s.Inv) (hs : s.shut = false)
    (hd : decode w = .ok c) (ha : s.viewOf i = some a) : TakesInstance s t i a (.command w) := by
  rcases he.fatal_or_globals with ⟨code, hf, hl⟩ | ⟨hg, -⟩
  · exact hf.takesInstance hl hs ha
  · have hv := congrFun (he.viewOf h (hg.shut.trans hs)) i
    cases he with
    | fatal code hf hl => exact hf.takesInstance hl hs ha
    | @configure oid hlt hc =>
      have hi : i ≠ oid.toNat := by
        rintro rfl
        rw [viewOf_unconfigured hc] at ha; cases ha
      exact ⟨a, hv.trans ((Function.update_of_ne hi ..).trans ha), .kept nofun⟩
    | enqueueIdle hc _ hcount | enqueueActive hc _ hcount =>
      exact takesInstance_of_modify ha hv (fun _ => nofun) fun hj => .enqueue hj hd hcount
    | setNextDir hc =>
      exact takesInstance_of_modify ha hv (fun _ => nofun) fun _ => .setNextDir _
    | resetClock hc hidle =>
      refine takesInstance_of_modify ha hv (fun _ => nofun) fun hj => .resetClock _ ?_
      subst hj
      rw [eq_withQueue_of_viewOf ha]; exact not_active_iff.mp hidle
    | getPosition hc => exact ⟨a, hv.trans ha, .kept nofun⟩
    | setPosition hc =>
      exact takesInstance_of_modify ha hv (fun _ => nofun) fun _ => .setPosition _
    | stop hc => exact takesInstance_of_modify ha hv (fun _ => nofun) fun hj => .stop hj hd

/-- Once for the step: what it does to a configured instance, short of block reset. -/
theorem StepEffect.takesInstance {s t : State} {e : Event} {es : List Event} {i : Nat}
    {a : InstanceView} (h : StepEffect s t) (hinv : s.Inv) (hin : s.inputs = e :: es)
    (hne : e ≠ .blockReset) (ha : s.viewOf i = some a) : TakesInstance s t i a e := by
  cases h with
  | wait hw => rw [hin] at hw; cases hw
  | discard hw hs => rw [hin] at hw; cases hw; exact ⟨a, ha, .kept nofun⟩
  | illegal hw hs hd he hl => rw [hin] at hw; cases hw; exact he.takesInstance hl hs ha
  | command hw hs hd he =>
    rw [hin] at hw; cases hw
    exact he.takesInstance (inv_withInputs hinv es) hs hd ha
  | @fire j es t hw hj he =>
    rw [hin] at hw; cases hw
    obtain ⟨hjc, -, hact⟩ := armed_iff.mp hj
    refine takesInstance_of_modify ha (congrFun (he.viewOf (inv_withInputs hinv es) hjc) i)
      (fun hji heq => hji (Event.fire.inj heq)) fun hji => ?_
    subst hji
    refine .fire ?_
    rw [eq_withQueue_of_viewOf ha]; exact active_iff.mp hact
  | reset hw => rw [hin] at hw; cases hw; exact absurd rfl hne

/-! ## Idle and Active (41_stepping_engine.md R85) -/

theorem InstanceView.loadNext_nil {a : InstanceView} (h : a.queue = []) :
    a.loadNext = { a with cnt := 0 } := by simp [loadNext, h]

theorem InstanceView.loadNext_cons {a : InstanceView} {g : Segment} {gs : List Segment}
    (h : a.queue = g :: gs) : a.loadNext = { a.load g with queue := gs } := by simp [loadNext, h]

/-- A FIRE of an Active instance, in the three ways it can go: rearm, Idle, or the next segment. -/
theorem InstanceView.fire_cases (fwdBit : Bit) (a : InstanceView) :
    (a.cnt ≠ 1 ∧ a.fire fwdBit = (a.takeStep fwdBit).rearm) ∨
    (a.cnt = 1 ∧ a.queue = [] ∧ a.fire fwdBit = { a.takeStep fwdBit with cnt := 0 }) ∨
    (a.cnt = 1 ∧ ∃ g gs, a.queue = g :: gs ∧
      a.fire fwdBit = { (a.takeStep fwdBit).load g with queue := gs }) := by
  by_cases hc : a.cnt = 1
  · have hfire : a.fire fwdBit = (a.takeStep fwdBit).loadNext := if_pos hc
    have hqueue : (a.takeStep fwdBit).queue = a.queue := rfl
    rcases hq : a.queue with _ | ⟨g, gs⟩
    · exact .inr (.inl ⟨hc, rfl, hfire.trans (loadNext_nil (hqueue.trans hq))⟩)
    · exact .inr (.inr ⟨hc, g, gs, rfl, hfire.trans (loadNext_cons (hqueue.trans hq))⟩)
  · exact .inl ⟨hc, if_neg hc⟩

/-- Only ENQUEUE makes an Idle instance Active. -/
theorem InstanceStep.becomesActive {fwdBit : Bit} {raised : Prop} {i : Nat} {a b : InstanceView}
    {e : Event} (h : InstanceStep fwdBit raised i a e b) (ha : a.cnt = 0) (hb : b.cnt ≠ 0) :
    ∃ w oid interval count delta, e = .command w ∧ oid.toNat = i ∧ count ≠ 0 ∧
      decode w = .ok (.enqueue oid interval count delta) := by
  cases h with
  | kept | setNextDir | resetClock | setPosition => exact absurd ha hb
  | fire hactive => exact absurd ha hactive
  | enqueue ho hd hcount => exact ⟨_, _, _, _, _, rfl, ho, hcount, hd⟩
  | stop | fatal => exact absurd rfl hb

/-- An Active instance whose queued counts are not zero becomes Idle by its last FIRE, by STOP or by a
fatal condition only. -/
theorem InstanceStep.becomesIdle {fwdBit : Bit} {raised : Prop} {i : Nat} {a b : InstanceView}
    {e : Event} (h : InstanceStep fwdBit raised i a e b) (hcounts : ∀ g ∈ a.queue, g.count ≠ 0)
    (ha : a.cnt ≠ 0) (hb : b.cnt = 0) :
    (e = .fire i ∧ a.cnt = 1 ∧ a.queue = []) ∨
    (∃ w oid, e = .command w ∧ oid.toNat = i ∧ decode w = .ok (.stop oid)) ∨ raised := by
  cases h with
  | kept | setNextDir | resetClock | setPosition => exact absurd hb ha
  | fire =>
    rcases a.fire_cases fwdBit with ⟨hc, hf⟩ | ⟨hc, hq, -⟩ | ⟨-, g, gs, hq, hf⟩
    · rw [hf] at hb; exact absurd (sub_eq_zero.mp hb) hc
    · exact .inl ⟨rfl, hc, hq⟩
    · rw [hf] at hb; exact absurd hb (hcounts g (by simp [hq]))
  | enqueue => rw [InstanceView.enqueue, if_neg ha] at hb; exact absurd hb ha
  | stop ho hd => exact .inr (.inl ⟨_, _, rfl, ho, hd⟩)
  | fatal hr => exact .inr (.inr hr)

theorem active_of_viewOf {s : State} {i : Nat} {a : InstanceView} (h : s.viewOf i = some a) :
    (s.reg i).active = true ↔ a.cnt ≠ 0 := by
  rw [eq_withQueue_of_viewOf h]; exact active_iff

theorem idle_of_viewOf {s : State} {i : Nat} {a : InstanceView} (h : s.viewOf i = some a) :
    (s.reg i).active = false ↔ a.cnt = 0 := by
  rw [eq_withQueue_of_viewOf h]; exact not_active_iff

theorem counts_of_inv {s : State} (h : s.Inv) {i : Nat} (hi : s.configured i = true) :
    ∀ g ∈ s.queue i, g.count ≠ 0 := by
  obtain ⟨-, -, -, -, -, hcounts, -⟩ := h
  exact hcounts i (lt_of_configured hi) hi

/-- Settles O42, over what a step does to a configured instance. -/
theorem engineTransitions : Obligations.EngineTransitions := by
  intro s t e es i h hin hst hne hi
  have hview := viewOf_configured hi
  obtain ⟨b, hb, hstep⟩ := (stepEffect_of_next h hst).takesInstance h hin hne hview
  refine ⟨fun hidle hact => ?_, fun hact hidle => ?_⟩
  · exact hstep.becomesActive (not_active_iff.mp hidle) ((active_of_viewOf hb).mp hact)
  · exact hstep.becomesIdle (counts_of_inv h hi) (active_iff.mp hact) ((idle_of_viewOf hb).mp hidle)


/-! ## Steps owed (41_stepping_engine.md R93, R94) -/

/-- `State.remainingSteps`, read off the view of the instance (R93). -/
def InstanceView.stepsLeft (a : InstanceView) : Nat :=
  a.cnt.toNat + (a.queue.map fun g => g.count.toNat).sum

/-- `State.remainingTravel`, read off the view of the instance (R94). -/
def InstanceView.travelLeft (fwdBit : Bit) (a : InstanceView) : Word :=
  BitVec.ofNat 32 a.cnt.toNat * dirStep fwdBit a.cdir +
    (a.queue.map fun g => BitVec.ofNat 32 g.count.toNat * dirStep fwdBit g.dir).sum

/-- Where the instance will stand once it has taken every step it owes. -/
def InstanceView.destination (fwdBit : Bit) (a : InstanceView) : Word :=
  a.pos + a.travelLeft fwdBit

theorem remainingSteps_of_viewOf {s : State} {i : Nat} {a : InstanceView}
    (h : s.viewOf i = some a) : s.remainingSteps i = a.stepsLeft := by
  rw [eq_withQueue_of_viewOf h]; rfl

theorem destination_of_viewOf {s : State} {i : Nat} {a : InstanceView} (h : s.viewOf i = some a) :
    (s.reg i).pos + s.remainingTravel i = a.destination s.fwdBit := by
  rw [eq_withQueue_of_viewOf h]; rfl

/-- An Idle instance has an empty queue (10_state.md R31). -/
theorem queue_nil_of_idle {s : State} (h : s.Inv) {i : Nat} {a : InstanceView}
    (ha : s.viewOf i = some a) (hcnt : a.cnt = 0) : (s.reg i).qhead = none ∧ a.queue = [] := by
  have hi : s.configured i = true := by rw [← isSome_viewOf, ha]; rfl
  have hchain := (instancesOk_of_inv h).idleEmpty i hi ((idle_of_viewOf ha).mpr hcnt)
  exact ⟨qhead_of_linked_nil (linked_of_inv h) hi hchain,
    (queue_of_viewOf ha).symm.trans (queue_nil hchain)⟩

/-- An instance owes no step exactly when it is Idle. -/
theorem stepsLeft_eq_zero_iff {s : State} (h : s.Inv) {i : Nat} {a : InstanceView}
    (ha : s.viewOf i = some a) : a.stepsLeft = 0 ↔ a.cnt = 0 := by
  refine ⟨fun hzero => ?_, fun hcnt => ?_⟩
  · obtain ⟨hcnt, -⟩ := Nat.add_eq_zero_iff.mp hzero
    exact BitVec.eq_of_toNat_eq hcnt
  · simp [InstanceView.stepsLeft, hcnt, (queue_nil_of_idle h ha hcnt).2]

theorem InstanceView.destination_of_idle {a : InstanceView} (hcnt : a.cnt = 0) (hq : a.queue = [])
    (fwdBit : Bit) : a.destination fwdBit = a.pos := by
  simp [destination, travelLeft, hcnt, hq]

theorem ofNat_succ (k : Nat) : BitVec.ofNat 32 (k + 1) = BitVec.ofNat 32 k + 1 :=
  BitVec.ofNat_add ..

/-- The count before a step, in terms of the count after it. -/
theorem toNat_sub_one {c : Half} (h : c ≠ 0) : (c - 1).toNat + 1 = c.toNat := by
  have hpos : c.toNat ≠ 0 := fun h0 => h (BitVec.eq_of_toNat_eq h0)
  bv_omega

/-- Each FIRE takes one of the steps owed (R93). -/
theorem InstanceView.stepsLeft_fire (fwdBit : Bit) {a : InstanceView} (h : a.cnt ≠ 0) :
    (a.fire fwdBit).stepsLeft + 1 = a.stepsLeft := by
  rcases a.fire_cases fwdBit with ⟨-, hf⟩ | ⟨hc, hq, hf⟩ | ⟨hc, g, gs, hq, hf⟩ <;> rw [hf]
  · have hcnt := toNat_sub_one h
    simp only [stepsLeft, rearm, takeStep]
    omega
  · simp [stepsLeft, takeStep, hc, hq]
  · have hone : (1 : Half).toNat = 1 := rfl
    simp only [stepsLeft, load, hc, hq, hone, List.map_cons, List.sum_cons]
    omega

/-- And it moves the instance towards a destination that stays the same (R94). -/
theorem InstanceView.destination_fire (fwdBit : Bit) {a : InstanceView} (h : a.cnt ≠ 0) :
    (a.fire fwdBit).destination fwdBit = a.destination fwdBit := by
  rcases a.fire_cases fwdBit with ⟨-, hf⟩ | ⟨hc, hq, hf⟩ | ⟨hc, g, gs, hq, hf⟩ <;> rw [hf]
  · simp only [destination, travelLeft, rearm, takeStep]
    rw [← toNat_sub_one h, ofNat_succ]
    ring
  · simp [destination, travelLeft, takeStep, hc, hq]
  · have hone : BitVec.ofNat 32 (1 : Half).toNat = 1 := rfl
    simp only [destination, travelLeft, load, takeStep, hc, hq, hone, List.map_cons, List.sum_cons]
    ring

/-- A run of as many FIREs of one instance as it owes steps, or fewer: each finds the instance armed. -/
theorem runEvents_fires {i : Nat} : ∀ {k : Nat} {s : State} {a : InstanceView}, s.Inv →
    s.shut = false → s.viewOf i = some a → k ≤ a.stepsLeft →
    ∃ u b, runEvents (fires k i) s = .next u ∧ u.Inv ∧ u.viewOf i = some b ∧
      b = (InstanceView.fire s.fwdBit)^[k] a ∧ u.fwdBit = s.fwdBit ∧ b.stepsLeft + k = a.stepsLeft ∧
      b.destination s.fwdBit = a.destination s.fwdBit
  | 0, s, a, h, _, ha, _ =>
    ⟨s.withInputs [], a, runEvents_nil s, inv_withInputs h [], ha, rfl, rfl, rfl, rfl⟩
  | k + 1, s, a, h, hs, ha, hk => by
    have hi : s.configured i = true := by rw [← isSome_viewOf, ha]; rfl
    have hcnt : a.cnt ≠ 0 := fun h0 => by
      rw [(stepsLeft_eq_zero_iff h ha).mpr h0] at hk; cases hk
    have harmed : s.armed i = true := armed_iff.mpr ⟨hi, hs, (active_of_viewOf ha).mpr hcnt⟩
    have hleft := InstanceView.stepsLeft_fire s.fwdBit hcnt
    obtain ⟨t, ht, hti, hg, hv, -⟩ := runEvents_fire h harmed (fires k i)
    have hta : t.viewOf i = some (a.fire s.fwdBit) := by rw [hv, Views.modify_self, ha]; rfl
    have hfwd : t.fwdBit = s.fwdBit := hg.fwdBit
    obtain ⟨u, b, hu, hui, hub, hb, hufwd, hsteps, hdest⟩ :=
      runEvents_fires (k := k) hti (hg.shut.trans hs) hta (by omega)
    rw [hfwd] at hb hufwd hdest
    exact ⟨u, b, ht.trans hu, hui, hub, hb, hufwd, by omega,
      hdest.trans (InstanceView.destination_fire _ hcnt)⟩

/-- Settles O39: a run of FIREs pays the steps owed one by one and keeps the destination. -/
theorem stepsAreConserved : Obligations.StepsAreConserved := by
  intro s i h hs hi
  have hview := viewOf_configured hi
  rw [remainingSteps_of_viewOf hview]
  refine ⟨fun k hk => ?_, ?_⟩
  · obtain ⟨u, b, hu, hui, hub, -, -, hleft, -⟩ := runEvents_fires h hs hview hk.le
    refine ⟨u, hu, (active_of_viewOf hub).mpr fun hcnt => ?_, ?_⟩
    · have hzero := (stepsLeft_eq_zero_iff hui hub).mpr hcnt
      omega
    · rw [remainingSteps_of_viewOf hub]; omega
  · obtain ⟨u, b, hu, hui, hub, -, hfwd, hleft, hdest⟩ := runEvents_fires h hs hview le_rfl
    have hzero : b.stepsLeft = 0 := by omega
    have hcnt := (stepsLeft_eq_zero_iff hui hub).mp hzero
    obtain ⟨hhead, hq⟩ := queue_nil_of_idle hui hub hcnt
    refine ⟨u, hu, (idle_of_viewOf hub).mpr hcnt, hhead, ?_⟩
    rw [destination_of_viewOf hview, ← hdest, InstanceView.destination_of_idle hcnt hq,
      eq_withQueue_of_viewOf hub]
    rfl


/-! ## When the steps of a segment are due (41_stepping_engine.md R91) -/

/-- `t_k` of R91: the due time of the `k`-th step of the segment `g`, loaded at base `b`. -/
def stepTime (b : Word) (g : Segment) (k : Nat) : Word :=
  b + BitVec.ofNat 32 k * g.interval +
    g.delta.signExtend 32 * BitVec.ofNat 32 (k * (k - 1) / 2)

theorem stepTime_one (b : Word) (g : Segment) : stepTime b g 1 = b + g.interval := by
  simp [stepTime]

/-- From each step to the next it takes the interval, advanced by the delta once for each step. -/
theorem stepTime_succ (b : Word) (g : Segment) (k : Nat) :
    stepTime b g (k + 1) =
      stepTime b g k + (g.interval + g.delta.signExtend 32 * BitVec.ofNat 32 k) := by
  rw [stepTime, stepTime, Nat.triangle_succ, ofNat_succ, BitVec.ofNat_add]
  ring

/-- The instance runs the segment `g`, loaded at base `b`, and has taken `k` of its steps. -/
structure InstanceView.OnSegment (b : Word) (g : Segment) (k : Nat) (a : InstanceView) : Prop where
  wake : a.wake = stepTime b g (k + 1)
  ivl : a.ivl = g.interval + g.delta.signExtend 32 * BitVec.ofNat 32 (k + 1)
  dlt : a.dlt = g.delta
  cnt : a.cnt.toNat + k = g.count.toNat
  cdir : a.cdir = g.dir
  timer : a.timer = some a.wake

/-- Load begins the segment at the present wake time (R88), whatever is queued behind it. -/
theorem InstanceView.onSegment_load (a : InstanceView) (g : Segment) (q : List Segment) :
    { a.load g with queue := q : InstanceView }.OnSegment a.wake g 0 where
  wake := (stepTime_one a.wake g).symm
  ivl := by simp [load, advanceInterval, sext32]
  dlt := rfl
  cnt := rfl
  cdir := rfl
  timer := rfl

theorem InstanceView.OnSegment.cnt_ne_zero {b : Word} {g : Segment} {k : Nat} {a : InstanceView}
    (h : a.OnSegment b g k) (hk : k < g.count.toNat) : a.cnt ≠ 0 := fun h0 => by
  have hcnt := h.cnt
  have hzero : a.cnt.toNat = 0 := by rw [h0]; rfl
  omega

/-- The last step of the segment is the one with `CNT = 1`. -/
theorem InstanceView.OnSegment.cnt_eq_one_iff {b : Word} {g : Segment} {k : Nat} {a : InstanceView}
    (h : a.OnSegment b g k) : a.cnt = 1 ↔ k + 1 = g.count.toNat := by
  have hcnt := h.cnt
  refine ⟨fun h1 => ?_, fun hk => BitVec.eq_of_toNat_eq (show a.cnt.toNat = 1 by omega)⟩
  have hone : a.cnt.toNat = 1 := by rw [h1]; rfl
  omega

/-- A FIRE before the last takes one more step of the segment and keeps the queue (R86). -/
theorem InstanceView.OnSegment.fire {b : Word} {g : Segment} {k : Nat} {a : InstanceView}
    (h : a.OnSegment b g k) (hk : k + 1 < g.count.toNat) (fwdBit : Bit) :
    (a.fire fwdBit).OnSegment b g (k + 1) ∧ (a.fire fwdBit).queue = a.queue := by
  have hzero : a.cnt ≠ 0 := h.cnt_ne_zero (by omega)
  have hone : a.cnt ≠ 1 := fun h1 => hk.ne (h.cnt_eq_one_iff.mp h1)
  have hfire : a.fire fwdBit = (a.takeStep fwdBit).rearm := if_neg hone
  obtain ⟨hwake, hivl, hdlt, hcnt, hcdir, -⟩ := h
  rw [hfire]
  refine ⟨⟨?_, ?_, hdlt, ?_, hcdir, rfl⟩, rfl⟩
  · rw [stepTime_succ, ← hwake, ← hivl]; rfl
  · show advanceInterval a.ivl a.dlt = _
    rw [advanceInterval, sext32, hivl, hdlt, ofNat_succ (k + 1)]
    ring
  · have hsub := toNat_sub_one hzero
    simp only [rearm, takeStep]
    omega

/-- The FIREs before the last, one after the other. -/
theorem InstanceView.OnSegment.iterate_fire {b : Word} {g : Segment} {a : InstanceView}
    (h : a.OnSegment b g 0) (fwdBit : Bit) : ∀ {k : Nat}, k < g.count.toNat →
      ((InstanceView.fire fwdBit)^[k] a).OnSegment b g k ∧
        ((InstanceView.fire fwdBit)^[k] a).queue = a.queue
  | 0, _ => ⟨h, rfl⟩
  | k + 1, hk => by
    obtain ⟨hseg, hq⟩ := h.iterate_fire fwdBit (Nat.lt_of_succ_lt hk)
    rw [Function.iterate_succ_apply']
    obtain ⟨hseg', hq'⟩ := hseg.fire hk fwdBit
    exact ⟨hseg', hq'.trans hq⟩

/-- The last FIRE of a segment with nothing behind it keeps WAKE (R87). -/
theorem InstanceView.fire_last_idle {a : InstanceView} (hc : a.cnt = 1) (hq : a.queue = [])
    (fwdBit : Bit) : (a.fire fwdBit).cnt = 0 ∧ (a.fire fwdBit).wake = a.wake := by
  rcases a.fire_cases fwdBit with ⟨hne, -⟩ | ⟨-, -, hf⟩ | ⟨-, g, gs, hcons, -⟩
  · exact absurd hc hne
  · rw [hf]; exact ⟨rfl, rfl⟩
  · rw [hq] at hcons; cases hcons

/-- All FIREs of a segment with nothing queued behind it: the instance is Idle, its wake time that of the
last step. -/
theorem InstanceView.OnSegment.iterate_fire_idle {b : Word} {g : Segment} {a : InstanceView}
    (h : a.OnSegment b g 0) (hq : a.queue = []) (hg : g.count ≠ 0) (fwdBit : Bit) :
    ((InstanceView.fire fwdBit)^[g.count.toNat] a).cnt = 0 ∧
      ((InstanceView.fire fwdBit)^[g.count.toNat] a).wake = stepTime b g g.count.toNat := by
  obtain ⟨k, hk⟩ := Nat.exists_eq_add_one_of_ne_zero
    (show g.count.toNat ≠ 0 from fun h0 => hg (BitVec.eq_of_toNat_eq h0))
  obtain ⟨hrun, hrunq⟩ := h.iterate_fire fwdBit (k := k) (by omega)
  obtain ⟨hcnt, hwake⟩ := fire_last_idle (hrun.cnt_eq_one_iff.mpr hk.symm) (hrunq.trans hq) fwdBit
  rw [hk, Function.iterate_succ_apply']
  exact ⟨hcnt, hwake.trans hrun.wake⟩

/-- ENQUEUE that raises nothing loads its segment on an Idle instance (42_producer_commands.md R98). -/
theorem viewOf_enqueue_idle {s t : State} {oid : Oid} {interval : Word} {count delta : Half}
    (hv : t.viewOf = viewsAfter s.resets s.viewOf (.enqueue oid interval count delta))
    (hi : s.configured oid.toNat = true) (hidle : (s.reg oid.toNat).active = false) :
    t.viewOf oid.toNat = some (((s.reg oid.toNat).withQueue (s.queue oid.toNat)).load
      ⟨interval, delta, count, (s.reg oid.toNat).ndir⟩) := by
  rw [hv, viewsAfter, Views.modify_self, viewOf_configured hi, Option.map_some]
  exact congrArg some (if_pos (not_active_iff.mp hidle))

/-- With a nonzero count and a free node, ENQUEUE on an Idle instance raises nothing. -/
theorem enqueue_idle_loads {s t : State} {oid : Oid} {interval : Word} {count delta : Half}
    (h : s.Inv) (hs : s.shut = false) (hi : s.configured oid.toNat = true)
    (hidle : (s.reg oid.toNat).active = false) (hcount : count ≠ 0) (hfree : s.freeNodes ≠ [])
    (hst : exec (.enqueue oid interval count delta) s = .next t) :
    t.Inv ∧ t.shut = false ∧
      t.viewOf oid.toNat = some (((s.reg oid.toNat).withQueue (s.queue oid.toNat)).load
        ⟨interval, delta, count, (s.reg oid.toNat).ndir⟩) := by
  have hraise : raisedCode s.nInst s.freeNodes.length s.viewOf
      (.enqueue oid interval count delta) = none := by
    simpa [raisedCode, hi, hfree] using hcount
  obtain ⟨u, hu, hg, hv, -⟩ := exec_of_not_raised h hs hraise
  cases hst.symm.trans hu
  exact ⟨(commandEffect_of_next h hs hst).inv h hs, hg.shut.trans hs,
    viewOf_enqueue_idle hv hi hidle⟩

/-- Settles O38: the segment is loaded with nothing behind it, each FIRE before the last takes one step of
it, and the last one makes the instance Idle. -/
theorem timingLaw : Obligations.TimingLaw := by
  intro s t oid interval count delta h hs hi hidle hcount hfree hst
  let g : Segment := ⟨interval, delta, count, (s.reg oid.toNat).ndir⟩
  let a : InstanceView := (s.reg oid.toNat).withQueue (s.queue oid.toNat)
  obtain ⟨htinv, hts, hta⟩ : t.Inv ∧ t.shut = false ∧ t.viewOf oid.toNat = some (a.load g) :=
    enqueue_idle_loads h hs hi hidle hcount hfree hst
  have hseg : (a.load g).OnSegment a.wake g 0 := a.onSegment_load g a.queue
  have hq : (a.load g).queue = [] :=
    (queue_nil_of_idle h (viewOf_configured hi) (not_active_iff.mp hidle)).2
  have hsteps : (a.load g).stepsLeft = count.toNat := by
    rw [InstanceView.stepsLeft, hq]; rfl
  refine ⟨fun k hk1 hk => ?_, ?_⟩
  · obtain ⟨j, rfl⟩ := Nat.exists_eq_add_of_le' hk1
    obtain ⟨u, b, hu, -, hub, hb, -⟩ := runEvents_fires (k := j) htinv hts hta (by omega)
    obtain ⟨hrun, -⟩ := hseg.iterate_fire t.fwdBit (k := j) hk
    rw [← hb, eq_withQueue_of_viewOf hub] at hrun
    exact ⟨u, hu, hrun.wake, hrun.timer⟩
  · obtain ⟨u, b, hu, -, hub, hb, -⟩ := runEvents_fires htinv hts hta hsteps.ge
    obtain ⟨hcnt, hwake⟩ := hseg.iterate_fire_idle hq hcount t.fwdBit
    rw [← hb] at hcnt hwake
    rw [eq_withQueue_of_viewOf hub] at hwake
    exact ⟨u, hu, (idle_of_viewOf hub).mpr hcnt, hwake⟩

/-! ## The same among other events (R91) -/

theorem run_succ_next {M : Host.Core} {k : Nat} {s t : M.State} (h : M.run (k + 1) s = .next t) :
    ∃ u, M.step s = .next u ∧ M.run k u = .next t := by
  rw [Host.Core.run] at h
  rcases hst : M.step s with u | f | r <;> rw [hst] at h
  · exact ⟨u, rfl, h⟩
  · cases h
  · cases h

/-- The inversion of a run that begins with the event `e`. -/
theorem runEvents_cons_next {s t : State} {e : Event} {es : List Event} (h : s.Inv)
    (hrun : runEvents (e :: es) s = .next t) :
    ∃ u, step (s.withInputs (e :: es)) = .next u ∧ u.Inv ∧ runEvents es u = .next t := by
  have h' : (s.withInputs (e :: es)).Inv := inv_withInputs h _
  obtain ⟨u, hu, -⟩ := run_succ_next (M := Sys2Proof.core) (k := es.length) hrun
  have hin : u.inputs = es := eventsAreTakenInOrder _ u e es h' rfl hu
  exact ⟨u, hu, stepKeepsInvariant _ u h' hu, (runEvents_cons hu hin).symm.trans hrun⟩

/-- Only block reset ends the shutdown (60_exceptions.md R124). -/
theorem StepEffect.shut {s t : State} {e : Event} {es : List Event} (h : StepEffect s t)
    (hin : s.inputs = e :: es) (hne : e ≠ .blockReset) (hs : s.shut = true) : t.shut = true := by
  cases h with
  | wait | discard => exact hs
  | illegal _ hrun | command _ hrun => cases hs.symm.trans hrun
  | fire _ ha =>
    obtain ⟨-, hrun, -⟩ := armed_iff.mp ha
    cases hs.symm.trans hrun
  | reset hw => rw [hin] at hw; cases hw; exact absurd rfl hne

theorem runEvents_shut {t : State} : ∀ {es : List Event} {s : State}, s.Inv →
    (∀ f ∈ es, f ≠ .blockReset) → runEvents es s = .next t → s.shut = true → t.shut = true
  | [], s, _, _, hrun, hs => by rw [runEvents_nil] at hrun; cases hrun; exact hs
  | e :: es, s, h, hne, hrun, hs => by
    obtain ⟨u, hu, hui, hrun'⟩ := runEvents_cons_next h hrun
    obtain ⟨hne, hnes⟩ := List.forall_mem_cons.mp hne
    exact runEvents_shut hui hnes hrun'
      ((stepEffect_of_next (inv_withInputs h _) hu).shut rfl hne hs)

theorem running_of_runEvents {s t : State} {es : List Event} (h : s.Inv)
    (hne : ∀ f ∈ es, f ≠ .blockReset) (hrun : runEvents es s = .next t) (ht : t.shut = false) :
    s.shut = false := by
  rw [← Bool.not_eq_true]
  intro hs
  cases ht.symm.trans (runEvents_shut h hne hrun hs)

theorem InstanceStep.eq_fire {fwdBit : Bit} {raised : Prop} {i : Nat} {a c : InstanceView}
    (h : InstanceStep fwdBit raised i a (.fire i) c) : c = a.fire fwdBit := by
  cases h with
  | kept he => exact absurd rfl he
  | fire => rfl

/-- An event that is no FIRE and no STOP of the instance, and raises nothing, takes no step of the
segment. -/
theorem InstanceView.OnSegment.kept {b : Word} {g : Segment} {k i : Nat} {fwdBit : Bit}
    {raised : Prop} {a c : InstanceView} {e : Event} (h : a.OnSegment b g k)
    (hk : k < g.count.toNat) (hstep : InstanceStep fwdBit raised i a e c) (hne : e ≠ .fire i)
    (he : ¬ StopsOrResets i e) (hr : ¬ raised) : c.OnSegment b g k := by
  have hactive := h.cnt_ne_zero hk
  obtain ⟨hwake, hivl, hdlt, hcnt, hcdir, htimer⟩ := h
  cases hstep with
  | kept | setNextDir | setPosition => exact ⟨hwake, hivl, hdlt, hcnt, hcdir, htimer⟩
  | fire => exact absurd rfl hne
  | enqueue =>
    rw [enqueue, if_neg hactive]
    exact ⟨hwake, hivl, hdlt, hcnt, hcdir, htimer⟩
  | resetClock time hidle => exact absurd hidle hactive
  | stop ho hd => exact absurd (.inr ⟨_, _, rfl, ho, hd⟩) he
  | fatal hraised => exact absurd hraised hr

theorem not_reset_of_not_stopsOrResets {i : Nat} {es : List Event}
    (h : ∀ f ∈ es, ¬ StopsOrResets i f) : ∀ f ∈ es, f ≠ .blockReset :=
  fun f hf hreset => h f hf (.inl hreset)

/-- A run without STOP of the instance, block reset and fatal condition takes a step of the segment with
each FIRE of the instance, and none else. -/
theorem onSegment_of_runEvents {b : Word} {g : Segment} {i : Nat} {t : State}
    (ht : t.shut = false) : ∀ {es : List Event} {s : State} {a : InstanceView} {k : Nat}, s.Inv →
    s.viewOf i = some a → a.OnSegment b g k → (∀ f ∈ es, ¬ StopsOrResets i f) →
    k + es.count (.fire i) < g.count.toNat → runEvents es s = .next t →
    ∃ c, t.viewOf i = some c ∧ c.OnSegment b g (k + es.count (.fire i))
  | [], s, a, k, _, ha, hseg, _, _, hrun => by
    rw [runEvents_nil] at hrun
    cases hrun
    exact ⟨a, ha, hseg⟩
  | e :: es, s, a, k, h, ha, hseg, hes, hk, hrun => by
    obtain ⟨u, hu, hui, hrun'⟩ := runEvents_cons_next h hrun
    obtain ⟨he, hrest⟩ := List.forall_mem_cons.mp hes
    have hus : u.shut = false :=
      running_of_runEvents hui (not_reset_of_not_stopsOrResets hrest) hrun' ht
    have h' : (s.withInputs (e :: es)).Inv := inv_withInputs h _
    obtain ⟨c, hc, hstep⟩ := (stepEffect_of_next h' hu).takesInstance h' rfl
      (fun hreset => he (.inl hreset)) ha
    by_cases hfire : e = .fire i
    · subst hfire
      rw [List.count_cons_self] at hk ⊢
      rw [hstep.eq_fire] at hc
      obtain ⟨hnext, -⟩ := hseg.fire (by omega) s.fwdBit
      have hcount : k + (es.count (.fire i) + 1) = k + 1 + es.count (.fire i) := by omega
      rw [hcount] at hk ⊢
      exact onSegment_of_runEvents ht hui hc hnext hrest hk hrun'
    · rw [List.count_cons_of_ne hfire] at hk ⊢
      have hnotRaised : ¬ ((s.withInputs (e :: es)).shut = false ∧ u.shut = true) :=
        fun ⟨_, hshut⟩ => by cases hus.symm.trans hshut
      have hkept := hseg.kept (by omega) hstep hfire he hnotRaised
      exact onSegment_of_runEvents ht hui hc hkept hrest hk hrun'

/-- The event that loads a segment begins it at the present wake time (R88). -/
theorem LoadsSegment.onSegment {s u : State} {e : Event} {es : List Event} {i : Nat} {g : Segment}
    (hload : LoadsSegment s e i g) (h : s.Inv) (hs : s.shut = false)
    (hu : step (s.withInputs (e :: es)) = .next u) (hus : u.shut = false) :
    ∃ a, u.viewOf i = some a ∧ a.OnSegment (s.reg i).wake g 0 := by
  have h' : (s.withInputs es).Inv := inv_withInputs h _
  rcases hload with ⟨w, oid, rfl, rfl, hd, hi, hidle, hdir⟩ | ⟨rfl, ha, hcnt, hhead⟩
  · have hexec : exec (.enqueue oid g.interval g.count g.delta) (s.withInputs es) = .next u :=
      (executeWord_legal (s := s.withInputs es) hs hd).symm.trans hu
    have hv := (commandEffect_of_next h' hs hexec).viewOf h' hus
    have hview := viewOf_enqueue_idle (s := s.withInputs es) hv hi hidle
    rw [withInputs_reg, ← hdir] at hview
    let a : InstanceView := (s.reg oid.toNat).withQueue (s.queue oid.toNat)
    exact ⟨_, hview, a.onSegment_load g a.queue⟩
  · obtain ⟨u', hu', -, -, hv, -⟩ := fireEvent_views (s := s.withInputs es) h' ha
    cases hu.symm.trans hu'
    obtain ⟨hi, -, -⟩ := armed_iff.mp ha
    obtain ⟨gs, hq⟩ : ∃ gs, s.queue i = g :: gs := List.head?_eq_some_iff.mp hhead
    let a : InstanceView := (s.reg i).withQueue (g :: gs)
    have hfire : a.fire s.fwdBit = { (a.takeStep s.fwdBit).load g with queue := gs } := if_pos hcnt
    have hview : (s.withInputs es).viewOf i = some a := by
      rw [viewOf_configured (s := s.withInputs es) hi,
        show (s.withInputs es).queue i = g :: gs from hq]
      rfl
    refine ⟨a.fire s.fwdBit, by rw [hv, Views.modify_self, hview]; rfl, ?_⟩
    rw [hfire]
    exact (a.takeStep s.fwdBit).onSegment_load g gs

/-- Settles O56: the load begins the segment, and the rest of the run takes as many steps of it as there
are FIREs. -/
theorem timingLawOverRuns : Obligations.TimingLawOverRuns := by
  intro s t e es i g k h hs hload hes hk hcount hrun ht
  subst hk
  obtain ⟨u, hu, hui, hrun'⟩ := runEvents_cons_next h hrun
  have hus := running_of_runEvents hui (not_reset_of_not_stopsOrResets hes) hrun' ht
  obtain ⟨a, ha, hseg⟩ := hload.onSegment h hs hu hus
  obtain ⟨c, hc, hrunning⟩ := onSegment_of_runEvents ht hui ha hseg hes (by omega) hrun'
  rw [Nat.zero_add, eq_withQueue_of_viewOf hc] at hrunning
  exact ⟨hrunning.wake, hrunning.timer, hrunning.cnt, hrunning.cdir⟩

end Sys2Proof.Machine

/-! PROOFS. The producer commands (42_producer_commands.md): that a step runs the decoded command (R96), what
ENQUEUE, SET_NEXT_DIR, RESET_CLOCK, GET_POSITION, SET_POSITION and STOP write and emit (R98 to R103), that the
last FIRE and an ENQUEUE may race (R107), and that a command reads and writes its own instance only (R108). -/

namespace Sys2Proof.Machine

/-! ## Dispatch (42_producer_commands.md R96) -/

theorem decodeBytes_commandToBytes (w : CommandWord) :
    decodeBytes (commandToBytes w) = decode w := by
  rw [decodeBytes, commandOfBytes_commandToBytes]

/-- The table's reading of a word, laid out as bytes and read back, is the port's. -/
theorem decode_of_decodeTableWord {w : Nat} {c : Instr} (h : decodeTableWord 96 w = some c) :
    decode (BitVec.ofNat 96 (w % 2 ^ 96)) = .ok c := by
  rw [decodeTableWord, decodeBytes_commandToBytes] at h
  rcases hd : decode (BitVec.ofNat 96 (w % 2 ^ 96)) with e | d <;> rw [hd] at h
  · cases h
  · cases h; rfl

theorem step_command {s : State} {w : CommandWord} {es : List Event} {c : Instr}
    (hs : s.shut = false) (hin : s.inputs = .command w :: es) (hd : decode w = .ok c) :
    step s = exec c (s.withInputs es) :=
  (step_event hin).trans (executeWord_legal (s := s.withInputs es) hs hd)

/-- Settles O10: the first of the events to come is taken, and its word decoded. -/
theorem stepRunsDecodedCommand : Obligations.StepRunsDecodedCommand :=
  ⟨fun _ _ _ _ hs hin hd _ => step_command hs hin hd, fun s w _ hs hd =>
    step_command (s := s.withFetchWord 96 w) hs rfl (decode_of_decodeTableWord hd)⟩

/-! ## Commands that write one register or emit one report (R99 to R102) -/

/-- Settles O25: on a configured instance of a running block dispatch runs the command's own rule, which is
this one write. -/
theorem setNextDirWritesLatch : Obligations.SetNextDirWritesLatch :=
  fun _ _ dir hs hi => exec_setNextDir_eq hs hi dir

/-- Settles O26: the instance is Idle, so the check of RESET_CLOCK does not fail. -/
theorem resetClockRebasesIdle : Obligations.ResetClockRebasesIdle := by
  intro s oid time hs hi hidle
  rw [exec_resetClock_eq hs hi, hidle]
  rfl

/-- Settles O28: dispatch runs the command's own rule, which emits the report word of R76. -/
theorem getPositionReports : Obligations.GetPositionReports :=
  fun _ _ hs hi => exec_getPosition_eq hs hi

/-- Settles O29: dispatch runs the command's own rule, which does not ask for the engine state. -/
theorem setPositionWritesPos : Obligations.SetPositionWritesPos :=
  fun _ _ value hs hi => exec_setPosition_eq hs hi value

/-! ## ENQUEUE (R98) -/

/-- A command that the abstract machine lets pass answers one of the effects short of fatal entry. -/
theorem exec_effect_running {s : State} {c : Instr} (h : s.Inv) (hs : s.shut = false)
    (hr : raisedCode s.nInst s.freeNodes.length s.viewOf c = none) :
    ∃ t, exec c s = .next t ∧ t.shut = false ∧ CommandEffect s c t := by
  obtain ⟨t, ht, hrun⟩ := exec_keeps_running h hs hr
  exact ⟨t, ht, hrun, commandEffect_of_next h hs ht⟩

/-- With a nonzero count and a free node, ENQUEUE on a configured instance passes its checks. -/
theorem enqueue_not_raised {s : State} {oid : Oid} {interval : Word} {count delta : Half}
    (hi : s.configured oid.toNat = true) (hcount : count ≠ 0) (hfree : s.freeNodes ≠ []) :
    raisedCode s.nInst s.freeNodes.length s.viewOf (.enqueue oid interval count delta) = none := by
  simpa [raisedCode, hi, hfree] using hcount

/-- Where the queues hold the same nodes, the same nodes are free (20_memory.md R45). -/
theorem isFree_of_same_queues {s t : State} (h : s.Inv) (hl : Linked t s.chain)
    (hc : ∀ j, t.configured j = s.configured j) (hp : t.poolNodes = s.poolNodes) (m : Nat) :
    t.isFree m = s.isFree m :=
  Bool.eq_iff_iff.mpr <| (isFree_iff_of_linked hl hc hp m).trans
    (isFree_iff_of_linked (linked_of_inv h) (fun _ => rfl) rfl m).symm

/-- Settles O23: the segment is loaded at once, and its node is free again because no queue holds it. -/
theorem enqueueOnIdle : Obligations.EnqueueOnIdle := by
  intro s oid interval count delta h hs hi hidle hcount hfree
  obtain ⟨t, ht, hrun, he⟩ := exec_effect_running h hs
    (enqueue_not_raised (interval := interval) (delta := delta) hi hcount hfree)
  cases he with
  | fatal code hf hl => cases hrun.symm.trans hf.shut
  | enqueueActive _ hact => cases hidle.symm.trans hact
  | @enqueueIdle _ _ _ _ _ n tail _ _ _ hn hl ho hout hr hp =>
    have hcfg : ∀ j, t.configured j = s.configured j := ho.configured (by
      rw [State.configured, hr]; rfl)
    exact ⟨t, tail, n, ht, hn, hr, hout, ho.sameGlobalState, ho.others,
      isFree_of_same_queues h hl hcfg ho.poolNodes, hp⟩

/-- The link of the node before the last of a chain names the last. -/
theorem next_of_chain_snoc {pool : List PoolSlot} {n m : Nat} :
    ∀ {l : List Nat} {h : Link}, Chain pool h (l ++ [n]) → l.getLast? = some m →
      ∃ p, pool[m]? = some p ∧ p.node.next = some n
  | [], _, _, hm => by cases hm
  | [a], _, ⟨_, p, hp, hnext, _⟩, hm => by cases hm; exact ⟨p, hp, hnext⟩
  | _ :: b :: l, _, ⟨_, _, _, hc⟩, hm =>
    next_of_chain_snoc (l := b :: l) hc (by rwa [List.getLast?_cons_cons] at hm)

/-- The head of a queue with one more node at its tail. -/
theorem head?_snoc (l : List Nat) (n : Nat) :
    (l ++ [n]).head? = if l.head? = none then some n else l.head? := by
  cases l <;> simp

/-- A record is its segment and its link. -/
theorem node_eq_of_segment {a b : Node} (h : a.segment = b.segment) :
    a = { b with next := a.next } := by
  obtain ⟨interval, delta, count, dir, next⟩ := a
  cases h; rfl

/-- The node that Alloc took and Append linked is the one that left FREE (40_motion_queue.md R80, R82). -/
theorem isFree_linked {s t : State} {i n : Nat} (h : s.Inv) (hi : s.configured i = true)
    (hti : t.configured i = true) (hl : Linked t (Function.update s.chain i (s.chain i ++ [n])))
    (hp : ∀ m, m ≠ n → (s.chain i).getLast? ≠ some m → t.pool[m]? = s.pool[m]?) (m : Nat) :
    t.isFree m = (s.isFree m && m != n) := by
  have howned : ∀ m ∈ s.chain i ++ [n], t.isFree m = false := fun m hm =>
    hl.notFree i hti m (by rwa [Function.update_self])
  by_cases hm : m = n
  · simp [hm, howned n (by simp)]
  · by_cases hlast : (s.chain i).getLast? = some m
    · have hmem := List.mem_of_getLast? hlast
      simp [howned m (by simp [hmem]), (linked_of_inv h).notFree i hi m hmem]
    · simp [isFree_congr (hp m hm hlast), hm]

/-- Settles O24: the queue holds one more node, so its links say which head it has and what the old tail
links to. -/
theorem enqueueOnActive : Obligations.EnqueueOnActive := by
  intro s oid interval count delta h hs hi hact hcount hfree
  obtain ⟨t, ht, hrun, he⟩ := exec_effect_running h hs
    (enqueue_not_raised (interval := interval) (delta := delta) hi hcount hfree)
  have hview := congrFun (he.viewOf h hrun) oid.toNat
  cases he with
  | fatal code hf hl => cases hrun.symm.trans hf.shut
  | enqueueIdle _ hidle => cases hidle.symm.trans hact
  | @enqueueActive _ _ _ _ _ n head _ _ _ hn hl ho hout hr hnode hseg hp =>
    have hti : t.configured oid.toNat = true := by rw [State.configured, hr]; exact hi
    have hchain := hl.chain _ hti
    rw [Function.update_self] at hchain
    have hhead : head = if (s.reg oid.toNat).qhead = none then some n
        else (s.reg oid.toNat).qhead := by
      have hlink := link_eq_head? hchain
      rw [hr, head?_snoc, ← link_eq_head? ((linked_of_inv h).chain _ hi)] at hlink
      exact hlink
    have hqueue : t.queue oid.toNat = s.queue oid.toNat ++
        [⟨interval, delta, count, (s.reg oid.toNat).ndir⟩] := by
      rw [viewsAfter, Views.modify_self, viewOf_configured hi, Option.map_some] at hview
      rw [queue_of_viewOf hview]
      exact congrArg InstanceView.queue (enqueue_withQueue_active hact _ _)
    have hold : ∀ m, (s.chain oid.toNat).getLast? = some m →
        t.nodeAt m = { s.nodeAt m with next := some n } := fun m hlast => by
      obtain ⟨p, hslot, hnext⟩ := next_of_chain_snoc hchain hlast
      have hmn := ne_of_mem_chain h hi (isFree_of_allocNode hn) (List.mem_of_getLast? hlast)
      rw [node_eq_of_segment (hseg m hmn), nodeAt_of_getElem? hslot, hnext]
    refine ⟨t, n, ht, hn, by rw [hr, hhead], ?_, hqueue, hout, ho.sameGlobalState, ho.others,
      isFree_linked h hi hti hl hp, hp, hold⟩
    rw [chain_of_linked hl hti, Function.update_self]

/-! ## STOP (R103; 41_stepping_engine.md R90) -/

/-- The nodes of the queue that DrainAll empties join FREE (40_motion_queue.md R84). -/
theorem isFree_drained {s t : State} {i : Nat} (h : s.Inv) (hi : s.configured i = true)
    (hc : ∀ j, t.configured j = s.configured j) (hn : t.poolNodes = s.poolNodes)
    (hl : Linked t (Function.update s.chain i []))
    (hp : ∀ m, m ∉ s.chain i → t.pool[m]? = s.pool[m]?) (m : Nat) :
    t.isFree m = true ↔ s.isFree m = true ∨ m ∈ s.chain i := by
  by_cases hm : m ∈ s.chain i
  · simp only [hm, or_true, iff_true]
    refine (isFree_iff_of_linked hl hc hn m).mpr
      ⟨chain_lt ((linked_of_inv h).chain i hi) m hm, fun j hj hmj => ?_⟩
    by_cases hji : j = i
    · subst hji; rw [Function.update_self] at hmj; cases hmj
    · rw [Function.update_of_ne hji] at hmj
      exact not_mem_chain_of_ne h hi hj hji hmj hm
  · rw [isFree_congr (hp m hm)]
    simp [hm]

/-- Settles O30: STOP of a configured instance passes its check. -/
theorem stopStopsInstance : Obligations.StopStopsInstance := by
  intro s oid h hs hi
  obtain ⟨t, ht, hrun, he⟩ := exec_effect_running (c := .stop oid) h hs (by simp [raisedCode, hi])
  cases he with
  | fatal code hf hl => cases hrun.symm.trans hf.shut
  | @stop _ _ tail _ hl ho hout hr hp =>
    have hcfg : ∀ j, t.configured j = s.configured j := ho.configured (by
      rw [State.configured, hr]; rfl)
    exact ⟨t, tail, ht, hr, hout, ho.sameGlobalState, ho.others,
      isFree_drained h hi hcfg ho.poolNodes hl hp, hp⟩

/-! ## What a command writes (R108) -/

/-- A command while `SHUT = 1` is discarded (60_exceptions.md R123). -/
theorem exec_shut {s : State} (h : s.shut = true) (c : Instr) : exec c s = .next s := by
  cases c with
  | configure oid | shutdownAll => exact unlessShut_of_shut h _
  | enqueue | setNextDir | resetClock | getPosition | setPosition | stop =>
    simp only [exec, execEnqueue, execSetNextDir, execResetClock, execGetPosition, execSetPosition,
      execStop, onInstance_shut h]

/-- Only a running block answers a command with a running block. -/
theorem running_of_exec {s t : State} {c : Instr} (hst : exec c s = .next t) (ht : t.shut = false) :
    s.shut = false := by
  rcases hs : s.shut with _ | _
  · rfl
  · rw [exec_shut hs] at hst
    cases hst; exact hs.symm.trans ht

/-- A command that is not fatal touches the instance it names only. -/
theorem CommandEffect.onlyInstance {s t : State} {c : Instr} {oid : Oid} (he : CommandEffect s c t)
    (hn : namedId c = some oid) (ht : t.shut = false) : OnlyInstance oid.toNat s t := by
  cases he with
  | fatal code hf hl => cases ht.symm.trans hf.shut
  | configure => cases hn; exact onlyInstance_configureInstance _ s
  | enqueueIdle _ _ _ _ _ ho | enqueueActive _ _ _ _ _ ho | stop _ _ ho => cases hn; exact ho
  | setNextDir | resetClock | setPosition => cases hn; exact onlyInstance_setReg _ s _
  | getPosition => exact ⟨rfl, rfl, rfl, rfl, rfl, rfl, rfl, fun _ _ => rfl⟩

/-- In the abstract machine a command leaves the views of the other instances. -/
theorem viewsAfter_ne {resets : Nat} {v : Views} {c : Instr} {oid : Oid} {j : Nat}
    (hn : namedId c = some oid) (hj : j ≠ oid.toNat) : viewsAfter resets v c j = v j := by
  cases c with
  | configure => cases hn; exact Function.update_of_ne hj ..
  | enqueue | setNextDir | resetClock | setPosition | stop => cases hn; exact Views.modify_ne v hj _
  | getPosition => rfl
  | shutdownAll => cases hn

/-- Settles O45: the registers by what the effect touches, the queues by the abstract machine. -/
theorem instancesAreIndependent : Obligations.InstancesAreIndependent := by
  intro s t c oid h hst hn ht
  have he := commandEffect_of_next h (running_of_exec hst ht) hst
  have ho := he.onlyInstance hn ht
  exact ⟨ho.sameGlobalState, fun j hj =>
    ⟨ho.others j hj, (congrFun (he.viewOf h ht) j).trans (viewsAfter_ne hn hj)⟩⟩

/-! ## What a command reads (R108) -/

/-- Of the views, a command reads the one of the instance it names. -/
theorem viewsAfter_self_congr {resets : Nat} {v v' : Views} {c : Instr} {oid : Oid}
    (hn : namedId c = some oid) (hv : v' oid.toNat = v oid.toNat) :
    viewsAfter resets v' c oid.toNat = viewsAfter resets v c oid.toNat := by
  cases c with
  | configure => cases hn; simp [viewsAfter]
  | enqueue | setNextDir | resetClock | setPosition | stop => cases hn; simp [viewsAfter, hv]
  | getPosition => exact hv
  | shutdownAll => cases hn

theorem recordsOf_congr {v v' : Views} {c : Instr} {oid : Oid} (hn : namedId c = some oid)
    (hv : v' oid.toNat = v oid.toNat) : recordsOf v' c = recordsOf v c := by
  simp [recordsOf, hn, hv]

/-- Of FREE it reads whether there is a node. -/
theorem raisedCode_congr {nInst free free' : Nat} {v v' : Views} {c : Instr} {oid : Oid}
    (hn : namedId c = some oid) (hv : v' oid.toNat = v oid.toNat) (hfree : free' = 0 ↔ free = 0) :
    raisedCode nInst free' v' c = raisedCode nInst free v c := by
  cases c with
  | enqueue => cases hn; simp [raisedCode, hv, hfree]
  | configure | setNextDir | resetClock | getPosition | setPosition | stop =>
    cases hn; simp [raisedCode, hv]
  | shutdownAll => cases hn

/-- A command that the abstract machine says is fatal shuts the block. -/
theorem shut_of_raised {s t : State} {c : Instr} {code : ErrorCode} (h : s.Inv) (hs : s.shut = false)
    (hr : raisedCode s.nInst s.freeNodes.length s.viewOf c = some code) (hst : exec c s = .next t) :
    t.shut = true := by
  obtain ⟨u, hu, hf, -⟩ := raiseFatal_effect h code
  rw [exec_eq_raiseFatal hs hr, hu] at hst
  cases hst; exact hf.shut

/-- Settles O55: whether the command is fatal, what it writes and what it emits are functions of the view
of its instance, of the number of slots and of whether a node is free. -/
theorem commandsReadOwnInstance : Obligations.CommandsReadOwnInstance := by
  intro s s' t t' c oid h h' hs hs' hslots hresets hview hfree hn hst hst'
  have hsame : raisedCode s'.nInst s'.freeNodes.length s'.viewOf c =
      raisedCode s.nInst s.freeNodes.length s.viewOf c := by
    rw [← hslots]
    exact raisedCode_congr hn hview.symm (by
      rw [List.length_eq_zero_iff, List.length_eq_zero_iff, hfree])
  rcases hr : raisedCode s.nInst s.freeNodes.length s.viewOf c with _ | code
  · obtain ⟨u, hu, hg, hv, hout⟩ := exec_of_not_raised h hs hr
    obtain ⟨u', hu', hg', hv', hout'⟩ := exec_of_not_raised h' hs' (hsame.trans hr)
    cases hst.symm.trans hu
    cases hst'.symm.trans hu'
    refine ⟨(hg.shut.trans hs).trans (hg'.shut.trans hs').symm, fun _ => ⟨?_, recordsOf s.viewOf c,
      hout, ?_⟩⟩
    · rw [hv, hv', hresets, viewsAfter_self_congr hn hview]
    · rw [hout', recordsOf_congr hn hview]
  · have ht := shut_of_raised h hs hr hst
    have ht' := shut_of_raised h' hs' (hsame.trans hr) hst'
    exact ⟨ht.trans ht'.symm, fun hrun => by cases hrun.symm.trans ht⟩

/-! ## Commands on different instances (R108) -/

/-- In the abstract machine commands on different instances commute. -/
theorem viewsAfter_comm {resets : Nat} (v : Views) {c c' : Instr} {oid oid' : Oid}
    (hn : namedId c = some oid) (hn' : namedId c' = some oid') (hne : oid.toNat ≠ oid'.toNat) :
    viewsAfter resets (viewsAfter resets v c) c' = viewsAfter resets (viewsAfter resets v c') c := by
  funext j
  by_cases hj : j = oid.toNat
  · subst hj
    rw [viewsAfter_ne hn' hne]
    exact (viewsAfter_self_congr hn (viewsAfter_ne hn' hne)).symm
  · rw [viewsAfter_ne (v := viewsAfter resets v c') hn hj]
    by_cases hj' : j = oid'.toNat
    · subst hj'
      exact viewsAfter_self_congr hn' (viewsAfter_ne hn hj)
    · rw [viewsAfter_ne hn' hj', viewsAfter_ne hn' hj', viewsAfter_ne hn hj]

theorem SameGlobals.withInputs {s t : State} (h : SameGlobals s t) (es : List Event) :
    SameGlobals (s.withInputs es) (t.withInputs es) :=
  ⟨h.fwdBit, h.nInst, h.poolNodes, h.shut, h.err, rfl, h.resets⟩

theorem runEvents_nil_of_inputs {s : State} (h : s.inputs = []) : runEvents [] s = .next s := by
  rw [runEvents_nil, State.withInputs, ← h]

/-- A run that begins with a command and does not end in shutdown goes on from the state after the
command of the abstract machine. -/
theorem runEvents_command_next {s t : State} {w : CommandWord} {c : Instr} {es : List Event}
    (h : s.Inv) (hs : s.shut = false) (hd : decode w = .ok c) (hes : ∀ e ∈ es, e ≠ .blockReset)
    (hrun : runEvents (.command w :: es) s = .next t) (ht : t.shut = false) :
    ∃ u, runEvents es u = .next t ∧ u.Inv ∧ SameGlobals (s.withInputs es) u ∧
      u.viewOf = viewsAfter s.resets s.viewOf c ∧ u.outputs = s.outputs ++ recordsOf s.viewOf c := by
  obtain ⟨u, hu, hui, hrun'⟩ := runEvents_cons_next h hrun
  have h' : (s.withInputs es).Inv := inv_withInputs h es
  have hexec : exec c (s.withInputs es) = .next u :=
    (step_command (s := s.withInputs (.command w :: es)) hs rfl hd).symm.trans hu
  have hus : u.shut = false := running_of_runEvents hui hes hrun' ht
  have he := commandEffect_of_next h' hs hexec
  rcases he.fatal_or_globals with ⟨code, hf, -⟩ | ⟨hg, -⟩
  · cases hus.symm.trans hf.shut
  · exact ⟨u, hrun', hui, hg, he.viewOf h' hus, he.outputs hus⟩

/-- Two commands on different instances, neither of them fatal, in terms of the views before both. -/
theorem runEvents_two_commands {s t : State} {w w' : CommandWord} {c c' : Instr} {oid oid' : Oid}
    (h : s.Inv) (hs : s.shut = false) (hd : decode w = .ok c) (hd' : decode w' = .ok c')
    (hn : namedId c = some oid) (hn' : namedId c' = some oid') (hne : oid.toNat ≠ oid'.toNat)
    (hrun : runEvents [.command w, .command w'] s = .next t) (ht : t.shut = false) :
    t.Inv ∧ SameGlobals (s.withInputs []) t ∧
      t.viewOf = viewsAfter s.resets (viewsAfter s.resets s.viewOf c) c' ∧
      t.outputs = s.outputs ++ (recordsOf s.viewOf c ++ recordsOf s.viewOf c') := by
  obtain ⟨u, hrunu, hui, hug, huv, huout⟩ := runEvents_command_next h hs hd (by simp) hrun ht
  obtain ⟨x, hrunx, hxi, hxg, hxv, hxout⟩ :=
    runEvents_command_next hui (hug.shut.trans hs) hd' (by simp) hrunu ht
  rw [runEvents_nil_of_inputs hxg.inputs] at hrunx
  cases hrunx
  have hresets : u.resets = s.resets := hug.resets
  refine ⟨hxi, (hug.withInputs []).trans hxg, by rw [hxv, hresets, huv], ?_⟩
  rw [hxout, huout, huv, recordsOf_congr hn' (viewsAfter_ne hn hne.symm), List.append_assoc]

theorem SameGlobals.sameGlobalState {s t : State} (h : SameGlobals s t) : SameGlobalState s t := by
  refine ⟨?_, h.shut, h.err, h.inputs, h.resets⟩
  rw [State.params, State.params, h.nInst, h.poolNodes, h.fwdBit]

/-- Settles O47: each command reads and writes the view of its own instance, so the views agree, the free
nodes follow by conservation, and the records of the two commands trade places. -/
theorem commandsCommuteAcrossInstances : Obligations.CommandsCommuteAcrossInstances := by
  intro s t u w w' c c' oid oid' h hs hd hd' hn hn' hoid hrun hrun' ht hu
  have hne : oid.toNat ≠ oid'.toNat := fun heq => hoid (BitVec.eq_of_toNat_eq heq)
  obtain ⟨hti, htg, htv, htout⟩ := runEvents_two_commands h hs hd hd' hn hn' hne hrun ht
  obtain ⟨hui, hug, huv, huout⟩ := runEvents_two_commands h hs hd' hd hn' hn hne.symm hrun' hu
  have hviews : t.viewOf = u.viewOf := by rw [htv, huv, viewsAfter_comm _ hn hn' hne]
  have hg : SameGlobals t u := htg.symm.trans hug
  refine ⟨congrFun hviews, (length_freeNodes_congr hti hui hg hviews.symm).symm, ?_,
    hg.sameGlobalState⟩
  rw [htout, huout]
  exact List.perm_append_comm.append_left _

/-! ## The hand-off race (R107) -/

/-- The view of an instance that exists, changed. -/
theorem Views.modify_of_some {v : Views} {i : Nat} {a : InstanceView} (h : v i = some a) (f) :
    v.modify i f = Function.update v i (some (f a)) := by
  rw [Views.modify, h]; rfl

/-- Two changes, one after the other, of the view of an instance that exists. -/
theorem Views.modify_modify_of_some {v : Views} {i : Nat} {a : InstanceView} (h : v i = some a)
    (f g) : (v.modify i f).modify i g = Function.update v i (some (g (f a))) := by
  rw [Views.modify_of_some (a := f a) (by rw [Views.modify_self, h]; rfl), Views.modify_of_some h,
    Function.update_idem]

/-- The last FIRE of an instance with nothing queued makes it Idle (41_stepping_engine.md R87). -/
theorem InstanceView.fire_last_nil {a : InstanceView} (hc : a.cnt = 1) (hq : a.queue = [])
    (fwdBit : Bit) : a.fire fwdBit = { a.takeStep fwdBit with cnt := 0 } :=
  (if_pos hc).trans (loadNext_nil (a := a.takeStep fwdBit) hq)

/-- The last FIRE of an instance finds the segment that ENQUEUE put behind it, and loads it. -/
theorem InstanceView.fire_enqueue_last {a : InstanceView} (hc : a.cnt = 1) (hq : a.queue = [])
    (fwdBit : Bit) (g : Segment) :
    (a.enqueue g).fire fwdBit = (a.takeStep fwdBit).load g := by
  have hactive : a.cnt ≠ 0 := by rw [hc]; decide
  have hlast : (a.enqueue g).fire fwdBit =
      ({ a with queue := [g] }.takeStep fwdBit : InstanceView).loadNext := by
    rw [enqueue, if_neg hactive, hq]; exact if_pos hc
  rw [hlast, loadNext_cons (g := g) (gs := []) rfl]
  simp only [load, takeStep, hq]

/-- After the last FIRE the instance is Idle, so ENQUEUE loads its segment at once. -/
theorem InstanceView.enqueue_fire_last {a : InstanceView} (hc : a.cnt = 1) (hq : a.queue = [])
    (fwdBit : Bit) (g : Segment) :
    (a.fire fwdBit).enqueue g = (a.takeStep fwdBit).load g := by
  rw [fire_last_nil hc hq, enqueue, if_pos rfl]
  rfl

/-- A run that begins with a command that raises nothing goes on from the state after it. -/
theorem runEvents_command {s : State} {w : CommandWord} {c : Instr} (h : s.Inv) (hs : s.shut = false)
    (hd : decode w = .ok c) (hr : raisedCode s.nInst s.freeNodes.length s.viewOf c = none)
    (es : List Event) :
    ∃ u, runEvents (.command w :: es) s = runEvents es u ∧ u.Inv ∧ SameGlobals (s.withInputs es) u ∧
      u.viewOf = viewsAfter s.resets s.viewOf c ∧ u.outputs = s.outputs ++ recordsOf s.viewOf c := by
  have h' : (s.withInputs es).Inv := inv_withInputs h es
  obtain ⟨u, hu, hg, hv, hout⟩ := exec_of_not_raised h' hs hr
  have hword : handleEvent (.command w) (s.withInputs es) = .next u :=
    (executeWord_legal (s := s.withInputs es) hs hd).trans hu
  exact ⟨u, runEvents_cons hword hg.inputs, (commandEffect_of_next h' hs hu).inv h' hs, hg, hv, hout⟩

/-- A run that begins with the last FIRE of an instance with nothing queued: no node is touched. -/
theorem runEvents_last_fire {s : State} {i : Nat} (h : s.Inv) (ha : s.armed i = true)
    (hc : (s.reg i).cnt = 1) (hq : (s.reg i).qhead = none) (es : List Event) :
    ∃ u, runEvents (.fire i :: es) s = runEvents es u ∧ u.Inv ∧ SameGlobals (s.withInputs es) u ∧
      u.freeNodes = s.freeNodes ∧
      u.viewOf = Views.modify s.viewOf i (InstanceView.fire s.fwdBit) ∧
      u.outputs = s.outputs ++ fireRecords s.fwdBit s.viewOf i := by
  obtain ⟨u, hu, hui, hg, hv, hout⟩ :=
    fireEvent_views (s := s.withInputs es) (inv_withInputs h es) ha
  refine ⟨u, runEvents_cons (e := .fire i) hu hg.inputs, hui, hg, ?_, hv, hout⟩
  obtain ⟨hi, -, -⟩ := armed_iff.mp ha
  have hlt : i < (s.withInputs es).nInst := lt_of_configured hi
  have hlast : (s.reg i).cnt - 1 = 0 := sub_eq_zero.mpr hc
  rw [fireEvent_armed (s := s.withInputs es) ha, fire_last_nil hlt hlast hq] at hu
  cases hu; rfl

theorem fireRecords_of_view {v : Views} {i : Nat} {a : InstanceView} (h : v i = some a)
    (fwdBit : Bit) : fireRecords fwdBit v i = ((a.fire fwdBit).timer.map (Output.arm i)).toList := by
  rw [fireRecords, h]; rfl

theorem recordsOf_of_view {v : Views} {c : Instr} {oid : Oid} {a : InstanceView}
    (hn : namedId c = some oid) (h : v oid.toNat = some a) : recordsOf v c = a.records c := by
  rw [recordsOf, hn, Option.bind_some, h]; rfl

/-- What both orders of the race come to, for the instance with the view `a` before it: one step, and the
new segment loaded at the old wake time. -/
structure HandedOff (s t : State) (i : Nat) (a : InstanceView) (interval : Word)
    (count delta : Half) : Prop where
  inv : t.Inv
  globals : SameGlobals (s.withInputs []) t
  views : t.viewOf = Function.update s.viewOf i
    (some ((a.takeStep s.fwdBit).load ⟨interval, delta, count, a.ndir⟩))
  outputs : t.outputs = s.outputs ++ [.arm i (a.wake + interval)]

section
variable {s : State} {oid : Oid} {w : CommandWord} {interval : Word} {count delta : Half}
  {a : InstanceView}

/-- ENQUEUE first: its segment waits in the queue, and the FIRE loads it. -/
theorem handedOff_enqueue_fire (h : s.Inv) (hs : s.shut = false) (hview : s.viewOf oid.toNat = some a)
    (hcnt : a.cnt = 1) (hq : a.queue = []) (hfree : s.freeNodes ≠ []) (hcount : count ≠ 0)
    (hd : decode w = .ok (.enqueue oid interval count delta)) :
    ∃ t, runEvents [.command w, .fire oid.toNat] s = .next t ∧
      HandedOff s t oid.toNat a interval count delta := by
  let g : Segment := ⟨interval, delta, count, a.ndir⟩
  have hi : s.configured oid.toNat = true := by rw [← isSome_viewOf, hview]; rfl
  have hactive : a.cnt ≠ 0 := by rw [hcnt]; decide
  obtain ⟨u, hu, hui, hug, huv, huout⟩ :=
    runEvents_command h hs hd (enqueue_not_raised hi hcount hfree) [.fire oid.toNat]
  have huview : u.viewOf oid.toNat = some (a.enqueue g) := by
    rw [huv, viewsAfter, Views.modify_self, hview]; rfl
  have hucnt : (a.enqueue g).cnt ≠ 0 := by rw [InstanceView.enqueue, if_neg hactive]; exact hactive
  have huarmed : u.armed oid.toNat = true := armed_iff.mpr
    ⟨by rw [← isSome_viewOf, huview]; rfl, hug.shut.trans hs, (active_of_viewOf huview).mpr hucnt⟩
  obtain ⟨t, ht, hti, htg, htv, htout⟩ := runEvents_fire hui huarmed []
  have hfwd : u.fwdBit = s.fwdBit := hug.fwdBit
  refine ⟨t, by rw [hu, ht, runEvents_nil_of_inputs htg.inputs], hti,
    (hug.withInputs []).trans htg, ?_, ?_⟩
  · rw [htv, huv, hfwd, viewsAfter, Views.modify_modify_of_some hview,
      InstanceView.fire_enqueue_last hcnt hq]
  · have hsilent : recordsOf s.viewOf (.enqueue oid interval count delta) = [] := by
      rw [recordsOf_of_view rfl hview, InstanceView.records, if_neg hactive]
    rw [htout, huout, hsilent, List.append_nil, fireRecords_of_view huview, hfwd,
      InstanceView.fire_enqueue_last hcnt hq]
    rfl

/-- FIRE first: the instance goes Idle, and ENQUEUE loads its segment at once. -/
theorem handedOff_fire_enqueue (h : s.Inv) (hs : s.shut = false) (hview : s.viewOf oid.toNat = some a)
    (hcnt : a.cnt = 1) (hq : a.queue = []) (hhead : (s.reg oid.toNat).qhead = none)
    (hfree : s.freeNodes ≠ []) (hcount : count ≠ 0)
    (hd : decode w = .ok (.enqueue oid interval count delta)) :
    ∃ t, runEvents [.fire oid.toNat, .command w] s = .next t ∧
      HandedOff s t oid.toNat a interval count delta := by
  have hactive : a.cnt ≠ 0 := by rw [hcnt]; decide
  have harmed : s.armed oid.toNat = true := armed_iff.mpr
    ⟨by rw [← isSome_viewOf, hview]; rfl, hs, (active_of_viewOf hview).mpr hactive⟩
  have hcnt' : (s.reg oid.toNat).cnt = 1 := by rw [eq_withQueue_of_viewOf hview] at hcnt; exact hcnt
  have hfire := InstanceView.fire_last_nil hcnt hq s.fwdBit
  obtain ⟨u, hu, hui, hug, hufree, huv, huout⟩ :=
    runEvents_last_fire h harmed hcnt' hhead [.command w]
  have huview : u.viewOf oid.toNat = some (a.fire s.fwdBit) := by
    rw [huv, Views.modify_self, hview]; rfl
  have hui' : u.configured oid.toNat = true := by rw [← isSome_viewOf, huview]; rfl
  obtain ⟨t, ht, hti, htg, htv, htout⟩ := runEvents_command hui (hug.shut.trans hs) hd
    (enqueue_not_raised hui' hcount (hufree ▸ hfree)) []
  refine ⟨t, by rw [hu, ht, runEvents_nil_of_inputs htg.inputs], hti,
    (hug.withInputs []).trans htg, ?_, ?_⟩
  · rw [htv, huv, viewsAfter, Views.modify_modify_of_some hview,
      InstanceView.enqueue_fire_last hcnt hq, hfire]
    rfl
  · rw [htout, huout, fireRecords_of_view hview, recordsOf_of_view rfl huview, hfire]
    simp [InstanceView.records, InstanceView.takeStep]

end

/-- Settles O48: both orders hand off to the same segment at the same wake time. -/
theorem handOffRace : Obligations.HandOffRace := by
  intro s oid w interval count delta h ha hcnt hhead hfree hcount hd
  obtain ⟨hi, hs, -⟩ := armed_iff.mp ha
  have hview := viewOf_configured hi
  have hq : s.queue oid.toNat = [] :=
    queue_nil ((linked_nil_iff (linked_of_inv h) hi).mpr hhead)
  obtain ⟨t, ht, hto⟩ := handedOff_enqueue_fire h hs hview hcnt hq hfree hcount hd
  obtain ⟨u, hu, huo⟩ := handedOff_fire_enqueue h hs hview hcnt hq hhead hfree hcount hd
  have halike : Alike t u := ⟨hto.globals.symm.trans huo.globals, huo.views.trans hto.views.symm,
    huo.outputs.trans hto.outputs.symm⟩
  exact ⟨t, u, ht, hu, halike.view_eq hto.inv huo.inv, hto.outputs⟩

end Sys2Proof.Machine

/-! PROOFS. The fatal conditions and the shutdown (60_exceptions.md): that each condition ends in the whole effect
of fatal entry (R110 to R116, R118 to R121), and that while `SHUT = 1` nothing but block reset has an effect
(R122 to R124). -/

namespace Sys2Proof.Machine

/-! ## Fatal conditions (60_exceptions.md R110 to R116) -/

/-- Whoever raises a fatal condition from a state with the invariant, ends in its whole effect. -/
theorem fatalEffect_of_raises {s : State} {code : ErrorCode} {o : StepOutcome} (h : s.Inv)
    (ho : o = raiseFatal code s) : ∃ t, o = .next t ∧ FatalEffect code s t := by
  obtain ⟨t, ht, he, -⟩ := raiseFatal_effect h code
  exact ⟨t, ho.trans ht, he⟩

theorem step_illegal {s : State} {w : CommandWord} {es : List Event} (hs : s.shut = false)
    (hin : s.inputs = .command w :: es) (hw : ∀ r ∈ opcodeRows, rowSelects r w = false) :
    step s = raiseFatal .reservedEncoding (s.withInputs es) :=
  (step_event hin).trans
    (executeWord_illegal (s := s.withInputs es) hs ((decode_eq_reserved_iff w).mpr hw))

/-- Settles O12: a word that selects no row does not decode, so its step raises ReservedEncoding. -/
theorem illegalWordIsFatal : Obligations.IllegalWordIsFatal :=
  fun _ _ es h hs hin hw => fatalEffect_of_raises (inv_withInputs h es) (step_illegal hs hin hw)

/-- An id without a slot is not configured (entry 17). -/
theorem configured_of_ge {s : State} {i : Nat} (h : s.nInst ≤ i) : s.configured i = false :=
  Bool.eq_false_iff.mpr fun hi => absurd (lt_of_configured hi) (Nat.not_lt.mpr h)

/-- Settles O33: either way the id is not configured, and dispatch asks for that first. -/
theorem unconfiguredIdIsFatal : Obligations.UnconfiguredIdIsFatal := by
  intro s c oid h hs hc hid
  have hi : s.configured oid.toNat = false := hid.elim configured_of_ge id
  exact fatalEffect_of_raises h (exec_unconfigured hc hs hi)

/-- Settles O20: a configured id has a slot, so the first check of CONFIGURE passes and the second fails. -/
theorem configureTwiceIsFatal : Obligations.ConfigureTwiceIsFatal := by
  intro s oid h hs hi
  have hslot : ¬ s.nInst ≤ oid.toNat := Nat.not_le.mpr (lt_of_configured hi)
  exact fatalEffect_of_raises h (by rw [exec_configure_eq hs, if_neg hslot, if_pos hi])

/-- Settles O22: the count is checked before Alloc (R121). -/
theorem zeroCountIsFatal : Obligations.ZeroCountIsFatal := by
  intro s oid interval delta h hs hi
  exact fatalEffect_of_raises h ((exec_enqueue_eq hs hi interval 0 delta).trans (if_pos rfl))

/-- Alloc finds no node, whatever its draw (40_motion_queue.md R80). -/
theorem enqueueWith_exhausted {s : State} {count : Half} (hcount : count ≠ 0) (hfree : s.freeNodes = [])
    (draw i : Nat) (interval : Word) (delta : Half) :
    enqueueWith draw i interval count delta s = raiseFatal .allocExhausted s := by
  rw [enqueueWith, if_neg hcount, (allocNode_eq_none draw).mpr hfree]

/-- Settles O21: ENQUEUE asks Alloc for a node before it asks for the engine state, and CONFIGURE asks for a
slot first. -/
theorem exhaustionIsFatal : Obligations.ExhaustionIsFatal := by
  constructor
  · intro s oid interval count delta h hs hi hcount hfree
    exact fatalEffect_of_raises h
      ((exec_enqueue_eq hs hi interval count delta).trans (enqueueWith_exhausted hcount hfree ..))
  · intro s oid h hs hslot
    exact fatalEffect_of_raises h ((exec_configure_eq hs).trans (if_pos hslot))

/-- Settles O27: the check of RESET_CLOCK fails, and its write of WAKE does not happen. -/
theorem resetClockOnActiveIsFatal : Obligations.ResetClockOnActiveIsFatal := by
  intro s oid time h hs hi ha
  exact fatalEffect_of_raises h ((exec_resetClock_eq hs hi time).trans (if_pos ha))

/-- Settles O32: SHUTDOWN_ALL has no check of its own. -/
theorem shutdownAllHalts : Obligations.ShutdownAllHalts :=
  fun _ h hs => fatalEffect_of_raises h (exec_shutdownAll_eq hs)

/-! ## Shutdown (60_exceptions.md R122 to R124) -/

theorem step_command_shut {s : State} {w : CommandWord} {es : List Event} (hs : s.shut = true)
    (hin : s.inputs = .command w :: es) : step s = .next (s.withInputs es) :=
  (step_event hin).trans (executeWord_shut (s := s.withInputs es) hs)

/-- Settles O13: the word is discarded before decode, and dispatch discards every command. -/
theorem shutDiscardsCommands : Obligations.ShutDiscardsCommands :=
  ⟨fun _ _ _ hs hin => step_command_shut hs hin, fun _ c hs => exec_shut hs c⟩

/-- Settles O14, by induction on the stream: each word is discarded, and SHUT stays set for the rest. -/
theorem shutIgnoresEveryStream : Obligations.ShutIgnoresEveryStream := by
  intro s es
  induction es generalizing s with
  | nil => exact fun _ _ => runEvents_nil s
  | cons e es ih =>
    intro hs hes
    obtain ⟨⟨w, rfl⟩, hrest⟩ := List.forall_mem_cons.mp hes
    calc runEvents (.command w :: es) s
        = runEvents es (s.withInputs es) := runEvents_cons (executeWord_shut hs) rfl
      _ = .next (s.withInputs []) := ih (s.withInputs es) hs hrest

/-- No timer is armed while `SHUT = 1`, so no FIRE can happen (60_exceptions.md R122). -/
theorem armed_of_shut {s : State} (hs : s.shut = true) (i : Nat) : s.armed i = false := by
  simp [State.armed, hs]

/-- Settles O15: a command is discarded, and a FIRE has no transition because no timer is armed. -/
theorem shutLeavesByResetOnly : Obligations.ShutLeavesByResetOnly := by
  intro s t e es hs hin hst
  cases e with
  | command w =>
    rw [step_command_shut hs hin] at hst
    cases hst
    exact .inr ⟨nofun, rfl⟩
  | fire i =>
    rw [step_fire_unarmed hin (armed_of_shut hs i)] at hst
    cases hst
  | blockReset =>
    rw [step_event hin] at hst
    cases hst
    exact .inl ⟨rfl, blockReset_shut _, blockReset_err _⟩

end Sys2Proof.Machine

/-! PROOFS. Waiting and block reset (70_reset_and_hazards.md): that the block waits with no event to come (R139),
that the state after reset is the one R136 gives and has the invariant, and what block reset does to any state. -/

namespace Sys2Proof.Machine

/-- Settles O16: no event can be taken. -/
theorem waitsForEvents : Obligations.WaitsForEvents := fun _ hin => step_wait hin

/-! ## The state after reset (R136) -/

@[simp] theorem resetWith_shut (p : Params) : (State.resetWith p).shut = false := rfl
@[simp] theorem resetWith_err (p : Params) : (State.resetWith p).err = 0 := rfl
@[simp] theorem resetWith_fwdBit (p : Params) : (State.resetWith p).fwdBit = p.fwdBit := rfl
@[simp] theorem resetWith_outputs (p : Params) : (State.resetWith p).outputs = [] := rfl
@[simp] theorem resetWith_nInst (p : Params) : (State.resetWith p).nInst = p.nInst :=
  List.length_replicate
@[simp] theorem resetWith_poolNodes (p : Params) : (State.resetWith p).poolNodes = p.poolNodes :=
  List.length_replicate

theorem resetWith_params (p : Params) : (State.resetWith p).params = p := by simp [State.params]

@[simp] theorem configured_resetWith (p : Params) (i : Nat) :
    (State.resetWith p).configured i = false := by rw [State.configured, reg_resetWith]; rfl

/-- What is not configured is not armed (10_state.md R30). -/
theorem armed_resetWith (p : Params) (i : Nat) : (State.resetWith p).armed i = false := by
  simp [State.armed]

theorem timer_resetWith (p : Params) (i : Nat) : ((State.resetWith p).reg i).timer = none := by
  rw [reg_resetWith]; rfl

/-- Settles O18, register by register. -/
theorem resetState : Obligations.ResetState := fun p =>
  ⟨resetWith_shut p, resetWith_err p, resetWith_nInst p, resetWith_poolNodes p, resetWith_fwdBit p,
    resetWith_outputs p,
    fun i => ⟨configured_resetWith p i, armed_resetWith p i, timer_resetWith p i⟩,
    fun _ => isFree_resetWith⟩

/-- With no instance configured there is no queue, and what is left of the invariant is the parameters' ranges,
every node in FREE, no timer armed and ERR = 0. -/
theorem inv_resetWith {p : Params} (hp : p.wellFormed = true) : (State.resetWith p).Inv := by
  have hoff : ∀ {i} {P : Prop}, (State.resetWith p).configured i = true → P := fun hi =>
    absurd hi (Bool.eq_false_iff.mp (configured_resetWith p _))
  have hparams : (State.resetWith p).ParamsInRange := by
    rw [State.ParamsInRange, resetWith_params]; exact hp
  exact inv_of_linked hparams (resetWith_linked p fun _ => []) (fun _ => hoff) (fun _ => hoff)
    (fun _ => hoff) (fun i _ => timer_resetWith p i) (fun _ _ => hoff) (resetWith_err p)

/-- Settles O49: the parameters of `State.reset` are in range too. -/
theorem resetKeepsInvariant : Obligations.ResetKeepsInvariant :=
  ⟨inv_resetWith (by decide), fun _ => inv_resetWith⟩

/-! ## Block reset from any state (R136)

Block reset writes the registers and the pool of the state after reset with the same parameters, so what it leaves
in a timer and in FREE is what that state has there. -/

theorem step_blockReset {s : State} {es : List Event} (hin : s.inputs = .blockReset :: es) :
    step s = .next (blockReset (s.withInputs es)) := step_event hin

theorem timer_blockReset (s : State) (i : Nat) : ((blockReset s).reg i).timer = none :=
  timer_resetWith s.params i

theorem isFree_blockReset {s : State} {n : Nat} (h : n < s.poolNodes) :
    (blockReset s).isFree n = true := isFree_resetWith (p := s.params) h

/-- Settles O17: the step takes the event and block reset writes the rest. -/
theorem blockResetEffect : Obligations.BlockResetEffect := by
  intro s es hin
  refine ⟨blockReset (s.withInputs es), step_blockReset hin, blockReset_shut _, blockReset_err _,
    fun i => ⟨configured_blockReset _ i, timer_blockReset _ i⟩, fun n hn => ?_,
    blockReset_outputs _, blockReset_params _⟩
  rw [blockReset_poolNodes] at hn
  exact isFree_blockReset hn

end Sys2Proof.Machine
